-- ==== Sys2Proof/Word.lean ====
section
/-! DEFINITION. Word.lean: the word types of SMDEC and nothing else. Every operation over them stands in
Sys2Proof/Machine/, so that a repair can mend it. -/

namespace Sys2Proof

/-- A host command word: 66 bits, bit 0 the least significant (30_encoding.md R39, 20_memory.md R27). -/
abbrev Command := BitVec 66

/-- The encoding of an IEEE 754 binary32 value (20_memory.md R27: sign 31, exponent 30..23, fraction 22..0). -/
abbrev F32 := BitVec 32

/-- The encoding of an IEEE 754 binary64 value (20_memory.md R27: sign 63, exponent 62..52, fraction 51..0). Every
real-valued register of SMDEC is one (00_scope.md R6). -/
abbrev F64 := BitVec 64

/-- A byte of a standard message (10_state.md R20). -/
abbrev Byte := BitVec 8

/-- A chip: one decoded line level. "Bit values 0 and 1 are also the Boolean values false and true. A chip value is
one bit" (00_scope.md R7). -/
abbrev Chip := Bool

end Sys2Proof
end

