-- ==== Sys2Proof/Syntax.lean ====
section
/-! DEFINITION. Syntax.lean: the host commands, one constructor per row of spec/opcode_table.json. Each constructor
keeps every bit of its operand, the ignored ones too, so that encoding and decoding are inverse to each other. -/

namespace Sys2Proof

/-- The protocol variant `CFG_VARIANT`: STD is 0, FAST is 1 (00_scope.md R2). -/
inductive Variant where
  | std
  | fast
deriving DecidableEq, Repr

/-- A host command (30_encoding.md R39 to R43). -/
inductive Instr where
  /-- `NOP`, `OP = 0b00`: the whole operand is ignored (40_host_commands.md R53). -/
  | nop (operand : BitVec 64)
  /-- `SAMPLE`, `OP = 0b01`: one stereo sample frame (30_encoding.md R41, 40_host_commands.md R54). -/
  | sample (ch0 ch1 : F32)
  /-- `RESET`, `OP = 0b10`: the configuration to latch (30_encoding.md R42, 40_host_commands.md R56). `ignored` is
  `OPERAND[7:1]`. -/
  | reset (variant : Variant) (ignored : BitVec 7) (rate : BitVec 24) (bal : F32)
  /-- `(reserved)`, `OP = 0b11`: no effect, exactly like NOP (30_encoding.md R43). -/
  | reserved (operand : BitVec 64)
deriving DecidableEq, Repr

end Sys2Proof
end

