-- ==== Sys2Proof/WellFormed.lean ====
section
/-! DEFINITION. WellFormed.lean: the one check the spec makes of a command a host issues. The widths of the fields are
in their types, so no other ill-formed command can be written down. -/

namespace Sys2Proof

/-- A command the host may issue: any but the reserved selector, which "the host must not issue" (30_encoding.md R43;
93 I1: "a proof about well-formed programs assumes the host never issues it"). The machine still runs the reserved
command, as the no-op the spec defines. -/
def WellFormed : Instr → Bool
  | .nop _ => true
  | .sample _ _ => true
  | .reset _ _ _ _ => true
  | .reserved _ => false

/-- A command sequence a host may issue: every command in it is well formed (30_encoding.md R43). -/
def WellFormedProgram (p : List Instr) : Bool := p.all WellFormed

end Sys2Proof
end

