-- ==== Sys2Proof/Decode.lean ====
section
/-! DEFINITION. Decode.lean: the command word's decoder, total on any bits, and after it the encoder, both from the
tables of 30_encoding.md R39 to R43. -/

namespace Sys2Proof

/-- `VARIANT`, bit 0 of a RESET operand: 0 is STD, 1 is FAST (30_encoding.md R42). -/
def variantOfBit (b : Bool) : Variant := if b then .fast else .std

/-- The bit that spells a variant (30_encoding.md R42). -/
def bitOfVariant : Variant → Bool
  | .std => false
  | .fast => true

/-- The command selector `OP`, bits 65:64 (30_encoding.md R39). -/
def opField (w : Command) : BitVec 2 := w.extractLsb 65 64

/-- The command operand `OPERAND`, bits 63:0 (30_encoding.md R39). -/
def operandField (w : Command) : BitVec 64 := w.extractLsb 63 0

/-- The SAMPLE of an operand: `CH0 = OPERAND[31:0]`, `CH1 = OPERAND[63:32]` (30_encoding.md R41). -/
def decodeSample (o : BitVec 64) : Instr := .sample (o.extractLsb 31 0) (o.extractLsb 63 32)

/-- The RESET of an operand: `VARIANT = OPERAND[0]`, `OPERAND[7:1]` ignored, `RATE = OPERAND[31:8]`,
`BAL = OPERAND[63:32]` (30_encoding.md R42, R43). -/
def decodeReset (o : BitVec 64) : Instr :=
  .reset (variantOfBit (o.getLsbD 0)) (o.extractLsb 7 1) (o.extractLsb 31 8) (o.extractLsb 63 32)

/-- The command a word encodes (30_encoding.md R40). Every one of the 2^66 words is a command: no word is refused. -/
def decode (w : Command) : Instr :=
  if opField w = 0 then .nop (operandField w)
  else if opField w = 1 then decodeSample (operandField w)
  else if opField w = 2 then decodeReset (operandField w)
  else .reserved (operandField w)

/-- Why a number is not read as a command. -/
inductive DecodeError where
  /-- The number has a bit above bit 65: it is no 66-bit command word (30_encoding.md R39). -/
  | wordTooWide
deriving DecidableEq, Repr

/-- The command a number encodes, bit 0 the least significant, refusing by name a number that is no 66-bit word
(30_encoding.md R39). -/
def decodeBits (v : Nat) : Except DecodeError Instr :=
  if v < 2 ^ 66 then .ok (decode (BitVec.ofNat 66 v)) else .error .wordTooWide

/-- The command the decoder reads from the low `nbits` bits of `w` (the opcode table's numbering: bit 0 is the least
significant bit of the command word), the bits above `nbits` being 0. -/
def decodeTableWord (nbits w : Nat) : Option Instr :=
  match decodeBits (w % 2 ^ nbits) with
  | .ok i => some i
  | .error _ => none

/-- The selector of a command (30_encoding.md R40). -/
def opOf : Instr → BitVec 2
  | .nop _ => 0
  | .sample _ _ => 1
  | .reset _ _ _ _ => 2
  | .reserved _ => 3

/-- The operand of a command (30_encoding.md R41 to R43). -/
def operandOf : Instr → BitVec 64
  | .nop o => o
  | .sample ch0 ch1 => ch1 ++ ch0
  | .reset v ignored rate bal => bal ++ rate ++ ignored ++ BitVec.ofBool (bitOfVariant v)
  | .reserved o => o

/-- The word of a command: `OP` above `OPERAND` (30_encoding.md R39). -/
def encode (i : Instr) : Command := opOf i ++ operandOf i

end Sys2Proof
end

