-- ==== Sys2Proof/Config.lean ====
section
/-! DEFINITION. Config.lean: what the spec leaves open, as FREE VALUES: constants without a body, of which nothing can
be proved, so that a statement proved of the model holds whatever they are. The spec's fixed constants (00_scope.md R3)
are not free: they stand in Sys2Proof/Machine/Constants.lean. -/

namespace Sys2Proof

/-- FREE VALUE (log entry 4): the value of `K_REF` after a RESET with an illegal configuration. "While
`CONFIGURED == 0` their values are unspecified and no rule reads them" (10_state.md R15; 93 I4 "any value"). -/
opaque Config.freeKRef : Nat → BitVec 14

/-- FREE VALUE (log entry 4): `K_F` after a RESET with an illegal configuration (10_state.md R15; 93 I4). -/
opaque Config.freeKF : Nat → F64

/-- FREE VALUE (log entry 4): `K_ALPHA` after a RESET with an illegal configuration (10_state.md R15; 93 I4). -/
opaque Config.freeKAlpha : Nat → F64

/-- FREE VALUE (log entry 4): `K_DLEN` after a RESET with an illegal configuration (10_state.md R15; 93 I4). -/
opaque Config.freeKDlen : Nat → BitVec 12

/-- FREE VALUE (log entry 4): `K_EDGE_MIN` after a RESET with an illegal configuration (10_state.md R15; 93 I4). -/
opaque Config.freeKEdgeMin : Nat → F64

/-- FREE VALUE (log entry 4): `K_OVF_MIN` after a RESET with an illegal configuration (10_state.md R15; 93 I4). -/
opaque Config.freeKOvfMin : Nat → F64

/-- FREE VALUE (log entry 5): the sign and payload of the NaN that a binary64 operation delivers, from its operands.
IEEE 754 (00_scope.md R6) leaves both open; the operation sets the bits that make it a quiet NaN. -/
opaque Config.nanResult : F64 → F64 → F64

/-- FREE VALUE (log entry 5): the sign and payload of the binary64 NaN that a binary32 NaN widens to (40_host_commands.md
R56: a RESET with a NaN balance latches it in `CFG_BAL`, and leaves SMDEC unconfigured). -/
opaque Config.nanWidened : F32 → F64

/-- FREE VALUE (log entry 6): `round(x)` of a NaN or an infinity. 00_scope.md R8 states `round` for finite values only;
no run reaches the case. -/
opaque Config.roundNonFinite : F64 → Int

end Sys2Proof
end

