-- ==== Sys2Proof/Machine/Float.lean ====
section
/-! DEFINITION. Machine/Float.lean: IEEE 754 binary64 as 00_scope.md R6 asks: each operation computed EXACTLY on integers
and rounded once, to nearest, ties to even. A finite binary64 value is an integer multiple of `2^-1074`, so `fval x` is
the exact value of `x` in that unit. The details R6 takes from IEEE 754 without repeating them (signs of zeros, results on
infinities) are in log entry 15; the NaNs are in log entry 5. -/

namespace Sys2Proof.Machine

/-! ## Fields and classes -/

/-- The sign bit (20_memory.md R27: bit 63). -/
def fsign (x : F64) : Bool := x.getLsbD 63

/-- The biased exponent (20_memory.md R27: bits 62..52). -/
def fexp (x : F64) : Nat := (x.extractLsb 62 52).toNat

/-- The fraction (20_memory.md R27: bits 51..0). -/
def ffrac (x : F64) : Nat := (x.extractLsb 51 0).toNat

/-- `isNaN(x)` (00_scope.md R7). -/
def fIsNaN (x : F64) : Bool := fexp x == 2047 && ffrac x != 0

/-- `x` is an infinity. -/
def fIsInf (x : F64) : Bool := fexp x == 2047 && ffrac x == 0

/-- `isFinite(x)`: "false for NaN and ±∞" (00_scope.md R7). -/
def fIsFinite (x : F64) : Bool := fexp x != 2047

/-- The magnitude of `x` in units of `2^-1074`. For an infinity it is `2^2098`, above every finite magnitude. -/
def fmag (x : F64) : Nat :=
  if fexp x = 0 then ffrac x else (2 ^ 52 + ffrac x) * 2 ^ (fexp x - 1)

/-- The value of `x` in units of `2^-1074`; both zeros are 0. -/
def fval (x : F64) : Int := if fsign x then -(fmag x : Int) else fmag x

/-! ## Rounding -/

/-- `1.0` in units of `2^-1074`. -/
abbrev unitsPerOne : Nat := 2 ^ 1074

/-- `num / den` rounded to the nearest integer, ties to even. -/
def roundEven (num den : Nat) : Nat :=
  let q := num / den
  let r := num % den
  if den < 2 * r ∨ (2 * r = den ∧ q % 2 = 1) then q + 1 else q

/-- The low bits (exponent and fraction) of `num / den`, given in units of the format's least subnormal, rounded to
nearest even in a format with `fracBits` fraction bits whose infinity is encoded `infBits` (00_scope.md R6). A carry out
of the fraction moves into the exponent by itself. -/
def roundFormat (fracBits infBits num den : Nat) : Nat :=
  let k := Nat.log2 (num / den) - fracBits
  min (roundEven num (den * 2 ^ k) + k * 2 ^ fracBits) infBits

/-- The low 63 bits of binary64 +∞. -/
abbrev infBits64 : Nat := 2047 * 2 ^ 52

/-- `num / den` units of `2^-1074`, rounded to binary64: the low 63 bits. -/
def roundMag (num den : Nat) : Nat := roundFormat 52 infBits64 num den

/-- A binary64 encoding from its sign and its low 63 bits. -/
def fpack (neg : Bool) (low : Nat) : F64 := BitVec.ofNat 64 (low + if neg then 2 ^ 63 else 0)

/-- The binary64 zero of a sign. -/
def fzero (neg : Bool) : F64 := fpack neg 0

/-- The binary64 infinity of a sign. -/
def finf (neg : Bool) : F64 := fpack neg infBits64

/-- The quiet NaN with the sign and payload of `bits`: the exponent and the quiet bit set (log entry 5). -/
def fquiet (bits : F64) : F64 := bits ||| 0x7FF8000000000000#64

/-- The NaN an operation on `x` and `y` delivers: a quiet NaN whose sign and payload are a FREE VALUE (log entry 5). -/
def fnan (x y : F64) : F64 := fquiet (Config.nanResult x y)

/-- The binary64 value nearest to `n / d`: the decimal constants of 00_scope.md R3 are these (log entry 7), and an exact
integer `n` is `n / 1`. -/
def fofRatio (n d : Nat) : F64 := fpack false (roundMag (n * unitsPerOne) d)

/-! ## Arithmetic -/

/-- `x` with its sign bit flipped. -/
def fneg (x : F64) : F64 := x ^^^ 0x8000000000000000#64

/-- `abs(x)`, exact: `x` with its sign bit cleared (42_edge_detector.md R66). -/
def fabs (x : F64) : F64 := x &&& 0x7FFFFFFFFFFFFFFF#64

/-- `fl(x + y)` (00_scope.md R6). An exact zero sum is +0.0, but for two negative zeros (log entry 15). -/
def fadd (x y : F64) : F64 :=
  if fIsNaN x || fIsNaN y then fnan x y
  else if fIsInf x then (if fIsInf y && fsign x != fsign y then fnan x y else x)
  else if fIsInf y then y
  else
    let v := fval x + fval y
    if v = 0 then fzero (fsign x && fsign y) else fpack (decide (v < 0)) (roundMag v.natAbs 1)

/-- `fl(x - y)` (00_scope.md R6). -/
def fsub (x y : F64) : F64 := fadd x (fneg y)

/-- `fl(x * y)` (00_scope.md R6). -/
def fmul (x y : F64) : F64 :=
  let neg := fsign x != fsign y
  if fIsNaN x || fIsNaN y then fnan x y
  else if fIsInf x || fIsInf y then (if fmag x = 0 ∨ fmag y = 0 then fnan x y else finf neg)
  else fpack neg (roundMag (fmag x * fmag y) unitsPerOne)

/-- `fl(x / y)` (00_scope.md R6). -/
def fdiv (x y : F64) : F64 :=
  let neg := fsign x != fsign y
  if fIsNaN x || fIsNaN y then fnan x y
  else if fIsInf x then (if fIsInf y then fnan x y else finf neg)
  else if fIsInf y then fzero neg
  else if fmag y = 0 then (if fmag x = 0 then fnan x y else finf neg)
  else fpack neg (roundMag (fmag x * unitsPerOne) (fmag y))

/-- Newton's descent to the integer square root of `n` from a guess that is not below it. -/
def isqrtFrom (n : Nat) : Nat → Nat → Nat
  | 0, guess => guess
  | fuel + 1, guess =>
    let better := (guess + n / guess) / 2
    if better < guess then isqrtFrom n fuel better else guess

/-- The integer square root of `n`, rounded down. The fuel is the first guess, which every step of the descent lowers. -/
def isqrt (n : Nat) : Nat :=
  let guess := 2 ^ (Nat.log2 n / 2 + 1)
  isqrtFrom n guess guess

/-- The low bits of `fl(sqrt(m))` for a magnitude `m` in units: the root of `m * 2^1074` in units, its last half unit
telling an inexact root from an exact one, so that one rounding suffices (00_scope.md R6 "correctly rounded"). -/
def sqrtMag (m : Nat) : Nat :=
  let n := m * unitsPerOne
  let r := isqrt n
  roundMag (2 * r + if r * r = n then 0 else 1) 2

/-- `fl(sqrt(x))`, correctly rounded (00_scope.md R6). -/
def fsqrt (x : F64) : F64 :=
  if fIsNaN x then fnan x x
  else if fmag x = 0 then x
  else if fsign x then fnan x x
  else if fIsInf x then x
  else fpack false (sqrtMag (fmag x))

/-! ## Comparison and rounding to integers -/

/-- `x < y`: the IEEE comparison, "false when an operand is NaN" (00_scope.md R6). `x > y` is `flt y x`. -/
def flt (x y : F64) : Bool := !fIsNaN x && !fIsNaN y && decide (fval x < fval y)

/-- `maxNum(a, b)`: "the larger of `a` and `b`; if exactly one is NaN, the other" (00_scope.md R7, R9). -/
def fmaxNum (a b : F64) : F64 :=
  if fIsNaN b then a else if fIsNaN a then b else if flt a b then b else a

/-- `min(a, b)`: "the smaller of `a` and `b` for non-NaN operands" (00_scope.md R7). -/
def fmin (a b : F64) : F64 := if flt b a then b else a

/-- `ceil(x)` of a non-negative finite `x`: the exact integer ceiling (00_scope.md R7). Only `K_DLEN` uses it, on a
finite positive quotient. -/
def fceil (x : F64) : Nat := (fmag x + (unitsPerOne - 1)) / unitsPerOne

/-- `round(x)`: "the integer nearest `x`, ties toward +∞, computed exactly on the binary64 value `x`" (00_scope.md R7,
R8): `floor(x + 1/2)`. Of a NaN or an infinity the spec states none: a FREE VALUE (log entry 6). -/
def fround (x : F64) : Int :=
  if fIsFinite x then (2 * fval x + unitsPerOne) / (2 * unitsPerOne) else Config.roundNonFinite x

/-! ## binary32 operands -/

/-- `isFinite(f32(b))`, read from the pattern: the exponent, bits 30..23, is not all ones (20_memory.md R27). -/
def f32IsFinite (b : F32) : Bool := b.extractLsb 30 23 != 255

/-- `f32(b)` is a NaN: exponent all ones and a fraction other than 0 (20_memory.md R27). -/
def f32IsNaN (b : F32) : Bool := b.extractLsb 30 23 == 255 && b.extractLsb 22 0 != 0

/-- The magnitude of a finite `f32(b)` in units of `2^-149`, binary32's least subnormal. -/
def f32Mag (b : F32) : Nat :=
  let e := (b.extractLsb 30 23).toNat
  let f := (b.extractLsb 22 0).toNat
  if e = 0 then f else (2 ^ 23 + f) * 2 ^ (e - 1)

/-- `f32(b)` widened exactly to binary64 (00_scope.md R6, R7). A NaN widens to a quiet NaN whose sign and payload are a
FREE VALUE (log entry 5). -/
def fwiden (b : F32) : F64 :=
  if f32IsNaN b then fquiet (Config.nanWidened b)
  else if f32IsFinite b then fpack (b.getLsbD 31) (roundMag (f32Mag b * 2 ^ 925) 1)
  else finf (b.getLsbD 31)

/-- The binary32 encoding nearest to `num / den`, ties to even, of a sign (30_encoding.md R51: "rounded to binary32 (to
nearest, ties to even)"). -/
def f32OfRatio (neg : Bool) (num den : Nat) : F32 :=
  BitVec.ofNat 32 (roundFormat 23 (255 * 2 ^ 23) (num * 2 ^ 149) den + if neg then 2 ^ 31 else 0)

end Sys2Proof.Machine
end

