-- ==== Sys2Proof/Machine/Constants.lean ====
section
/-! DEFINITION. Machine/Constants.lean: the fixed constants of 00_scope.md R3, under the spec's names. A decimal constant
is the binary64 value nearest to it (log entry 7). 93 section 2 flags the thresholds as hardware-calibration constants. -/

namespace Sys2Proof.Machine

/-! ## Rates and the derived constants' factors -/

/-- `REF_RATE_STD`. -/
def refRateStd : Nat := 1200
/-- `REF_RATE_FAST`. -/
def refRateFast : Nat := 8000
/-- `AGC_BASE`, 0.001: numerator of `ALPHA`. -/
def agcBase : F64 := fofRatio 1 1000
/-- `EDGE_MIN_FACTOR`, 0.6: minimum run in chip widths. -/
def edgeMinFactor : F64 := fofRatio 6 10
/-- `OVF_FACTOR`, 2: no-edge overflow in chip widths. -/
def ovfFactor : F64 := fofRatio 2 1
/-- `DELAY_DIV`, 6: the delay line's length is `ceil(F / 6)`. -/
def delayDiv : F64 := fofRatio 6 1
/-- The least legal `CFG_RATE` (10_state.md R14). -/
def rateMin : Nat := 8000
/-- The greatest legal `CFG_RATE` (10_state.md R14). -/
def rateMax : Nat := 16777215

/-! ## AGC and edge detector -/

/-- +1.0. -/
def fone : F64 := fofRatio 1 1
/-- +0.0. -/
def fzeroPos : F64 := fzero false
/-- `EPS`, 1e-4: floor of the AGC power estimate. -/
def eps : F64 := fofRatio 1 10000
/-- `EDGE_THRESHOLD`, 0.7. -/
def edgeThreshold : F64 := fofRatio 7 10
/-- `SCHMITT_THRESHOLD`, 0.2. -/
def schmittThreshold : F64 := fofRatio 2 10
/-- `DIST_TRACK_RUN`: distortion tracked while `RUN < 10`. -/
def distTrackRun : Nat := 10
/-- `DIST_PIN_RUN`: distortion pinned to 1 while `RUN > 100`. -/
def distPinRun : Nat := 100

/-! ## Framers and frame decoder -/

/-- `CNT_MAX`: saturation value of `RUN` and `NSL`. -/
def cntMax : BitVec 32 := 0xFFFFFFFF#32
/-- `STD_IDLE_RUN`: standard idle is `RUN > 10`. -/
def stdIdleRun : Nat := 10
/-- `STD_OFF_RUN`: standard off is `RUN > 100`. -/
def stdOffRun : Nat := 100
/-- `STD_KA_NSL`: standard keep-alive is `NSL > 700`. -/
def stdKaNsl : Nat := 700
/-- `STD_KA_CLAMP`. -/
def stdKaClamp : BitVec 32 := 100
/-- `STD_FRAME_CHIPS`: chips per byte frame. -/
def stdFrameChips : Nat := 10
/-- `FAST_IDLE_RUN`: fast idle is `RUN > 100` (92 D25). -/
def fastIdleRun : Nat := 100
/-- `FAST_OFF_RUN`: fast off is `RUN > 1000`. -/
def fastOffRun : Nat := 1000
/-- `FAST_KA_NSL`: fast keep-alive is `NSL > 4000`. -/
def fastKaNsl : Nat := 4000
/-- `FAST_KA_CLAMP`. -/
def fastKaClamp : BitVec 32 := 1000
/-- `FAST_FRAME_CHIPS`: data chips per fast frame. -/
def fastFrameChips : Nat := 24
/-- `CHECKSUM_BASE`. -/
def checksumBase : Nat := 64
/-- `BYTE_BUF_CAP`: stored bytes of the frame buffer. -/
def byteBufCap : Nat := 10

/-! ## Header characters and digits (30_encoding.md R47, R48; the ASCII codes, 93 G3) -/

/-- `' '`, running plain. -/
def chSpace : Byte := 0x20
/-- `'S'`, stopped. -/
def chS : Byte := 0x53
/-- `'I'`, idle or inspection. -/
def chI : Byte := 0x49
/-- `'L'`, left hand down. -/
def chL : Byte := 0x4C
/-- `'R'`, right hand down. -/
def chR : Byte := 0x52
/-- `'C'`, both hands. -/
def chC : Byte := 0x43
/-- `'A'`, green light. -/
def chA : Byte := 0x41
/-- `'0'`. -/
def ch0 : Byte := 0x30
/-- `'9'`. -/
def ch9 : Byte := 0x39

end Sys2Proof.Machine
end

