-- ==== Sys2Proof/Machine/State.lean ====
section
/-! DEFINITION. Machine/State.lean: every register the spec gives SMDEC, in the groups of 10_state.md section 8, two
fields of the model's own, and the power-on state of 70_reset_and_hazards.md R128. -/

namespace Sys2Proof.Machine

/-- A snapshot, the source's `StackmatState`: the fields of the held state `ST` and of every event (10_state.md R22). -/
structure Snapshot where
  /-- `ST.time`: elapsed time in milliseconds. -/
  time : BitVec 32
  /-- `ST.unit`: time resolution divisor, 1 or 10. -/
  unit : BitVec 4
  /-- `ST.on`: a valid, non-idle signal is present. -/
  on : Bool
  /-- `ST.green`: the header is `'A'`. -/
  green : Bool
  /-- `ST.left`: the header is one of L, A, C. -/
  left : Bool
  /-- `ST.right`: the header is one of R, A, C. -/
  right : Bool
  /-- `ST.running`: the timer is counting. -/
  running : Bool
  /-- `ST.unknown`: the previous snapshot had `on = 0`. -/
  unknown : Bool
  /-- `ST.header`: the header character's code. -/
  header : Byte
  /-- `ST.noise`: normalised distortion. -/
  noise : F64
  /-- `ST.power`: AGC power estimate. -/
  power : F64
deriving DecidableEq, Repr

/-- The configuration registers (10_state.md R13). -/
structure ConfigRegs where
  /-- `CONFIGURED`: a legal configuration is latched. -/
  configured : Bool
  /-- `CFG_VARIANT`. -/
  variant : Variant
  /-- `CFG_RATE`: native sample rate in Hz. -/
  rate : BitVec 24
  /-- `CFG_BAL`: balance multiplier. -/
  bal : F64
deriving DecidableEq, Repr

/-- The derived constants (10_state.md R15, 00_scope.md R5). -/
structure DerivedRegs where
  /-- `K_REF`: reference rate, 1200 or 8000. -/
  ref : BitVec 14
  /-- `K_F`: samples per chip, the source's sampleRateFactor. -/
  f : F64
  /-- `K_ALPHA`: smoothing constant. -/
  alpha : F64
  /-- `K_DLEN`: delay line length. -/
  dlen : BitVec 12
  /-- `K_EDGE_MIN`: minimum run before an edge. -/
  edgeMin : F64
  /-- `K_OVF_MIN`: run that overflows. -/
  ovfMin : F64
deriving DecidableEq, Repr

/-- `DELAY_CAP`, the delay line's storage (00_scope.md R3, 92 D14). -/
abbrev delayCap : Nat := 4096

/-- The EdgeDetector registers (10_state.md R17, R18). -/
structure EdgeRegs where
  /-- `DL[0..4095]`: the delay line. -/
  dl : Vector F64 delayCap
  /-- `DL_PTR`: the delay line's cursor. -/
  dlPtr : BitVec 12
  /-- `LAST_SGN`: current detected polarity. -/
  lastSgn : Bool
  /-- `LVK`: samples since the last confirmed edge, less overflow decrements. -/
  lvk : F64
  /-- `DIST`: smoothed squared deviation from the ideal level. -/
  dist : F64
deriving DecidableEq, Repr

/-- The framer registers both variants use (10_state.md R19). -/
structure FramerRegs where
  /-- `LAST_BIT`: value of the latest chip. -/
  lastBit : Chip
  /-- `RUN`: length of the run of identical chips, saturating. -/
  run : BitVec 32
  /-- `NSL`: chips since the last validated frame, with the keep-alive clamp, saturating. -/
  nsl : BitVec 32
  /-- `IDLE_VAL`: level observed during idle. -/
  idleVal : Chip
deriving DecidableEq, Repr

/-- The standard framer's registers (10_state.md R20). -/
structure StdRegs where
  /-- `CHIP_ACC[0..9]`: the chip accumulator, the oldest chip first. -/
  chipAcc : Vector Chip 10
  /-- `CHIP_CNT`: valid entries of `CHIP_ACC`. -/
  chipCnt : BitVec 4
  /-- `BYTE_BUF[0..9]`: the first ten bytes since the last idle. -/
  byteBuf : Vector Byte 10
  /-- `BYTE_CNT`: bytes since the last idle, saturating at 11. -/
  byteCnt : BitVec 4
deriving DecidableEq, Repr

/-- The fast framer's registers (10_state.md R21). -/
structure FastRegs where
  /-- `FAST_ARMED`: waiting for a start chip. -/
  armed : Bool
  /-- `FAST_INFRAME`: collecting the 24 data chips. -/
  inframe : Bool
  /-- `FAST_CNT`: data chips collected. -/
  cnt : BitVec 5
  /-- `FAST_CHIPS[0..23]`: data chips in arrival order. -/
  chips : Vector Chip 24
deriving DecidableEq, Repr

/-- The whole state. `cmdIn` and `freeCtr` are the MODEL's own (log entries 1 and 4); every other field is a register of
10_state.md. -/
structure State where
  /-- CONFIGURED, CFG_VARIANT, CFG_RATE, CFG_BAL. -/
  cfg : ConfigRegs
  /-- K_REF, K_F, K_ALPHA, K_DLEN, K_EDGE_MIN, K_OVF_MIN. -/
  k : DerivedRegs
  /-- `AGC_P`: running power estimate (10_state.md R16). -/
  agcP : F64
  /-- DL, DL_PTR, LAST_SGN, LVK, DIST. -/
  edge : EdgeRegs
  /-- LAST_BIT, RUN, NSL, IDLE_VAL. -/
  fr : FramerRegs
  /-- CHIP_ACC, CHIP_CNT, BYTE_BUF, BYTE_CNT. -/
  std : StdRegs
  /-- FAST_ARMED, FAST_INFRAME, FAST_CNT, FAST_CHIPS. -/
  fast : FastRegs
  /-- `ST`: the held state (10_state.md R22). -/
  st : Snapshot
  /-- `EVQ`: every snapshot emitted since power-on, the oldest first (10_state.md R24). -/
  evq : List Snapshot
  /-- The MODEL's own (log entry 1): the command words the host has issued and SMDEC has not yet taken, the next one
  first. SMDEC holds no such sequence (10_state.md R11); it stands for the host. -/
  cmdIn : List Command
  /-- The MODEL's own (log entry 4): how many times the unspecified `K_*` have been drawn from their free values. -/
  freeCtr : Nat
deriving DecidableEq, Repr

/-- Why the machine would stop with a fault: never. "SMDEC raises no exception, trap, fault or abort ... No command and
no input can stop it" (60_exceptions.md R115), so the type has no constructor. -/
inductive Fault where
deriving DecidableEq, Repr

/-- Why the machine would refuse a command. -/
inductive Refusal where
  /-- Raised by an arm of exec whose instruction has no meaning yet; no arm raises it, every command has its meaning.
  Safe: it stops where the hardware goes on. -/
  | notModelled (mnemonic : String)
deriving DecidableEq, Repr

/-- +1.0 in binary64. -/
abbrev oneBits : F64 := 0x3FF0000000000000#64

/-- The reset snapshot of a variant (10_state.md R22): `unit` is 10 in STD and 1 in FAST; the header is `'I'`. -/
def resetSnapshot (v : Variant) : Snapshot where
  time := 0
  unit := match v with
    | .std => 10
    | .fast => 1
  on := false
  green := false
  left := false
  right := false
  running := false
  unknown := false
  header := 0x49
  noise := 0
  power := oneBits

/-- The EdgeDetector registers at reset (10_state.md R17, R18). -/
def resetEdge : EdgeRegs where
  dl := Vector.replicate delayCap 0
  dlPtr := 0
  lastSgn := false
  lvk := 0
  dist := 0

/-- The common framer registers at reset (10_state.md R19). -/
def resetFramer : FramerRegs where
  lastBit := false
  run := 0
  nsl := 0
  idleVal := false

/-- The standard framer's registers at reset (10_state.md R20). -/
def resetStd : StdRegs where
  chipAcc := Vector.replicate 10 false
  chipCnt := 0
  byteBuf := Vector.replicate 10 0
  byteCnt := 0

/-- The fast framer's registers at reset (10_state.md R21). -/
def resetFast : FastRegs where
  armed := false
  inframe := false
  cnt := 0
  chips := Vector.replicate 24 false

/-- SMDEC at power-on (70_reset_and_hazards.md R128): unconfigured, every register at its reset value, `EVQ` empty. The
`K_*` are unspecified there; zero is the model's choice (DESIGN CHOICE, log entry 3), as are the empty `cmdIn` (log entry
1) and `freeCtr = 0` (log entry 4). -/
def State.reset : State where
  cfg := { configured := false, variant := .std, rate := 0, bal := oneBits }
  k := { ref := 0, f := 0, alpha := 0, dlen := 0, edgeMin := 0, ovfMin := 0 }
  agcP := oneBits
  edge := resetEdge
  fr := resetFramer
  std := resetStd
  fast := resetFast
  st := resetSnapshot .std
  evq := []
  cmdIn := []
  freeCtr := 0

end Sys2Proof.Machine
end

