-- ==== Sys2Proof/Machine/Ops.lean ====
section
/-! DEFINITION. Machine/Ops.lean: the named operations on the registers that several stages share: emission and the event
record, the saturating counters, and taking a command from the host. SMDEC has no exception to take and none to return from
(60_exceptions.md R115), and no addressable memory (20_memory.md R25), so no operation for either stands here. -/

namespace Sys2Proof.Machine

/-! ## Writing one group of registers -/

/-- The common framer registers are `f`. -/
def setFr (f : FramerRegs) (s : State) : State := { s with fr := f }

/-- The standard framer's registers are `r`. -/
def setStd (r : StdRegs) (s : State) : State := { s with std := r }

/-- The fast framer's registers are `r`. -/
def setFast (r : FastRegs) (s : State) : State := { s with fast := r }

/-- The EdgeDetector's registers are `e`. -/
def setEdge (e : EdgeRegs) (s : State) : State := { s with edge := e }

/-! ## Emission (46_state_derivation.md R112) -/

/-- `emit(S)`: "writes `ST <- S` and appends a copy of `S` to `EVQ`, in one step" (46_state_derivation.md R112). -/
def emit (snap : Snapshot) (s : State) : State := { s with st := snap, evq := s.evq ++ [snap] }

/-- The 192-bit event record of a snapshot (30_encoding.md R44); the reserved bits 47:42 and 63:56 are 0. -/
def eventRecord (snap : Snapshot) : BitVec 192 :=
  snap.power ++ snap.noise ++ (0 : BitVec 8) ++ snap.header ++ (0 : BitVec 6) ++ BitVec.ofBool snap.unknown ++
    BitVec.ofBool snap.running ++ BitVec.ofBool snap.right ++ BitVec.ofBool snap.left ++ BitVec.ofBool snap.green ++
    BitVec.ofBool snap.on ++ snap.unit ++ snap.time

/-- The output port's transfers: the records of `EVQ`, in order (10_state.md R24). -/
def eventRecords (s : State) : List (BitVec 192) := s.evq.map eventRecord

/-! ## Counters -/

/-- `sat(x + 1)`: one more, saturating at `CNT_MAX` (43_framer_standard.md R75, 92 D20). -/
def satInc (x : BitVec 32) : BitVec 32 := if x = cntMax then cntMax else x + 1

/-! ## Taking a command from the host -/

/-- The next command word the host has issued, and the state in which it has been taken. SMDEC "takes commands in the order
the host issues them" (20_memory.md R34); the sequence stands for the host (log entry 1). -/
def takeCommand (s : State) : Option (Command × State) :=
  match s.cmdIn with
  | [] => none
  | w :: rest => some (w, { s with cmdIn := rest })

/-- The host issues the command word `w` as the next one SMDEC takes (log entry 1). -/
def issueCommand (w : Command) (s : State) : State := { s with cmdIn := w :: s.cmdIn }

end Sys2Proof.Machine
end

