-- ==== Sys2Proof/Machine/Operands.lean ====
section
/-! DEFINITION. Machine/Operands.lean: the operand forms of the commands: a binary32 sample, the differential sample, and
the configuration of a RESET with the constants derived from it. -/

namespace Sys2Proof.Machine

/-! ## SAMPLE -/

/-- One channel's sample: "widened from binary32 to binary64 exactly. A channel value that is NaN or ±∞ is then replaced
by +0.0" (41_agc.md R57). Widening keeps the class of a value, so it is tested on the pattern (log entry 14). -/
def channelValue (b : F32) : F64 := if f32IsFinite b then fwiden b else fzeroPos

/-- The differential sample `s = fl(x1 − fl(CFG_BAL × x0))` (41_agc.md R58). -/
def agcDiff (bal x0 x1 : F64) : F64 := fsub x1 (fmul bal x0)

/-- `agc_input(CH0, CH1)` (41_agc.md R57, R58). -/
def agcInput (bal : F64) (c0 c1 : F32) : F64 := agcDiff bal (channelValue c0) (channelValue c1)

/-! ## RESET -/

/-- Legality of a configuration: `8000 <= CFG_RATE <= 16777215` and a finite balance (10_state.md R14). -/
def legalConfig (rate : BitVec 24) (bal : F32) : Bool :=
  decide (rateMin ≤ rate.toNat) && decide (rate.toNat ≤ rateMax) && f32IsFinite bal

/-- `K_REF` of a variant (00_scope.md R5). -/
def refRate : Variant → Nat
  | .std => refRateStd
  | .fast => refRateFast

/-- The configuration registers a RESET latches (40_host_commands.md R56). -/
def latchedConfig (v : Variant) (rate : BitVec 24) (bal : F32) : ConfigRegs where
  configured := legalConfig rate bal
  variant := v
  rate := rate
  bal := fwiden bal

/-- `K_F = fl(CFG_RATE / K_REF)` (00_scope.md R5). -/
def sampleRateFactor (v : Variant) (rate : BitVec 24) : F64 := fdiv (fofRatio rate.toNat 1) (fofRatio (refRate v) 1)

/-- The derived constants of a legal configuration, in the order of 00_scope.md R5. -/
def derivedConstants (v : Variant) (rate : BitVec 24) : DerivedRegs :=
  let f := sampleRateFactor v rate
  { ref := BitVec.ofNat 14 (refRate v)
    f := f
    alpha := fdiv agcBase f
    dlen := BitVec.ofNat 12 (fceil (fdiv f delayDiv))
    edgeMin := fmul f edgeMinFactor
    ovfMin := fmul f ovfFactor }

/-- The derived constants after a RESET with an illegal configuration: unspecified (10_state.md R15; 93 I4 "any value"),
hence FREE VALUES, drawn anew at every draw `n` (log entry 4). -/
def unspecifiedConstants (n : Nat) : DerivedRegs where
  ref := Config.freeKRef n
  f := Config.freeKF n
  alpha := Config.freeKAlpha n
  dlen := Config.freeKDlen n
  edgeMin := Config.freeKEdgeMin n
  ovfMin := Config.freeKOvfMin n

end Sys2Proof.Machine
end

