-- ==== Sys2Proof/Machine/Agc.lean ====
section
/-! DEFINITION. Machine/Agc.lean: the SignalConditioner, stage 1 (41_agc.md R59 to R61). -/

namespace Sys2Proof.Machine

/-- The power estimate after a sample: `maxNum(EPS, fl(P + fl(fl(fl(s × s) − P) × K_ALPHA)))` (41_agc.md R59). -/
def agcPower (alpha p x : F64) : F64 := fmaxNum eps (fadd p (fmul (fsub (fmul x x) p) alpha))

/-- `agc_update(s)` (41_agc.md R59). -/
def agcUpdate (x : F64) (s : State) : State := { s with agcP := agcPower s.k.alpha s.agcP x }

/-- The gain `fl(1.0 / fl(sqrt(AGC_P)))` (41_agc.md R60). -/
def agcGain (p : F64) : F64 := fdiv fone (fsqrt p)

/-- The conditioned sample `c = fl(s × g)` (41_agc.md R61). -/
def agcCondition (p x : F64) : F64 := fmul x (agcGain p)

end Sys2Proof.Machine
end

