-- ==== Sys2Proof/Machine/Flags.lean ====
section
/-! DEFINITION. Machine/Flags.lean: the computed fields of a snapshot, one definition per field (46_state_derivation.md
R103 to R107). SMDEC has no status register; these are its flags. -/

namespace Sys2Proof.Machine

/-- `inc`: "`t > prev.time` when `u == prev.unit`. Otherwise it is `floor(t / 10) > floor(prev.time / 10)`"
(46_state_derivation.md R103). -/
def timeIncreasing (prev : Snapshot) (t : Nat) (u : BitVec 4) : Bool :=
  if u = prev.unit then decide (prev.time.toNat < t) else decide (prev.time.toNat / 10 < t / 10)

/-- `running = (h != 'S' or prev.header == 'S') and (h == ' ' or inc)` (46_state_derivation.md R104). -/
def runningFlag (prev : Snapshot) (h : Byte) (inc : Bool) : Bool :=
  (h != chS || prev.header == chS) && (h == chSpace || inc)

/-- `green = [h == 'A']` (46_state_derivation.md R105). -/
def greenFlag (h : Byte) : Bool := h == chA

/-- `left = [h in {'L','A','C'}]` (46_state_derivation.md R105). -/
def leftFlag (h : Byte) : Bool := h == chL || h == chA || h == chC

/-- `right = [h in {'R','A','C'}]` (46_state_derivation.md R105). -/
def rightFlag (h : Byte) : Bool := h == chR || h == chA || h == chC

/-- `unknown = 1 − prev.on` (46_state_derivation.md R106). -/
def unknownFlag (prev : Snapshot) : Bool := !prev.on

/-- `sd_noise()`: "`0.0` if `DIST` is NaN, and `min(1.0, DIST)` otherwise" (46_state_derivation.md R107). -/
def sdNoise (dist : F64) : F64 := if fIsNaN dist then fzeroPos else fmin fone dist

end Sys2Proof.Machine
end

