-- ==== Sys2Proof/Machine/Derive.lean ====
section
/-! DEFINITION. Machine/Derive.lean: state derivation and emission, stage 5 (46_state_derivation.md R101 to R112). -/

namespace Sys2Proof.Machine

/-- The snapshot of a validated triple `(h, t, u)` over the held state (46_state_derivation.md R101, R102). -/
def frameSnapshot (h : Byte) (t : Nat) (u : BitVec 4) (s : State) : Snapshot :=
  let prev := s.st
  { time := BitVec.ofNat 32 t
    unit := u
    on := true
    green := greenFlag h
    left := leftFlag h
    right := rightFlag h
    running := runningFlag prev h (timeIncreasing prev t u)
    unknown := unknownFlag prev
    header := h
    noise := sdNoise s.edge.dist
    power := s.agcP }

/-- `sd_derive(h, t, u)`: clears `NSL` and emits the frame snapshot (46_state_derivation.md R101, R109). -/
def sdDerive (h : Byte) (t : Nat) (u : BitVec 4) (s : State) : State :=
  emit (frameSnapshot h t u s) (setFr { s.fr with nsl := 0 } s)

/-- The held state with refreshed noise and power (46_state_derivation.md R111). -/
def keepaliveSnapshot (s : State) : Snapshot := { s.st with noise := sdNoise s.edge.dist, power := s.agcP }

/-- The held state with `on = 0` and refreshed noise and power (46_state_derivation.md R110). -/
def offSnapshot (s : State) : Snapshot := { s.st with on := false, noise := sdNoise s.edge.dist, power := s.agcP }

/-- `sd_off()` (46_state_derivation.md R110). -/
def sdOff (s : State) : State := emit (offSnapshot s) s

/-- `sd_keepalive()` (46_state_derivation.md R111). -/
def sdKeepalive (s : State) : State := emit (keepaliveSnapshot s) s

end Sys2Proof.Machine
end

