-- ==== Sys2Proof/Machine/FrameDecoder.lean ====
section
/-! DEFINITION. Machine/FrameDecoder.lean: the checksum and ASCII decimal parser, stage 4 of the STD variant
(45_frame_decoder.md R92 to R99). -/

namespace Sys2Proof.Machine

/-- `BYTE_BUF[i]`. The decoder reads positions below 10 only (20_memory.md R29). -/
def bufByte (buf : Vector Byte 10) (i : Nat) : Byte := buf.getD i 0

/-- The payload bytes of an `n`-byte message: positions `1..n−4` (45_frame_decoder.md R94). -/
def payload (n : Nat) (buf : Vector Byte 10) : List Byte := (List.range (n - 4)).map fun i => bufByte buf (i + 1)

/-- The header check (45_frame_decoder.md R93). -/
def fdHeader (buf : Vector Byte 10) : Bool := [chSpace, chS, chI, chL, chR, chC, chA].contains (bufByte buf 0)

/-- An ASCII digit, 0x30..0x39 (45_frame_decoder.md R94). -/
def isDigit (b : Byte) : Bool := decide (ch0.toNat ≤ b.toNat) && decide (b.toNat ≤ ch9.toNat)

/-- The digit check: every payload byte is an ASCII digit (45_frame_decoder.md R94). -/
def fdDigits (n : Nat) (buf : Vector Byte 10) : Bool := (payload n buf).all isDigit

/-- The value of an ASCII digit, `d_i = BYTE_BUF[i] − 0x30` (45_frame_decoder.md R94). -/
def digitVal (b : Byte) : Nat := b.toNat - ch0.toNat

/-- `64 + Σ d_i` over the payload (45_frame_decoder.md R95). -/
def fdSum (n : Nat) (buf : Vector Byte 10) : Nat := checksumBase + ((payload n buf).map digitVal).sum

/-- The checksum check: `64 + Σ d_i == BYTE_BUF[n−3]`, between exact integers (45_frame_decoder.md R95). -/
def fdChecksum (n : Nat) (buf : Vector Byte 10) : Bool := fdSum n buf == (bufByte buf (n - 3)).toNat

/-- The digit `d_i` (45_frame_decoder.md R94). -/
def digitAt (buf : Vector Byte 10) (i : Nat) : Nat := digitVal (bufByte buf i)

/-- The time in milliseconds (45_frame_decoder.md R96). -/
def fdTime (n : Nat) (buf : Vector Byte 10) : Nat :=
  let d := digitAt buf
  if n = 10 then d 1 * 60000 + (10 * d 2 + d 3) * 1000 + (100 * d 4 + 10 * d 5 + d 6)
  else d 1 * 60000 + (10 * d 2 + d 3) * 1000 + (10 * d 4 + d 5) * 10

/-- The unit: 10 for nine bytes, 1 for ten (45_frame_decoder.md R97). -/
def fdUnit (n : Nat) : BitVec 4 := if n = 9 then 10 else 1

/-- The three checks of a decode pass on `n` bytes (45_frame_decoder.md R92). -/
def fdAccepts (n : Nat) (buf : Vector Byte 10) : Bool := fdHeader buf && fdDigits n buf && fdChecksum n buf

/-- `fd_decode()`: with exactly nine or ten bytes that pass the checks, the triple goes to derivation; otherwise nothing
happens (45_frame_decoder.md R92, R98, R99). -/
def fdDecode (s : State) : State :=
  let n := s.std.byteCnt.toNat
  let buf := s.std.byteBuf
  if n ≠ 9 ∧ n ≠ 10 then s
  else if fdAccepts n buf then sdDerive (bufByte buf 0) (fdTime n buf) (fdUnit n) s
  else s

end Sys2Proof.Machine
end

