-- ==== Sys2Proof/Machine/FramerStd.lean ====
section
/-! DEFINITION. Machine/FramerStd.lean: the standard BitFramer, stage 3 of the STD variant, and the run bookkeeping both
framers share (43_framer_standard.md R74 to R82). -/

namespace Sys2Proof.Machine

/-- `fr_run(b)`: the run bookkeeping of one chip (43_framer_standard.md R75). -/
def frRun (b : Chip) (f : FramerRegs) : FramerRegs :=
  { f with
    lastBit := b
    run := if b = f.lastBit then satInc f.run else 1
    nsl := satInc f.nsl }

/-- `fr_idle(b)`: records the idle level and clears the framing counts (43_framer_standard.md R76). -/
def frIdle (b : Chip) (s : State) : State :=
  setStd { s.std with chipCnt := 0, byteCnt := 0 } (setFr { s.fr with idleVal := b } s)

/-- The frame check: start differs from the idle level, stop equals it (43_framer_standard.md R80). -/
def frFrameCheck (idle : Chip) (acc : Vector Chip 10) : Bool := acc[0] != idle && acc[9] == idle

/-- `fr_slide()`: drops the oldest chip; nine stay, and `CHIP_ACC[9]` keeps its content (43_framer_standard.md R81). -/
def frSlide (r : StdRegs) : StdRegs :=
  { r with chipAcc := Vector.ofFn fun i => if h : i.val + 1 < 10 then r.chipAcc[i.val + 1] else r.chipAcc[9], chipCnt := 9 }

/-- The byte of a full accumulator: bit `i − 1` is `[CHIP_ACC[i] == IDLE_VAL]`, `i = 1..8` (43_framer_standard.md R82,
20_memory.md R28). -/
def frByteValue (idle : Chip) (acc : Vector Chip 10) : Byte :=
  BitVec.ofNat 8 (((List.range 8).map fun i => (acc.getD (i + 1) false == idle).toNat <<< i).sum)

/-- The byte `x` is stored, if there is room, and counted, saturating at 11 (43_framer_standard.md R82). -/
def frStoreByte (x : Byte) (r : StdRegs) : StdRegs :=
  { r with
    byteBuf := if r.byteCnt.toNat < byteBufCap then r.byteBuf.setIfInBounds r.byteCnt.toNat x else r.byteBuf
    byteCnt := BitVec.ofNat 4 (min (r.byteCnt.toNat + 1) (byteBufCap + 1)) }

/-- `CHIP_CNT <- 0` (43_framer_standard.md R82). -/
def frClearAcc (s : State) : State := setStd { s.std with chipCnt := 0 } s

/-- `fr_byte()`: the byte is stored, the FrameDecoder runs, the accumulator is cleared (43_framer_standard.md R82). -/
def frByte (s : State) : State :=
  frClearAcc (fdDecode (setStd (frStoreByte (frByteValue s.fr.idleVal s.std.chipAcc) s.std) s))

/-- The chip is appended to the accumulator (43_framer_standard.md R79). -/
def frAppend (b : Chip) (r : StdRegs) : StdRegs :=
  { r with chipAcc := r.chipAcc.setIfInBounds r.chipCnt.toNat b, chipCnt := r.chipCnt + 1 }

/-- `fr_accumulate(b)`: the chip is appended, and a full accumulator is checked (43_framer_standard.md R79). -/
def frAccumulate (b : Chip) (s : State) : State :=
  let s := setStd (frAppend b s.std) s
  if s.std.chipCnt.toNat = stdFrameChips then
    if frFrameCheck s.fr.idleVal s.std.chipAcc then frByte s else setStd (frSlide s.std) s
  else s

/-- The off and keep-alive tests of an idle chip: `off` is the run that turns off, `ka` the count that keeps alive, `clamp`
its clamp (43_framer_standard.md R74, R77, R78; 44_framer_fast.md R86). -/
def idleTests (off ka : Nat) (clamp : BitVec 32) (s : State) : State :=
  if off < s.fr.run.toNat ∧ s.st.on = true then sdOff s
  else if ka < s.fr.nsl.toNat then sdKeepalive (setFr { s.fr with nsl := clamp } s)
  else s

/-- `std_chip(b)` (43_framer_standard.md R74). -/
def stdChip (b : Chip) (s : State) : State :=
  let s := setFr (frRun b s.fr) s
  if stdIdleRun < s.fr.run.toNat then idleTests stdOffRun stdKaNsl stdKaClamp (frIdle b s)
  else frAccumulate b s

end Sys2Proof.Machine
end

