-- ==== Sys2Proof/Machine/FramerFast.lean ====
section
/-! DEFINITION. Machine/FramerFast.lean: the fast BitFramer with its inline decode, stages 3 and 4 of the FAST variant
(44_framer_fast.md R85 to R89). -/

namespace Sys2Proof.Machine

/-- An idle chip records the idle level, abandons a frame in progress and arms the start detector (44_framer_fast.md
R86). -/
def ffArm (b : Chip) (s : State) : State :=
  setFast { s.fast with inframe := false, cnt := 0, armed := true } (setFr { s.fr with idleVal := b } s)

/-- `ff_idle(b)` (44_framer_fast.md R86). -/
def ffIdle (b : Chip) (s : State) : State := idleTests fastOffRun fastKaNsl fastKaClamp (ffArm b s)

/-- `ff_start()`: the start chip, which is not stored (44_framer_fast.md R87). -/
def ffStart (s : State) : State := setFast { s.fast with inframe := true, cnt := 0, armed := false } s

/-- Digit `g` of a frame: `Σ_{j=0..3} FAST_CHIPS[4g + j] << j` (44_framer_fast.md R89, 20_memory.md R30). -/
def fastDigit (chips : Vector Chip 24) (g : Nat) : Nat :=
  ((List.range 4).map fun j => (chips.getD (4 * g + j) false).toNat <<< j).sum

/-- The time of a frame: its six digits accumulated by `×10`, the first the most significant (44_framer_fast.md R89). -/
def fastTime (chips : Vector Chip 24) : Nat := (List.range 6).foldl (fun t g => t * 10 + fastDigit chips g) 0

/-- `ff_decode()`: the time goes to derivation with header `'S'` and unit 1 (44_framer_fast.md R89). -/
def ffDecode (s : State) : State := sdDerive chS (fastTime s.fast.chips) 1 s

/-- The chip is stored in arrival order (44_framer_fast.md R88). -/
def ffStore (b : Chip) (r : FastRegs) : FastRegs :=
  { r with chips := r.chips.setIfInBounds r.cnt.toNat b, cnt := r.cnt + 1 }

/-- The frame ends and the start detector is armed again (44_framer_fast.md R88). -/
def ffEnd (s : State) : State := setFast { s.fast with inframe := false, armed := true } s

/-- `ff_collect(b)` (44_framer_fast.md R88). -/
def ffCollect (b : Chip) (s : State) : State :=
  let s := setFast (ffStore b s.fast) s
  if s.fast.cnt.toNat = fastFrameChips then ffEnd (ffDecode s) else s

/-- `fast_chip(b)` (44_framer_fast.md R85). -/
def fastChip (b : Chip) (s : State) : State :=
  let s := setFr (frRun b s.fr) s
  if fastIdleRun < s.fr.run.toNat then ffIdle b s
  else if s.fast.inframe = true then ffCollect b s
  else if s.fast.armed = true ∧ b ≠ s.fr.idleVal then ffStart s
  else s

end Sys2Proof.Machine
end

