-- ==== Sys2Proof/Machine/EdgeDetector.lean ====
section
/-! DEFINITION. Machine/EdgeDetector.lean: the EdgeDetector, stage 2, and the hand-over of its chips to the configured
framer (42_edge_detector.md R64 to R71, 40_host_commands.md R55). -/

namespace Sys2Proof.Machine

/-- `chip(b)`: one chip to the framer of the configured variant, run to completion (40_host_commands.md R55). -/
def chip (b : Chip) (s : State) : State :=
  match s.cfg.variant with
  | .std => stdChip b s
  | .fast => fastChip b s

/-- `repeat n times: chip(b)` (42_edge_detector.md R67). -/
def repeatChip : Nat → Chip → State → State
  | 0, _, s => s
  | n + 1, b, s => repeatChip n b (chip b s)

/-- The ideal level of a polarity: `LAST_SGN ? +1.0 : −1.0` (42_edge_detector.md R64, R66). -/
def idealLevel (sgn : Bool) : F64 := if sgn then fone else fneg fone

/-- The sample `ed_delay` returns: `DL[DL_PTR]` (42_edge_detector.md R65). -/
def delayedSample (e : EdgeRegs) : F64 := e.dl[e.dlPtr.toNat]'e.dlPtr.isLt

/-- What `ed_delay(c)` writes: `c` into `DL[DL_PTR]`, and the cursor's advance modulo `K_DLEN` (42_edge_detector.md R65).
`K_DLEN` is at least 1 while configured (10_state.md R15). -/
def delayPush (dlen : BitVec 12) (c : F64) (e : EdgeRegs) : EdgeRegs :=
  { e with
    dl := e.dl.set e.dlPtr.toNat c e.dlPtr.isLt
    dlPtr := BitVec.ofNat 12 ((e.dlPtr.toNat + 1) % dlen.toNat) }

/-- Edge condition A: `fl(fl(d − c) × ideal) > EDGE_THRESHOLD` (42_edge_detector.md R66). -/
def edTestA (d c ideal : F64) : Bool := flt edgeThreshold (fmul (fsub d c) ideal)

/-- Edge condition B: `fl(fl(abs(fl(c − ideal))) − 1.0) > SCHMITT_THRESHOLD` (42_edge_detector.md R66). -/
def edTestB (c ideal : F64) : Bool := flt schmittThreshold (fsub (fabs (fsub c ideal)) fone)

/-- Edge condition C: `LVK > K_EDGE_MIN` (42_edge_detector.md R66). -/
def edTestC (edgeMin lvk : F64) : Bool := flt edgeMin lvk

/-- `ed_test(d, c, ideal)`: an edge is declared when all three conditions hold (42_edge_detector.md R66). -/
def edTest (d c ideal : F64) (s : State) : Bool := edTestA d c ideal && edTestB c ideal && edTestC s.k.edgeMin s.edge.lvk

/-- The number of chips an edge emits: `round(fl(LVK / K_F))` (42_edge_detector.md R67). -/
def edgeChips (s : State) : Nat := (fround (fdiv s.edge.lvk s.k.f)).toNat

/-- `LAST_SGN` flips and `LVK` is cleared (42_edge_detector.md R67). -/
def edFlip (s : State) : State := setEdge { s.edge with lastSgn := !s.edge.lastSgn, lvk := fzeroPos } s

/-- `ed_on_edge()` (42_edge_detector.md R67). -/
def edOnEdge (s : State) : State := edFlip (repeatChip (edgeChips s) s.edge.lastSgn s)

/-- One chip width is taken off `LVK` (42_edge_detector.md R68). -/
def edTakeChip (s : State) : State := setEdge { s.edge with lvk := fsub s.edge.lvk s.k.f } s

/-- `ed_overflow()` (42_edge_detector.md R68). -/
def edOverflow (s : State) : State := edTakeChip (chip s.edge.lastSgn s)

/-- `ed_tick()`: `LVK <- fl(LVK + 1.0)`, on every SAMPLE (42_edge_detector.md R69). -/
def edTick (s : State) : State := setEdge { s.edge with lvk := fadd s.edge.lvk fone } s

/-- `DIST` after a conditioned sample, for a run length and a polarity (42_edge_detector.md R71). -/
def distAfter (alpha dist c : F64) (sgn : Bool) (run : Nat) : F64 :=
  if run < distTrackRun then
    let e := fsub c (idealLevel sgn)
    fadd dist (fmul (fsub (fmul e e) dist) alpha)
  else if distPinRun < run then fone
  else dist

/-- `ed_distortion(c)`, with the polarity after a flip and the run after this sample's chips (42_edge_detector.md R71). -/
def edDistortion (c : F64) (s : State) : State :=
  setEdge { s.edge with dist := distAfter s.k.alpha s.edge.dist c s.edge.lastSgn s.fr.run.toNat } s

/-- `ed_delay(c)`'s writes (42_edge_detector.md R65). -/
def edDelay (c : F64) (s : State) : State := setEdge (delayPush s.k.dlen c s.edge) s

/-- The edge action, the overflow action, or neither; the overflow "is taken only when the edge test fails"
(42_edge_detector.md R64). `d` is the delayed sample. -/
def edAction (d c : F64) (s : State) : State :=
  if edTest d c (idealLevel s.edge.lastSgn) s then edOnEdge s
  else if flt s.k.ovfMin s.edge.lvk then edOverflow s
  else s

/-- `edge_step(c)`: one EdgeDetector step (42_edge_detector.md R64). -/
def edgeStep (c : F64) (s : State) : State :=
  edDistortion c (edTick (edAction (delayedSample s.edge) c (edDelay c s)))

end Sys2Proof.Machine
end

