-- ==== Sys2Proof/Machine/HostCommands.lean ====
section
/-! DEFINITION. Machine/HostCommands.lean: the meaning of every host command (40_host_commands.md R53 to R56,
30_encoding.md R43). No command faults and none is refused (60_exceptions.md R115). -/

namespace Sys2Proof.Machine

/-- `NOP` does nothing (40_host_commands.md R53). -/
def execNop (_operand : BitVec 64) (s : State) : Host.Outcome State Fault Refusal := .next s

/-- The stages of a SAMPLE on a configured SMDEC, in order (40_host_commands.md R54). -/
def samplePipeline (c0 c1 : F32) (s : State) : State :=
  let x := agcInput s.cfg.bal c0 c1
  let s := agcUpdate x s
  edgeStep (agcCondition s.agcP x) s

/-- `SAMPLE(CH0, CH1)`: the whole pipeline, or nothing while unconfigured (40_host_commands.md R54). -/
def execSample (c0 c1 : F32) (s : State) : Host.Outcome State Fault Refusal :=
  .next (if s.cfg.configured then samplePipeline c0 c1 s else s)

/-- Every decoder register at its reset value; the configuration, the derived constants, `EVQ` and the model's own fields
stay (40_host_commands.md R56). -/
def clearDecoder (v : Variant) (s : State) : State :=
  { s with
    agcP := oneBits
    edge := resetEdge
    fr := resetFramer
    std := resetStd
    fast := resetFast
    st := resetSnapshot v }

/-- The configuration is latched and the derived constants computed; with an illegal configuration they are unspecified:
free values, and the draw counter advances (40_host_commands.md R56, 10_state.md R15, log entry 4). -/
def latchConfig (v : Variant) (rate : BitVec 24) (bal : F32) (s : State) : State :=
  if legalConfig rate bal then { s with cfg := latchedConfig v rate bal, k := derivedConstants v rate }
  else { s with cfg := latchedConfig v rate bal, k := unspecifiedConstants s.freeCtr, freeCtr := s.freeCtr + 1 }

/-- `RESET(OPERAND)`: latches a configuration and returns every decoder register to its reset value; `EVQ` is not changed
(40_host_commands.md R56). `OPERAND[7:1]` is ignored (30_encoding.md R43). -/
def execReset (v : Variant) (_ignored : BitVec 7) (rate : BitVec 24) (bal : F32) (s : State) :
    Host.Outcome State Fault Refusal :=
  .next (clearDecoder v (latchConfig v rate bal s))

/-- The reserved selector `0b11`: "no effect on any state and emits nothing, exactly like NOP" (30_encoding.md R43). -/
def execReserved (_operand : BitVec 64) (s : State) : Host.Outcome State Fault Refusal := .next s

end Sys2Proof.Machine
end

