-- ==== Sys2Proof/Machine/Dispatch.lean ====
section
/-! DEFINITION. Machine/Dispatch.lean: one arm per host command. -/

namespace Sys2Proof.Machine

def exec (i : Instr) (s : State) : Host.Outcome State Fault Refusal :=
  match i with
  | .nop operand => Sys2Proof.Machine.execNop operand s
  | .sample c0 c1 => Sys2Proof.Machine.execSample c0 c1 s
  | .reset v ignored rate bal => Sys2Proof.Machine.execReset v ignored rate bal s
  | .reserved operand => Sys2Proof.Machine.execReserved operand s

end Sys2Proof.Machine
end

