-- ==== Sys2Proof/Machine/Step.lean ====
section
/-! DEFINITION. Machine/Step.lean: one step of SMDEC. -/

namespace Sys2Proof.Machine

/-- One step: the next command the host has issued is taken, decoded and run as "one atomic step" (20_memory.md R32). With
no command issued the state stays: "the state is kept unchanged while no command arrives" (60_exceptions.md R127; log
entry 2). -/
def step (s : State) : Host.Outcome State Fault Refusal :=
  match takeCommand s with
  | none => .next s
  | some (w, s') => exec (decode w) s'

/-- `s` with the command whose word is the low `nbits` bits of `w` issued as the next one SMDEC takes, so that the very next
step runs it. SMDEC stores no program (10_state.md R11): this stands for the host issuing the command (log entry 1). -/
def State.withFetchWord (s : State) (nbits w : Nat) : State := issueCommand (BitVec.ofNat 66 (w % 2 ^ nbits)) s

end Sys2Proof.Machine
end

