-- ==== Sys2Proof/Machine/Assembler.lean ====
section
/-! DEFINITION. Machine/Assembler.lean: the host's notation: the line protocol's chip strings and the pseudo-instructions
that send them (30_encoding.md R46, R50, R52), and the assembly syntax of the commands (R51). The machine uses none of it;
statements about whole frames do. -/

namespace Sys2Proof.Machine

/-! ## Chip strings (30_encoding.md R46, R50, R52) -/

/-- The ten chips of a byte: the start chip at the non-idle level, the data bits least significant first, a bit 1 at the
idle level, and the stop chip at the idle level (30_encoding.md R46, `UBYTE` of R52). -/
def byteChips (idle : Chip) (x : Byte) : List Chip :=
  (!idle) :: (List.range 8).map (fun i => if x.getLsbD i then idle else !idle) ++ [idle]

/-- The chips of a text, byte after byte (`SFRAME` of 30_encoding.md R52). -/
def messageChips (idle : Chip) (text : List Byte) : List Chip := text.flatMap (byteChips idle)

/-- The 24 data chips of six digits: chip `4g + j` is bit `j` of digit `g` (30_encoding.md R50). -/
def digitChips (digits : Vector (BitVec 4) 6) : List Chip :=
  digits.toList.flatMap fun d => (List.range 4).map fun j => d.getLsbD j

/-- The 25 chips of a fast frame: the start chip at the non-idle level and the data chips (`FFRAME` of 30_encoding.md
R52). -/
def fastFrameChipList (idle : Chip) (digits : Vector (BitVec 4) 6) : List Chip := (!idle) :: digitChips digits

/-! ## Pseudo-instructions (30_encoding.md R52) -/

/-- `LEVEL v, n`: `n` copies of `SAMPLE 0.0, v`. -/
def levelCmds (v : F32) (n : Nat) : List Instr := List.replicate n (.sample 0 v)

/-- The cumulative sample at which chip `k` ends: `floor(k × W + 1/2)`. -/
def chipEnd (w : Rat) (k : Nat) : Nat := (Rat.floor (k * w + 1 / 2)).toNat

/-- `CHIPS` from chip `k + 1` on. -/
def chipsFrom (w : Rat) (lo hi : F32) : Nat → List Chip → List Instr
  | _, [] => []
  | k, b :: bs => levelCmds (if b then hi else lo) (chipEnd w (k + 1) - chipEnd w k) ++ chipsFrom w lo hi (k + 1) bs

/-- `CHIPS W, lo, hi, "b1 b2 ... bm"`. -/
def chipsCmds (w : Rat) (lo hi : F32) (bs : List Chip) : List Instr := chipsFrom w lo hi 0 bs

/-- `UBYTE W, lo, hi, idle, x`. -/
def ubyteCmds (w : Rat) (lo hi : F32) (idle : Chip) (x : Byte) : List Instr := chipsCmds w lo hi (byteChips idle x)

/-- `SFRAME W, lo, hi, idle, "text"`: one `CHIPS` over the concatenated chip string. -/
def sframeCmds (w : Rat) (lo hi : F32) (idle : Chip) (text : List Byte) : List Instr :=
  chipsCmds w lo hi (messageChips idle text)

/-- `FFRAME W, lo, hi, idle, d0, ..., d5`. -/
def fframeCmds (w : Rat) (lo hi : F32) (idle : Chip) (digits : Vector (BitVec 4) 6) : List Instr :=
  chipsCmds w lo hi (fastFrameChipList idle digits)

/-- `IDLE W, lo, hi, idle, m`: `m` chips of value `idle`. -/
def idleCmds (w : Rat) (lo hi : F32) (idle : Chip) (m : Nat) : List Instr := chipsCmds w lo hi (List.replicate m idle)

/-! ## Assembly syntax (30_encoding.md R51; its lexical details are log entry 12) -/

/-- A token of an assembly line. -/
inductive Token where
  /-- A run of characters other than white space, `,` and `;`. -/
  | word (cs : List Char)
  /-- `,`. -/
  | comma
deriving DecidableEq, Repr

/-- The word collected so far, if there is one. -/
def flushWord (acc : List Char) : List Token := if acc = [] then [] else [.word acc]

/-- The tokens of a line, `acc` being the word collected so far; "`;` starts a comment" (30_encoding.md R51). -/
def lexFrom : List Char → List Char → List Token
  | acc, [] => flushWord acc
  | acc, c :: cs =>
    if c = ';' then flushWord acc
    else if c = ',' then flushWord acc ++ .comma :: lexFrom [] cs
    else if c.isWhitespace then flushWord acc ++ lexFrom [] cs
    else lexFrom (acc ++ [c]) cs

/-- The value of a decimal digit. -/
def decDigit (c : Char) : Option Nat := if '0' ≤ c ∧ c ≤ '9' then some (c.toNat - '0'.toNat) else none

/-- The value of a hexadecimal digit. -/
def hexDigit (c : Char) : Option Nat :=
  if '0' ≤ c ∧ c ≤ '9' then some (c.toNat - '0'.toNat)
  else if 'a' ≤ c ∧ c ≤ 'f' then some (c.toNat - 'a'.toNat + 10)
  else if 'A' ≤ c ∧ c ≤ 'F' then some (c.toNat - 'A'.toNat + 10)
  else none

/-- The number a digit string spells in a base, from the value of what precedes it. -/
def digitsFrom (base : Nat) (digit : Char → Option Nat) : Nat → List Char → Option Nat
  | n, [] => some n
  | n, c :: cs =>
    match digit c with
    | some d => digitsFrom base digit (n * base + d) cs
    | none => none

/-- A decimal integer, at least one digit (`<rate>` of 30_encoding.md R51). -/
def decInteger (cs : List Char) : Option Nat := if cs = [] then none else digitsFrom 10 decDigit 0 cs

/-- A leading sign and what follows it. -/
def splitSign : List Char → Bool × List Char
  | '-' :: cs => (true, cs)
  | '+' :: cs => (false, cs)
  | cs => (false, cs)

/-- What stands before the first character that `p` holds of, and what stands after it, if there is one. -/
def splitAtFirst (p : Char → Bool) : List Char → List Char × Option (List Char)
  | [] => ([], none)
  | c :: cs => if p c then ([], some cs) else ((c :: (splitAtFirst p cs).1), (splitAtFirst p cs).2)

/-- The exponent of a decimal literal: none written is 0. -/
def literalExponent : Option (List Char) → Option Int
  | none => some 0
  | some cs =>
    match decInteger (splitSign cs).2 with
    | some n => some (if (splitSign cs).1 then -(n : Int) else n)
    | none => none

/-- A decimal literal "rounded to binary32 (to nearest, ties to even)" (30_encoding.md R51). -/
def decimalLiteral (cs : List Char) : Option F32 :=
  let neg := (splitSign cs).1
  let (mantissa, expo) := splitAtFirst (fun c => c = 'e' || c = 'E') (splitSign cs).2
  let (whole, frac) := splitAtFirst (fun c => c = '.') mantissa
  match decInteger (whole ++ frac.getD []), literalExponent expo with
  | some n, some e =>
    let e := e - ((frac.getD []).length : Int)
    some (if 0 ≤ e then f32OfRatio neg (n * 10 ^ e.toNat) 1 else f32OfRatio neg n (10 ^ (-e).toNat))
  | _, _ => none

/-- The pattern of a non-finite value's name, in the three spellings and with the encodings of 30_encoding.md, section 1, and
95_test_vectors.md, 3.1 and 3.3. R51 lists no such operand form: that the assembler accepts exactly these spellings is the
model's choice (DESIGN CHOICE, log entry 17). -/
def namedReal (cs : List Char) : Option F32 :=
  if cs = ['N', 'a', 'N'] then some 0x7FC00000
  else if cs = ['+', 'I', 'n', 'f'] then some 0x7F800000
  else if cs = ['-', 'I', 'n', 'f'] then some 0xFF800000
  else none

/-- A real operand: `0x` and eight hex digits give the pattern (30_encoding.md R51), a name of a non-finite value gives its
pattern (log entry 17), anything else is a decimal literal (R51). -/
def realOperand : List Char → Option F32
  | '0' :: 'x' :: ds => if ds.length = 8 then (digitsFrom 16 hexDigit 0 ds).map (BitVec.ofNat 32) else none
  | cs =>
    match namedReal cs with
    | some b => some b
    | none => decimalLiteral cs

/-- `STD` or `FAST` (30_encoding.md R51). -/
def variantOperand (cs : List Char) : Option Variant :=
  if cs = ['S', 'T', 'D'] then some .std else if cs = ['F', 'A', 'S', 'T'] then some .fast else none

/-- `<rate>`: a decimal integer that fits the 24-bit field (30_encoding.md R51, R42). -/
def rateOperand (cs : List Char) : Option (BitVec 24) :=
  match decInteger cs with
  | some n => if n < 2 ^ 24 then some (BitVec.ofNat 24 n) else none
  | none => none

/-- The command a line's tokens spell (30_encoding.md R51). Ignored operand bits are assembled as 0. -/
def assembleTokens : List Token → Option (List Instr)
  | [] => some []
  | [.word m] => if m = ['N', 'O', 'P'] then some [.nop 0] else none
  | [.word m, .word a, .comma, .word b] =>
    if m = ['S', 'A', 'M', 'P', 'L', 'E'] then
      match realOperand a, realOperand b with
      | some x, some y => some [.sample x y]
      | _, _ => none
    else none
  | [.word m, .word a, .comma, .word b, .comma, .word c] =>
    if m = ['R', 'E', 'S', 'E', 'T'] then
      match variantOperand a, rateOperand b, realOperand c with
      | some v, some r, some x => some [.reset v 0 r x]
      | _, _, _ => none
    else none
  | _ => none

/-- The commands of one line: one, or none on a blank or comment line (30_encoding.md R51: "one command goes on each
line"). -/
def assembleLine (line : List Char) : Option (List Instr) := assembleTokens (lexFrom [] line)

/-- The command words of an assembly text, line after line. -/
def assemble : List (List Char) → Option (List Command)
  | [] => some []
  | line :: lines =>
    match assembleLine line, assemble lines with
    | some is, some ws => some (is.map encode ++ ws)
    | _, _ => none

end Sys2Proof.Machine
end

