-- ==== Sys2Proof/Safety.lean ====
section
/-! DEFINITION. Safety.lean: what counts as a safe run, in the terms statements use. SMDEC has no unsafe outcome
(60_exceptions.md R115), so safety is what its states and its events keep to: the ranges of 10_state.md R13 to R23. -/

namespace Sys2Proof.Machine

/-- `x <= y` between values that are not NaN. -/
abbrev fle (x y : F64) : Prop := fIsNaN x = false ∧ fIsNaN y = false ∧ fval x ≤ fval y

/-! ## Snapshots and events -/

/-- The integer fields of a snapshot keep to 10_state.md R23: `unit` is 1 or 10, `time <= 1666665`, and `green` implies
`left` and `right`. -/
abbrev SnapshotFieldsOk (x : Snapshot) : Prop :=
  (x.unit = 1 ∨ x.unit = 10) ∧ x.time.toNat ≤ 1666665 ∧ (x.green = true → x.left = true ∧ x.right = true)

/-- `power >= EPS`, and it is no NaN (10_state.md R23, 60_exceptions.md R119). -/
abbrev SnapshotPowerOk (x : Snapshot) : Prop := fle eps x.power

/-- `noise` is in [0, 1] and is no NaN (10_state.md R23, 60_exceptions.md R119). -/
abbrev SnapshotNoiseOk (x : Snapshot) : Prop := fle fzeroPos x.noise ∧ fle x.noise fone

/-- `p` holds of the held state and of every event. -/
abbrev EverySnapshot (p : Snapshot → Prop) (s : State) : Prop := p s.st ∧ ∀ x ∈ s.evq, p x

/-! ## Registers -/

/-- While configured, the latched configuration is legal, the balance is a finite binary32 value widened, and the derived
constants are those of the configuration (10_state.md R13 to R15). -/
def ConfigOk (s : State) : Prop :=
  s.cfg.configured = true →
    ∃ bal : F32, legalConfig s.cfg.rate bal = true ∧ s.cfg.bal = fwiden bal ∧
      s.k = derivedConstants s.cfg.variant s.cfg.rate

/-- The framers' counters keep to their ranges between commands (10_state.md R20, R21): `CHIP_CNT <= 9`, `BYTE_CNT <= 11`,
`FAST_CNT <= 24`, and below 24 while a frame is collected. -/
abbrev CountersOk (s : State) : Prop :=
  s.std.chipCnt.toNat ≤ 9 ∧ s.std.byteCnt.toNat ≤ 11 ∧ s.fast.cnt.toNat ≤ 24 ∧
    (s.fast.inframe = true → s.fast.cnt.toNat ≤ 23)

/-- The registers of the variant not selected keep their reset values (10_state.md R20, R21; 92 D37). -/
def UnselectedAtReset (s : State) : Prop :=
  match s.cfg.variant with
  | .std => s.fast = resetFast
  | .fast => s.std = resetStd

/-- The delay line's cursor stays below its length while configured (10_state.md R17). -/
abbrev CursorOk (s : State) : Prop := s.cfg.configured = true → s.edge.dlPtr.toNat < s.k.dlen.toNat

/-- `LVK` is non-negative and at most `K_OVF_MIN + 1` (10_state.md R18, 42_edge_detector.md R70), the sum rounded as every
sum is. -/
abbrev LvkOk (s : State) : Prop := s.cfg.configured = true → fle fzeroPos s.edge.lvk ∧ fle s.edge.lvk (fadd s.k.ovfMin fone)

/-- `2^n` in binary64, for `n` from -1022 to 1023 (a bound of the model's own, for the ranges below). -/
def fpow2 (n : Int) : F64 := fpack false ((n + 1023).toNat * 2 ^ 52)

/-- `AGC_P` is at least `EPS` and finite (10_state.md R16, 41_agc.md R59), below a bound of the model's own. -/
abbrev PowerOk (s : State) : Prop := fle eps s.agcP ∧ fle s.agcP (fpow2 600)

/-- `DIST` is finite and never negative (10_state.md R18, 42_edge_detector.md R71), below a bound of the model's own. -/
abbrev DistOk (s : State) : Prop := fle fzeroPos s.edge.dist ∧ fle s.edge.dist (fpow2 600)

/-- The integer registers and the snapshots' integer fields are in range. -/
def RegisterInv (s : State) : Prop := CountersOk s ∧ UnselectedAtReset s ∧ EverySnapshot SnapshotFieldsOk s

/-- The configuration and the delay line's cursor are in range. -/
def ConfigInv (s : State) : Prop := ConfigOk s ∧ CursorOk s

/-- The real-valued registers and the snapshots' real-valued fields are in range: "no NaN ever reaches the consumer"
(60_exceptions.md R119). -/
def SignalInv (s : State) : Prop :=
  ConfigOk s ∧ PowerOk s ∧ DistOk s ∧ EverySnapshot SnapshotPowerOk s ∧ EverySnapshot SnapshotNoiseOk s

end Sys2Proof.Machine
end

