-- ==== Sys2Proof/Certificates/Slice0/Obligations.lean ====
section
/-! DEFINITION. Certificates/Slice0/Obligations.lean: the statements for the provers. Each says what SMDEC does, from the
numbered rules of spec/; none is proved here. -/

open Sys2Proof Sys2Proof.Machine

/-! ## Encodings -/

/-- Decoding the encoding of a command gives the command back, for every command and every operand (30_encoding.md R39 to
R43): no bit of an encoding is dropped. -/
def Obligations.DecodeEncodeRoundTrip : Prop := ∀ i : Instr, decode (encode i) = i

/-- Every one of the 2^66 command words is the encoding of what it decodes to (30_encoding.md R39 to R43): each word has one
meaning, and no two commands share a word. -/
def Obligations.EveryWordIsItsCommandsEncoding : Prop := ∀ w : Command, encode (decode w) = w

/-- 30_encoding.md R40, with the operand fields of R41 and R42 read at their bit positions in the whole word. -/
def Obligations.SelectorAndFieldsDecode : Prop :=
  ∀ w : Command,
    (w.extractLsb 65 64 = 0b00#2 → decode w = .nop (w.extractLsb 63 0)) ∧
    (w.extractLsb 65 64 = 0b01#2 → decode w = .sample (w.extractLsb 31 0) (w.extractLsb 63 32)) ∧
    (w.extractLsb 65 64 = 0b10#2 →
      decode w = .reset (if w.getLsbD 0 then .fast else .std) (w.extractLsb 7 1) (w.extractLsb 31 8)
        (w.extractLsb 63 32)) ∧
    (w.extractLsb 65 64 = 0b11#2 → decode w = .reserved (w.extractLsb 63 0))

/-- Command words of the worked encodings of 30_encoding.md, section 1, read as the table spells them. -/
def Obligations.WorkedEncodingsDecode : Prop :=
  decode 0x00000000000000000#66 = .nop 0 ∧
  decode 0x1BF80000000000000#66 = .sample 0 0xBF800000#32 ∧
  decode 0x13F4000003E800000#66 = .sample 0x3E800000#32 0x3F400000#32 ∧
  decode 0x23F80000000AC4401#66 = .reset .fast 0 44100 0x3F800000#32 ∧
  decode 0x23F000000002EE000#66 = .reset .std 0 12000 0x3F000000#32 ∧
  decode 0x30000000000001234#66 = .reserved 0x1234

/-- The event record's fields stand at the bits 30_encoding.md R44 gives them, and its reserved bits are 0. -/
def Obligations.EventRecordLayout : Prop :=
  ∀ x : Snapshot,
    (eventRecord x).extractLsb 31 0 = x.time ∧ (eventRecord x).extractLsb 35 32 = x.unit ∧
    (eventRecord x).getLsbD 36 = x.on ∧ (eventRecord x).getLsbD 37 = x.green ∧
    (eventRecord x).getLsbD 38 = x.left ∧ (eventRecord x).getLsbD 39 = x.right ∧
    (eventRecord x).getLsbD 40 = x.running ∧ (eventRecord x).getLsbD 41 = x.unknown ∧
    (eventRecord x).extractLsb 47 42 = 0 ∧ (eventRecord x).extractLsb 55 48 = x.header ∧
    (eventRecord x).extractLsb 63 56 = 0 ∧ (eventRecord x).extractLsb 127 64 = x.noise ∧
    (eventRecord x).extractLsb 191 128 = x.power

/-- The samples of a `CHIPS` expansion of `m` chips are `floor(m × W + 1/2)` in number (30_encoding.md R52). -/
def Obligations.ChipsExpansionSampleCount : Prop :=
  ∀ (w : Rat) (lo hi : F32) (bs : List Chip), 0 < w →
    (chipsCmds w lo hi bs).length = (Rat.floor (bs.length * w + 1 / 2)).toNat

/-! ## The step -/

/-- A step runs the decoded head of the commands the host has issued, on the state in which that command has been taken; with
no command issued the state stays. That the host's commands are held as a list in the state is the model's choice (log
entries 1 and 2; 20_memory.md R34, 60_exceptions.md R127). -/
def Obligations.StepRunsTheDecodedCommand : Prop :=
  (∀ (s : State) (w : Command) (rest : List Command), s.cmdIn = w :: rest →
    step s = exec (decode w) { s with cmdIn := rest }) ∧
  ∀ s : State, s.cmdIn = [] → step s = .next s

/-- "No command and no input can stop it" (60_exceptions.md R115): every command, on every state, has a next state, and so
has every step. -/
def Obligations.NothingStopsTheMachine : Prop :=
  (∀ (i : Instr) (s : State), ∃ t, exec i s = .next t) ∧ ∀ s : State, ∃ t, step s = .next t

/-- The registers at power-on (70_reset_and_hazards.md R128). Nothing is said of the unspecified `K_*`. -/
def Obligations.PowerOnRegisters : Prop :=
  let s := State.reset
  s.cfg.configured = false ∧ s.cfg.variant = .std ∧ s.cfg.rate = 0 ∧ s.cfg.bal = fone ∧
  s.agcP = fone ∧ (∀ i (h : i < 4096), s.edge.dl[i] = fzeroPos) ∧ s.edge.dlPtr = 0 ∧
  s.edge.lastSgn = false ∧ s.edge.lvk = fzeroPos ∧ s.edge.dist = fzeroPos ∧
  s.fr.lastBit = false ∧ s.fr.run = 0 ∧ s.fr.nsl = 0 ∧ s.fr.idleVal = false ∧
  (∀ i (h : i < 10), s.std.chipAcc[i] = false) ∧ s.std.chipCnt = 0 ∧
  (∀ i (h : i < 10), s.std.byteBuf[i] = 0) ∧ s.std.byteCnt = 0 ∧
  s.fast.armed = false ∧ s.fast.inframe = false ∧ s.fast.cnt = 0 ∧ (∀ i (h : i < 24), s.fast.chips[i] = false) ∧
  s.st = { time := 0, unit := 10, on := false, green := false, left := false, right := false, running := false,
           unknown := false, header := 0x49, noise := fzeroPos, power := fone } ∧
  s.evq = []

/-! ## NOP, the reserved selector, and ignored bits -/

/-- NOP does nothing, whatever its operand and whether or not SMDEC is configured (40_host_commands.md R53): NOP, and every
word with `OP = 0b00`, leaves every register and `EVQ` as they were. -/
def Obligations.NopDoesNothing : Prop :=
  (∀ (o : BitVec 64) (s : State), exec (.nop o) s = .next s) ∧
  ∀ (w : Command) (s : State), w.extractLsb 65 64 = 0b00#2 → exec (decode w) s = .next s

/-- A command with `OP = 0b11` has no effect on any state and emits nothing, and is not well formed: that the model runs it as
the spec's no-op and lets only `WellFormed` refuse it is the model's choice between the two that R43 allows (log entry 8). The
ignored operand bits of RESET and of NOP change nothing (30_encoding.md R43). -/
def Obligations.ReservedEncodingsAreHarmless : Prop :=
  (∀ (o : BitVec 64) (s : State), exec (.reserved o) s = .next s ∧ WellFormed (.reserved o) = false) ∧
  (∀ (a b : BitVec 64) (s : State), exec (.nop a) s = exec (.nop b) s) ∧
  (∀ (w : Command) (s : State), w.extractLsb 65 64 = 0b11#2 → exec (decode w) s = .next s) ∧
  ∀ (v : Variant) (a b : BitVec 7) (rate : BitVec 24) (bal : F32) (s : State),
    exec (.reset v a rate bal) s = exec (.reset v b rate bal) s

/-! ## RESET -/

/-- A legal RESET latches the configuration, computes the derived constants by the formulas of 00_scope.md R5, sets every
decoder register to its reset value, and leaves `EVQ` as it was (40_host_commands.md R56). The model's own fields stay too
(log entries 1 and 4). -/
def Obligations.LegalResetConfigures : Prop :=
  ∀ (v : Variant) (ig : BitVec 7) (rate : BitVec 24) (bal : F32) (s : State),
    8000 ≤ rate.toNat → f32IsFinite bal = true →
    ∃ t, exec (.reset v ig rate bal) s = .next t ∧
      t.cfg = { configured := true, variant := v, rate := rate, bal := fwiden bal } ∧
      t.k.ref.toNat = (if v = .fast then 8000 else 1200) ∧
      t.k.f = fdiv (fofRatio rate.toNat 1) (fofRatio t.k.ref.toNat 1) ∧
      t.k.alpha = fdiv (fofRatio 1 1000) t.k.f ∧
      t.k.dlen = BitVec.ofNat 12 (fceil (fdiv t.k.f (fofRatio 6 1))) ∧
      t.k.edgeMin = fmul t.k.f (fofRatio 6 10) ∧ t.k.ovfMin = fmul t.k.f (fofRatio 2 1) ∧
      t.agcP = fone ∧ (∀ i (h : i < 4096), t.edge.dl[i] = fzeroPos) ∧ t.edge.dlPtr = 0 ∧
      t.edge.lastSgn = false ∧ t.edge.lvk = fzeroPos ∧ t.edge.dist = fzeroPos ∧
      t.fr = { lastBit := false, run := 0, nsl := 0, idleVal := false } ∧ t.std = State.reset.std ∧
      t.fast = State.reset.fast ∧
      t.st = { time := 0, unit := (if v = .fast then 1 else 10), on := false, green := false, left := false,
               right := false, running := false, unknown := false, header := 0x49, noise := fzeroPos, power := fone } ∧
      t.evq = s.evq ∧ t.cmdIn = s.cmdIn ∧ t.freeCtr = s.freeCtr

/-- "An illegal configuration still resets every register. It leaves `CONFIGURED = 0`" (40_host_commands.md R56). Nothing is
said of the unspecified `K_*` (10_state.md R15), whose values are free (log entry 4). -/
def Obligations.IllegalResetUnconfigures : Prop :=
  ∀ (v : Variant) (ig : BitVec 7) (rate : BitVec 24) (bal : F32) (s : State),
    rate.toNat < 8000 ∨ f32IsFinite bal = false →
    ∃ t, exec (.reset v ig rate bal) s = .next t ∧
      t.cfg = { configured := false, variant := v, rate := rate, bal := fwiden bal } ∧
      t.agcP = State.reset.agcP ∧ t.edge = State.reset.edge ∧ t.fr = State.reset.fr ∧ t.std = State.reset.std ∧
      t.fast = State.reset.fast ∧ t.st = { State.reset.st with unit := if v = .fast then 1 else 10 } ∧
      t.evq = s.evq ∧ t.cmdIn = s.cmdIn

/-- RESET erases the decoder's history (70_reset_and_hazards.md R132, R129): from any two states with the same `EVQ` and the
same fields of the model's own (log entries 1 and 4), it leads to one state. That the `K_*` of an illegal RESET agree as well is
the model's choice: R129 leaves them unspecified, and the model draws them by its own counter (log entry 4). -/
def Obligations.ResetErasesHistory : Prop :=
  ∀ (v : Variant) (ig : BitVec 7) (rate : BitVec 24) (bal : F32) (s s' : State),
    s.evq = s'.evq → s.cmdIn = s'.cmdIn → s.freeCtr = s'.freeCtr →
    exec (.reset v ig rate bal) s = exec (.reset v ig rate bal) s'

/-- "Two equal RESETs leave the state of one" (20_memory.md R33): in full for a legal configuration; for an illegal one in
everything but the unspecified `K_*` (10_state.md R15) and the model's draw counter (log entry 4). -/
def Obligations.TwoEqualResetsAreOne : Prop :=
  ∀ (v : Variant) (ig : BitVec 7) (rate : BitVec 24) (bal : F32) (s t : State),
    exec (.reset v ig rate bal) s = .next t →
    ∃ u, exec (.reset v ig rate bal) t = .next u ∧ { u with k := t.k, freeCtr := t.freeCtr } = t ∧
      (legalConfig rate bal = true → u = t)

/-- The ranges of the derived constants of a legal rate: `1 <= K_DLEN <= 2331` (00_scope.md R5, 10_state.md R15),
`K_F >= 1` and `0 < K_ALPHA <= 0.001` (10_state.md R14, R18), 0.001 being the binary64 value nearest to it (log entry 7). -/
def Obligations.DerivedConstantsInRange : Prop :=
  ∀ (v : Variant) (rate : BitVec 24), 8000 ≤ rate.toNat →
    let k := derivedConstants v rate
    1 ≤ k.dlen.toNat ∧ k.dlen.toNat ≤ 2331 ∧ k.dlen.toNat = fceil (fdiv k.f (fofRatio 6 1)) ∧
      fIsFinite k.f = true ∧ fle fone k.f ∧ 0 < fval k.alpha ∧ fle k.alpha (fofRatio 1 1000)

/-- "`K_OVF_MIN <- fl(K_F * 2)` // exact" (00_scope.md R5), for every legal rate. -/
def Obligations.OverflowLimitIsExactlyTwoChips : Prop :=
  ∀ (v : Variant) (rate : BitVec 24), 8000 ≤ rate.toNat →
    fval (derivedConstants v rate).ovfMin = 2 * fval (derivedConstants v rate).f

/-! ## SAMPLE: the signal conditioner -/

/-- "While `CONFIGURED == 0`, SAMPLE has no effect" (10_state.md R14, 40_host_commands.md R54). -/
def Obligations.SampleIgnoredWhileUnconfigured : Prop :=
  ∀ (c0 c1 : F32) (s : State), s.cfg.configured = false → exec (.sample c0 c1) s = .next s

/-- A SAMPLE on a configured SMDEC: the AGC update and the gain (41_agc.md R58 to R61), the delay line's write and its
cursor's advance (42_edge_detector.md R65), and what no SAMPLE changes: the configuration (10_state.md R13), the derived
constants (R15), the registers of the variant not selected (R20, R21) and the model's own fields. -/
def Obligations.SampleConditionsAndDelays : Prop :=
  ∀ (c0 c1 : F32) (s : State), s.cfg.configured = true →
    ∃ t, exec (.sample c0 c1) s = .next t ∧
      (let x := fsub (channelValue c1) (fmul s.cfg.bal (channelValue c0))
       t.agcP = fmaxNum eps (fadd s.agcP (fmul (fsub (fmul x x) s.agcP) s.k.alpha)) ∧
       t.edge.dl = s.edge.dl.set s.edge.dlPtr.toNat (fmul x (fdiv fone (fsqrt t.agcP))) s.edge.dlPtr.isLt) ∧
      t.edge.dlPtr = BitVec.ofNat 12 ((s.edge.dlPtr.toNat + 1) % s.k.dlen.toNat) ∧
      t.cfg = s.cfg ∧ t.k = s.k ∧ (s.cfg.variant = .std → t.fast = s.fast) ∧
      (s.cfg.variant = .fast → t.std = s.std) ∧ t.cmdIn = s.cmdIn ∧ t.freeCtr = s.freeCtr

/-- A finite binary32 sample is widened exactly, subnormals included (41_agc.md R57, 00_scope.md R6): its magnitude in units
of `2^-149` becomes the same value in units of `2^-1074`, with its sign. -/
def Obligations.FiniteSamplesWidenExactly : Prop :=
  ∀ b : F32, f32IsFinite b = true →
    fIsFinite (channelValue b) = true ∧ fsign (channelValue b) = b.getLsbD 31 ∧
      fmag (channelValue b) = f32Mag b * 2 ^ 925

/-- A NaN or an infinity on a channel behaves exactly as +0.0 there (41_agc.md R57). -/
def Obligations.NonFiniteSamplesReadAsZero : Prop :=
  ∀ (c0 c1 : F32) (s : State),
    (f32IsFinite c0 = false → exec (.sample c0 c1) s = exec (.sample 0 c1) s) ∧
    (f32IsFinite c1 = false → exec (.sample c0 c1) s = exec (.sample c0 0) s)

/-- "With `CFG_BAL = 1.0` the product is exact and `s = fl(x1 − x0)`" (41_agc.md R58). -/
def Obligations.UnitBalanceIsPlainDifference : Prop :=
  ∀ c0 c1 : F32, agcInput fone c0 c1 = fsub (channelValue c1) (channelValue c0)

/-- "`s` is always finite: ... so `|s| < 2^257`" (41_agc.md R58), for every finite balance. -/
def Obligations.DifferentialSampleIsFinite : Prop :=
  ∀ bal c0 c1 : F32, f32IsFinite bal = true →
    fIsFinite (agcInput (fwiden bal) c0 c1) = true ∧ fmag (agcInput (fwiden bal) c0 c1) < 2 ^ 257 * 2 ^ 1074

/-- "After every SAMPLE, `AGC_P >= EPS` holds" (10_state.md R16), from every configured state, whatever the sample. -/
def Obligations.PowerNeverBelowFloor : Prop :=
  ∀ (c0 c1 : F32) (s : State), s.cfg.configured = true → ∃ t, exec (.sample c0 c1) s = .next t ∧ fle eps t.agcP

/-- "`g <= 100` because `AGC_P >= EPS = 1e-4`" (41_agc.md R60). -/
def Obligations.GainAtMostHundred : Prop :=
  ∀ p : F64, fIsFinite p = true → fle eps p → fle (agcGain p) (fofRatio 100 1)

/-! ## SAMPLE: the edge detector -/

/-- "The delay line returns the conditioned sample from `K_DLEN` samples earlier" (42_edge_detector.md R65): after `c` and
`K_DLEN - 1` more samples, the delayed sample is `c`. -/
def Obligations.DelayLineReturnsOldSample : Prop :=
  ∀ (dlen : BitVec 12) (e : EdgeRegs) (c : F64) (later : List F64), e.dlPtr.toNat < dlen.toNat →
    later.length + 1 = dlen.toNat →
    delayedSample (later.foldl (fun e x => delayPush dlen x e) (delayPush dlen c e)) = c

/-- A SAMPLE with neither an edge nor an overflow changes the AGC, the delay line, `LVK` and `DIST`, and nothing else
(42_edge_detector.md R64, R69, R71): no chip, no event, every framer register and the held state unchanged. -/
def Obligations.QuietSampleTouchesOnlyTheSignalPath : Prop :=
  ∀ (c0 c1 : F32) (s : State), s.cfg.configured = true →
    let x := agcInput s.cfg.bal c0 c1
    let p := agcPower s.k.alpha s.agcP x
    let c := fmul x (fdiv fone (fsqrt p))
    edTest (delayedSample s.edge) c (idealLevel s.edge.lastSgn) s = false → flt s.k.ovfMin s.edge.lvk = false →
    exec (.sample c0 c1) s = .next { s with
      agcP := p
      edge := { dl := s.edge.dl.set s.edge.dlPtr.toNat c s.edge.dlPtr.isLt
                dlPtr := BitVec.ofNat 12 ((s.edge.dlPtr.toNat + 1) % s.k.dlen.toNat)
                lastSgn := s.edge.lastSgn
                lvk := fadd s.edge.lvk fone
                dist := distAfter s.k.alpha s.edge.dist c s.edge.lastSgn s.fr.run.toNat } }

/-- On an edge `round(fl(LVK / K_F))` chips of value `LAST_SGN` are handed over, then `LAST_SGN` flips and `LVK` is cleared
(42_edge_detector.md R67); the tick of the same SAMPLE makes it 1.0 (R69). -/
def Obligations.EdgeEmitsTheRunAndFlips : Prop :=
  ∀ (c0 c1 : F32) (s : State), s.cfg.configured = true →
    let x := agcInput s.cfg.bal c0 c1
    let p := agcPower s.k.alpha s.agcP x
    let c := fmul x (fdiv fone (fsqrt p))
    edTest (delayedSample s.edge) c (idealLevel s.edge.lastSgn) s = true →
    let n := (fround (fdiv s.edge.lvk s.k.f)).toNat
    let u := repeatChip n s.edge.lastSgn (setEdge (delayPush s.k.dlen c s.edge) { s with agcP := p })
    ∃ t, exec (.sample c0 c1) s = .next t ∧ t.fr = u.fr ∧ t.std = u.std ∧ t.fast = u.fast ∧ t.st = u.st ∧ t.evq = u.evq ∧
      t.edge.lastSgn = (!s.edge.lastSgn) ∧ t.edge.lvk = fone

/-- Without an edge and with `LVK > K_OVF_MIN`, one chip of value `LAST_SGN` is handed over and one chip width comes off
`LVK`, before the tick; `LAST_SGN` is not changed (42_edge_detector.md R68, R69). -/
def Obligations.OverflowEmitsOneChip : Prop :=
  ∀ (c0 c1 : F32) (s : State), s.cfg.configured = true →
    let x := agcInput s.cfg.bal c0 c1
    let p := agcPower s.k.alpha s.agcP x
    let c := fmul x (fdiv fone (fsqrt p))
    edTest (delayedSample s.edge) c (idealLevel s.edge.lastSgn) s = false → flt s.k.ovfMin s.edge.lvk = true →
    let u := chip s.edge.lastSgn (setEdge (delayPush s.k.dlen c s.edge) { s with agcP := p })
    ∃ t, exec (.sample c0 c1) s = .next t ∧ t.fr = u.fr ∧ t.std = u.std ∧ t.fast = u.fast ∧ t.st = u.st ∧ t.evq = u.evq ∧
      t.edge.lastSgn = s.edge.lastSgn ∧ t.edge.lvk = fadd (fsub s.edge.lvk s.k.f) fone

/-- Condition A of the edge test needs the signal to have risen by more than 0.7 over the delay while `LAST_SGN = 0`, and to
have fallen by more than 0.7 while `LAST_SGN = 1` (42_edge_detector.md R66, R73: "a falling transition is never an edge while
`LAST_SGN == 0`"), between finite samples. The change is the exact difference, in units of `2^-1074`, and 0.7 is seven tenths,
which the rounded test implies with the threshold's nearest binary64 value (log entry 7). -/
def Obligations.EdgeNeedsAMoveAwayFromTheLevel : Prop :=
  ∀ (d c : F64) (s : State), fIsFinite d = true → fIsFinite c = true →
    edTest d c (idealLevel s.edge.lastSgn) s = true →
    if s.edge.lastSgn then 7 * 2 ^ 1074 < 10 * (fval d - fval c) else 7 * 2 ^ 1074 < 10 * (fval c - fval d)

/-- `DIST` after a SAMPLE, by the polarity after the flip and the run after the chips: tracking below 10, unchanged from 10
to 100, pinned to 1 above 100 (42_edge_detector.md R71). `DL` holds the conditioned sample at the old cursor. -/
def Obligations.DistortionFollowsTheRun : Prop :=
  ∀ (c0 c1 : F32) (s : State), s.cfg.configured = true →
    ∃ t, exec (.sample c0 c1) s = .next t ∧
      (let c := t.edge.dl[s.edge.dlPtr.toNat]'s.edge.dlPtr.isLt
       let e := fsub c (if t.edge.lastSgn then fone else fneg fone)
       (t.fr.run.toNat < 10 →
         t.edge.dist = fadd s.edge.dist (fmul (fsub (fmul e e) s.edge.dist) s.k.alpha)) ∧
       (10 ≤ t.fr.run.toNat → t.fr.run.toNat ≤ 100 → t.edge.dist = s.edge.dist) ∧
       (100 < t.fr.run.toNat → t.edge.dist = fone))

/-- `LVK` stays non-negative and at most `K_OVF_MIN + 1` (42_edge_detector.md R70, 10_state.md R18): every step keeps it, from
every state with the constants of a legal configuration. -/
def Obligations.LvkStaysInRange : Prop := ∀ s t : State, ConfigOk s → LvkOk s → step s = .next t → LvkOk t

/-- After every SAMPLE on a configured SMDEC, `1.0 <= LVK <= K_OVF_MIN + 1` (42_edge_detector.md R70, 10_state.md R18), from
every state with the constants of a legal configuration and `LVK` in the range that reset and every step keep. -/
def Obligations.LvkAtLeastOneAfterSample : Prop :=
  ∀ (c0 c1 : F32) (s : State), s.cfg.configured = true → ConfigOk s → LvkOk s →
    ∃ t, exec (.sample c0 c1) s = .next t ∧ fle fone t.edge.lvk ∧ fle t.edge.lvk (fadd t.k.ovfMin fone)

/-- "`n` is always 1, 2 or 3" (42_edge_detector.md R67): the number of chips an edge hands over, in every state with the
constants of a legal configuration and `LVK` in its range. -/
def Obligations.EdgeEmitsOneToThreeChips : Prop :=
  ∀ s : State, s.cfg.configured = true → ConfigOk s → LvkOk s → edTestC s.k.edgeMin s.edge.lvk = true →
    1 ≤ (fround (fdiv s.edge.lvk s.k.f)).toNat ∧ (fround (fdiv s.edge.lvk s.k.f)).toNat ≤ 3

/-! ## Chips: the standard framer -/

/-- The run bookkeeping of a chip: `LAST_BIT`, `RUN` and `NSL`, both counters saturating at `2^32 − 1`
(43_framer_standard.md R75); `IDLE_VAL` is not touched. -/
def Obligations.RunBookkeeping : Prop :=
  ∀ (b : Chip) (f : FramerRegs),
    (frRun b f).lastBit = b ∧ (b ≠ f.lastBit → (frRun b f).run = 1) ∧
      (b = f.lastBit → (frRun b f).run.toNat = min (f.run.toNat + 1) (2 ^ 32 - 1)) ∧
      (frRun b f).nsl.toNat = min (f.nsl.toNat + 1) (2 ^ 32 - 1) ∧ (frRun b f).idleVal = f.idleVal

/-- An idle chip: one that leaves `RUN` above 10 (STD) or 100 (FAST). It records the idle level and clears the framing counts
(43_framer_standard.md R76), or abandons a frame and arms the start detector (44_framer_fast.md R86), then emits the off
snapshot, or clamps `NSL` and emits the keep-alive snapshot, or neither (R74, R77, R78, R86). Nothing else changes. -/
def Obligations.IdleChipEffects : Prop :=
  ∀ (b : Chip) (s : State),
    let f := { frRun b s.fr with idleVal := b }
    let off := { s.st with on := false, noise := sdNoise s.edge.dist, power := s.agcP }
    let ka := { s.st with noise := sdNoise s.edge.dist, power := s.agcP }
    (s.cfg.variant = .std → 10 < f.run.toNat →
      let u := { s with fr := f, std := { s.std with chipCnt := 0, byteCnt := 0 } }
      chip b s =
        if 100 < f.run.toNat ∧ s.st.on = true then { u with st := off, evq := s.evq ++ [off] }
        else if 700 < f.nsl.toNat then { u with fr := { f with nsl := 100 }, st := ka, evq := s.evq ++ [ka] }
        else u) ∧
    (s.cfg.variant = .fast → 100 < f.run.toNat →
      let u := { s with fr := f, fast := { s.fast with inframe := false, cnt := 0, armed := true } }
      chip b s =
        if 1000 < f.run.toNat ∧ s.st.on = true then { u with st := off, evq := s.evq ++ [off] }
        else if 4000 < f.nsl.toNat then { u with fr := { f with nsl := 1000 }, st := ka, evq := s.evq ++ [ka] }
        else u)

/-- The tenth chip of a window whose start equals the idle level or whose stop differs from it: the oldest chip is dropped,
nine chips stay, and only the run bookkeeping and the accumulator change: the byte buffer and its count stay, nothing is
emitted (43_framer_standard.md R79, R80, R81; 60_exceptions.md R116). -/
def Obligations.BadWindowSlides : Prop :=
  ∀ (b : Chip) (s : State), s.cfg.variant = .std → (frRun b s.fr).run.toNat ≤ 10 → s.std.chipCnt = 9 →
    s.std.chipAcc[0] = s.fr.idleVal ∨ b ≠ s.fr.idleVal →
    let t := chip b s
    t = { s with fr := frRun b s.fr, std := { s.std with chipAcc := t.std.chipAcc } } ∧
      (∀ i (h : i < 8), t.std.chipAcc[i] = s.std.chipAcc[i + 1]) ∧ t.std.chipAcc[8] = b ∧ t.std.chipAcc[9] = b

/-- The ten chips of a byte, sent after a chip at the idle level to an empty accumulator, are assembled to that byte, for
either idle level: it is stored as one of the first ten bytes and not after, and counted, the count saturating at 11
(30_encoding.md R46, 20_memory.md R28, 43_framer_standard.md R82). With fewer than eight bytes before it, or with ten or more,
no decode pass runs (45_frame_decoder.md R92): no event, `NSL` goes on counting, and the held state stays. -/
def Obligations.ByteFrameRoundTrip : Prop :=
  ∀ (x : Byte) (v : Chip) (s : State), s.cfg.variant = .std → s.fr.idleVal = v → s.fr.lastBit = v → s.std.chipCnt = 0 →
    let n := s.std.byteCnt.toNat
    let t := (byteChips v x).foldl (fun s b => chip b s) s
    t.std.byteBuf = (if n < 10 then s.std.byteBuf.setIfInBounds n x else s.std.byteBuf) ∧
      t.std.byteCnt.toNat = min (n + 1) 11 ∧ t.std.chipCnt = 0 ∧ t.fr.idleVal = v ∧ t.fr.lastBit = v ∧
      (n < 8 ∨ 10 ≤ n → t.evq = s.evq ∧ t.st = s.st ∧ t.fr.nsl.toNat = min (s.fr.nsl.toNat + 10) (2 ^ 32 - 1))

/-- A nine-byte message, sent after idle, chip by chip: it emits exactly the snapshot of its header, time and unit 10 when its
header is one of the seven, its five payload bytes are digits and its checksum byte is 64 plus their sum; otherwise it emits
nothing and the held state stays (30_encoding.md R47 to R49, 45_frame_decoder.md R92 to R99). Its last two bytes are not
checked. -/
def Obligations.NineByteMessageDecodes : Prop :=
  ∀ (h d1 d2 d3 d4 d5 ck x y : Byte) (v : Chip) (s : State), s.cfg.variant = .std → s.fr.idleVal = v → s.fr.lastBit = v →
    s.std.chipCnt = 0 → s.std.byteCnt = 0 →
    let t := (messageChips v [h, d1, d2, d3, d4, d5, ck, x, y]).foldl (fun s b => chip b s) s
    let n := fun b : Byte => b.toNat - 0x30
    if h ∈ [0x20#8, 0x53#8, 0x49#8, 0x4C#8, 0x52#8, 0x43#8, 0x41#8] ∧
        (∀ d ∈ [d1, d2, d3, d4, d5], 0x30 ≤ d.toNat ∧ d.toNat ≤ 0x39) ∧
        64 + n d1 + n d2 + n d3 + n d4 + n d5 = ck.toNat then
      t.st = frameSnapshot h (n d1 * 60000 + (10 * n d2 + n d3) * 1000 + (10 * n d4 + n d5) * 10) 10 s ∧
        t.evq = s.evq ++ [t.st] ∧ t.fr.nsl = 0
    else t.st = s.st ∧ t.evq = s.evq

/-- Ten bytes, sent after idle, chip by chip. If the header is one of the seven, the six payload bytes are digits and the
checksum byte is 64 plus their sum, they emit exactly one snapshot, with a six-digit time and unit 1: the pass at nine bytes
fails and the one at ten succeeds (30_encoding.md R47, 45_frame_decoder.md R92 to R97). If the first nine are accepted as a
nine-byte message, its snapshot is the only one: the tenth byte emits nothing more (R98). Otherwise nothing is emitted and the
held state stays (R99). -/
def Obligations.TenByteMessageDecodes : Prop :=
  ∀ (h d1 d2 d3 d4 d5 d6 ck x y : Byte) (v : Chip) (s : State), s.cfg.variant = .std → s.fr.idleVal = v →
    s.fr.lastBit = v → s.std.chipCnt = 0 → s.std.byteCnt = 0 →
    let header := h ∈ [0x20#8, 0x53#8, 0x49#8, 0x4C#8, 0x52#8, 0x43#8, 0x41#8]
    let n := fun b : Byte => b.toNat - 0x30
    let t := (messageChips v [h, d1, d2, d3, d4, d5, d6, ck, x, y]).foldl (fun s b => chip b s) s
    if header ∧ (∀ d ∈ [d1, d2, d3, d4, d5, d6], 0x30 ≤ d.toNat ∧ d.toNat ≤ 0x39) ∧
        64 + n d1 + n d2 + n d3 + n d4 + n d5 + n d6 = ck.toNat then
      t.st = frameSnapshot h (n d1 * 60000 + (10 * n d2 + n d3) * 1000 + (100 * n d4 + 10 * n d5 + n d6)) 1 s ∧
        t.evq = s.evq ++ [t.st] ∧ t.fr.nsl = 0
    else if header ∧ (∀ d ∈ [d1, d2, d3, d4, d5], 0x30 ≤ d.toNat ∧ d.toNat ≤ 0x39) ∧
        64 + n d1 + n d2 + n d3 + n d4 + n d5 = d6.toNat then
      t.st = frameSnapshot h (n d1 * 60000 + (10 * n d2 + n d3) * 1000 + (10 * n d4 + n d5) * 10) 10 s ∧
        t.evq = s.evq ++ [t.st] ∧ t.fr.nsl = 10
    else t.st = s.st ∧ t.evq = s.evq

/-- "No message is accepted at both lengths" (30_encoding.md R47). -/
def Obligations.NoMessageAcceptedAtBothLengths : Prop :=
  ∀ buf : Vector Byte 10, ¬ (fdAccepts 9 buf = true ∧ fdAccepts 10 buf = true)

/-- The checksum byte of an accepted message lies in 64..109 (nine bytes) or 64..118 (ten) (30_encoding.md R49), and its time
is at most 639990 or 639999 (45_frame_decoder.md R96). -/
def Obligations.AcceptedMessageRanges : Prop :=
  ∀ buf : Vector Byte 10,
    (fdAccepts 9 buf = true → 64 ≤ buf[6].toNat ∧ buf[6].toNat ≤ 109 ∧ fdTime 9 buf ≤ 639990) ∧
    (fdAccepts 10 buf = true → 64 ≤ buf[7].toNat ∧ buf[7].toNat ≤ 118 ∧ fdTime 10 buf ≤ 639999)

/-- A steady idle stream turns the state off exactly once (43_framer_standard.md R77, 46_state_derivation.md R114): while
`ST.on = 1`, chips that carry the idle run of a configured variant past its off threshold emit one snapshot, the held state
with `on = 0`, provided the keep-alive count is not reached. -/
def Obligations.IdleRunTurnsOffOnce : Prop :=
  ∀ (n : Nat) (b : Chip) (s : State),
    let idleRun := if s.cfg.variant = .std then 10 else 100
    let offRun := if s.cfg.variant = .std then 100 else 1000
    let kaNsl := if s.cfg.variant = .std then 700 else 4000
    s.fr.lastBit = b → idleRun ≤ s.fr.run.toNat → s.fr.run.toNat ≤ offRun → s.st.on = true →
    offRun < s.fr.run.toNat + n → s.fr.nsl.toNat + n ≤ kaNsl →
    let off := { s.st with on := false, noise := sdNoise s.edge.dist, power := s.agcP }
    (repeatChip n b s).evq = s.evq ++ [off] ∧ (repeatChip n b s).st = off

/-- A steady idle stream in the off state, right after a keep-alive, emits nothing for one chip less than the period and then
one keep-alive, after which the count stands at the clamp again: the period is 601 chips (STD, 43_framer_standard.md R78) or
3001 (FAST, 44_framer_fast.md R86). -/
def Obligations.KeepalivePeriod : Prop :=
  ∀ (n : Nat) (b : Chip) (s : State),
    let idleRun := if s.cfg.variant = .std then 10 else 100
    let clamp := if s.cfg.variant = .std then 100 else 1000
    let period := if s.cfg.variant = .std then 601 else 3001
    s.fr.lastBit = b → idleRun ≤ s.fr.run.toNat → s.st.on = false → s.fr.nsl.toNat = clamp →
    (n < period → (repeatChip n b s).evq = s.evq ∧ (repeatChip n b s).st = s.st) ∧
    (n = period →
      (repeatChip n b s).evq = s.evq ++ [{ s.st with noise := sdNoise s.edge.dist, power := s.agcP }] ∧
        (repeatChip n b s).fr.nsl.toNat = clamp)

/-! ## Chips: the fast framer -/

/-- A fast frame of any six digits 0 to 15, sent to an armed detector after a chip at the idle level, emits exactly the
snapshot of its time, header `'S'` and unit 1, and leaves the detector armed (30_encoding.md R50, 44_framer_fast.md R87 to
R89). -/
def Obligations.FastFrameRoundTrip : Prop :=
  ∀ (d0 d1 d2 d3 d4 d5 : BitVec 4) (v : Chip) (s : State), s.cfg.variant = .fast → s.fr.idleVal = v → s.fr.lastBit = v →
    s.fast.armed = true → s.fast.inframe = false →
    let t := (fastFrameChipList v #v[d0, d1, d2, d3, d4, d5]).foldl (fun s b => chip b s) s
    t.st = frameSnapshot 0x53#8
        (d0.toNat * 100000 + d1.toNat * 10000 + d2.toNat * 1000 + d3.toNat * 100 + d4.toNat * 10 + d5.toNat) 1 s ∧
      t.evq = s.evq ++ [t.st] ∧ t.fr.nsl = 0 ∧ t.fast.armed = true ∧ t.fast.inframe = false

/-- With every data chip inverted each digit `d` becomes `15 − d`, so the times of the two frames add up to 1666665, the
largest time (44_framer_fast.md R90, R89). -/
def Obligations.InvertedFastFrameTimes : Prop :=
  ∀ chips : Vector Chip 24, fastTime chips + fastTime (chips.map fun b => !b) = 1666665

/-- A disarmed detector that is not in a frame ignores every chip that is not idle: only `LAST_BIT`, `RUN` and `NSL` change
(44_framer_fast.md R85, R87: "no frame starts before the first idle run of more than 100 chips"). -/
def Obligations.DisarmedDetectorIgnoresChips : Prop :=
  ∀ (b : Chip) (s : State), s.cfg.variant = .fast → s.fast.armed = false → s.fast.inframe = false →
    (frRun b s.fr).run.toNat ≤ 100 → chip b s = { s with fr := frRun b s.fr }

/-- An armed detector that is not in a frame ignores a chip equal to `IDLE_VAL`, and takes a chip that differs from it as the
start chip, which is not stored (44_framer_fast.md R85, R87), while the chip leaves `RUN` at 100 or below. -/
def Obligations.ArmedDetectorWaitsForAStartChip : Prop :=
  ∀ (b : Chip) (s : State), s.cfg.variant = .fast → s.fast.armed = true → s.fast.inframe = false →
    (frRun b s.fr).run.toNat ≤ 100 →
    (b = s.fr.idleVal → chip b s = { s with fr := frRun b s.fr }) ∧
    (b ≠ s.fr.idleVal →
      chip b s = { s with
        fr := frRun b s.fr
        fast := { s.fast with inframe := true, cnt := 0, armed := false } })

/-! ## State derivation and events -/

/-- The snapshot `sd_derive` emits, field by field, and its clear of `NSL` (46_state_derivation.md R101). -/
def Obligations.DerivedSnapshotFields : Prop :=
  ∀ (h : Byte) (t : Nat) (u : BitVec 4) (s : State), t < 2 ^ 32 →
    let x := (sdDerive h t u s).st
    let inc := if u = s.st.unit then s.st.time.toNat < t else s.st.time.toNat / 10 < t / 10
    x.time.toNat = t ∧ x.unit = u ∧ x.header = h ∧ x.on = true ∧
    (x.running = true ↔ (h ≠ 0x53#8 ∨ s.st.header = 0x53#8) ∧ (h = 0x20#8 ∨ inc)) ∧
    (x.green = true ↔ h = 0x41#8) ∧ (x.left = true ↔ h = 0x4C#8 ∨ h = 0x41#8 ∨ h = 0x43#8) ∧
    (x.right = true ↔ h = 0x52#8 ∨ h = 0x41#8 ∨ h = 0x43#8) ∧ x.unknown = (!s.st.on) ∧
    x.noise = sdNoise s.edge.dist ∧ x.power = s.agcP ∧
    sdDerive h t u s = { s with fr := { s.fr with nsl := 0 }, st := x, evq := s.evq ++ [x] }

/-- The off and the keep-alive snapshot: the held state with `on = 0` (off only) and refreshed noise and power, every other
field copied, every other register unchanged (46_state_derivation.md R110, R111). -/
def Obligations.OffAndKeepaliveSnapshots : Prop :=
  ∀ s : State,
    (let x := { s.st with on := false, noise := sdNoise s.edge.dist, power := s.agcP }
     sdOff s = { s with st := x, evq := s.evq ++ [x] }) ∧
    (let x := { s.st with noise := sdNoise s.edge.dist, power := s.agcP }
     sdKeepalive s = { s with st := x, evq := s.evq ++ [x] })

/-- "`sd_noise()` returns `0.0` if `DIST` is NaN, and `min(1.0, DIST)` otherwise" (46_state_derivation.md R107). -/
def Obligations.NoiseIsClamped : Prop :=
  ∀ d : F64, (fIsNaN d = true → sdNoise d = fzeroPos) ∧
    (fIsNaN d = false → fIsNaN (sdNoise d) = false ∧ fval (sdNoise d) = min (fval fone) (fval d))

/-- Every event of a SAMPLE carries the power after this SAMPLE's update and the noise of the `DIST` before it
(41_agc.md R62, 70_reset_and_hazards.md R131), and the last one is the held state (46_state_derivation.md R112). -/
def Obligations.SampleEventsCarryPowerAndOldNoise : Prop :=
  ∀ (c0 c1 : F32) (s : State), ∃ t new, exec (.sample c0 c1) s = .next t ∧ t.evq = s.evq ++ new ∧
    (∀ x ∈ new, x.power = t.agcP ∧ x.noise = sdNoise s.edge.dist) ∧ t.st = (s.st :: new).getLast (by simp)

/-- One SAMPLE emits at most two events (60_exceptions.md R121), from every state with the constants of a legal configuration
and `LVK` in its range. -/
def Obligations.AtMostTwoEventsPerSample : Prop :=
  ∀ (c0 c1 : F32) (s : State), ConfigOk s → LvkOk s →
    ∃ t new, exec (.sample c0 c1) s = .next t ∧ t.evq = s.evq ++ new ∧ new.length ≤ 2

/-- `EVQ` is append-only: nothing removes from it (10_state.md R24). -/
def Obligations.EventStreamOnlyGrows : Prop :=
  ∀ s t : State, step s = .next t → ∃ new, t.evq = s.evq ++ new

/-- The configuration registers are written only by RESET, and so are the derived constants (10_state.md R13, R15). -/
def Obligations.OnlyResetWritesTheConfiguration : Prop :=
  ∀ (i : Instr) (s t : State), (∀ v ig rate bal, i ≠ .reset v ig rate bal) → exec i s = .next t →
    t.cfg = s.cfg ∧ t.k = s.k

/-! ## Invariants of every step -/

/-- The three invariants hold at power-on (70_reset_and_hazards.md R128). -/
def Obligations.InvariantsAtPowerOn : Prop :=
  RegisterInv State.reset ∧ ConfigInv State.reset ∧ SignalInv State.reset ∧ LvkOk State.reset

/-- Every step keeps the integer registers in range, the registers of the variant not selected at their reset values, and the
integer fields of the held state and of every event as 10_state.md R23 says (R20, R21, R23; the bound 1666665 and what a
green light implies). -/
def Obligations.EveryStepKeepsRegisterInv : Prop := ∀ s t : State, RegisterInv s → step s = .next t → RegisterInv t

/-- Every step keeps a configured SMDEC at a legal configuration with its own derived constants, and the delay line's cursor
below its length (10_state.md R13 to R15, R17). -/
def Obligations.EveryStepKeepsConfigInv : Prop := ∀ s t : State, ConfigInv s → step s = .next t → ConfigInv t

/-- Every step keeps `AGC_P` at `EPS` or above, `DIST` non-negative, both finite, and every snapshot's power at `EPS` or above
and its noise in [0, 1], none a NaN: "no NaN ever reaches the consumer" (10_state.md R16, R18, R23; 60_exceptions.md R119). -/
def Obligations.EveryStepKeepsSignalInv : Prop := ∀ s t : State, SignalInv s → step s = .next t → SignalInv t
end

