-- ==== Sys2Proof/Laws/State.lean ====
section
/-! SUPPORT. Laws/State.lean: one lemma per field per record update, each true by rfl, so that no proof unfolds one; then
the spec lemmas of the operations that choose between updates. -/

namespace Sys2Proof.Machine

/-! ### setFr -/

@[simp] theorem setFr_cfg (x : FramerRegs) (s : State) : (setFr x s).cfg = s.cfg := rfl
@[simp] theorem setFr_k (x : FramerRegs) (s : State) : (setFr x s).k = s.k := rfl
@[simp] theorem setFr_agcP (x : FramerRegs) (s : State) : (setFr x s).agcP = s.agcP := rfl
@[simp] theorem setFr_edge (x : FramerRegs) (s : State) : (setFr x s).edge = s.edge := rfl
@[simp] theorem setFr_fr (x : FramerRegs) (s : State) : (setFr x s).fr = x := rfl
@[simp] theorem setFr_std (x : FramerRegs) (s : State) : (setFr x s).std = s.std := rfl
@[simp] theorem setFr_fast (x : FramerRegs) (s : State) : (setFr x s).fast = s.fast := rfl
@[simp] theorem setFr_st (x : FramerRegs) (s : State) : (setFr x s).st = s.st := rfl
@[simp] theorem setFr_evq (x : FramerRegs) (s : State) : (setFr x s).evq = s.evq := rfl
@[simp] theorem setFr_cmdIn (x : FramerRegs) (s : State) : (setFr x s).cmdIn = s.cmdIn := rfl
@[simp] theorem setFr_freeCtr (x : FramerRegs) (s : State) : (setFr x s).freeCtr = s.freeCtr := rfl

/-! ### setStd -/

@[simp] theorem setStd_cfg (x : StdRegs) (s : State) : (setStd x s).cfg = s.cfg := rfl
@[simp] theorem setStd_k (x : StdRegs) (s : State) : (setStd x s).k = s.k := rfl
@[simp] theorem setStd_agcP (x : StdRegs) (s : State) : (setStd x s).agcP = s.agcP := rfl
@[simp] theorem setStd_edge (x : StdRegs) (s : State) : (setStd x s).edge = s.edge := rfl
@[simp] theorem setStd_fr (x : StdRegs) (s : State) : (setStd x s).fr = s.fr := rfl
@[simp] theorem setStd_std (x : StdRegs) (s : State) : (setStd x s).std = x := rfl
@[simp] theorem setStd_fast (x : StdRegs) (s : State) : (setStd x s).fast = s.fast := rfl
@[simp] theorem setStd_st (x : StdRegs) (s : State) : (setStd x s).st = s.st := rfl
@[simp] theorem setStd_evq (x : StdRegs) (s : State) : (setStd x s).evq = s.evq := rfl
@[simp] theorem setStd_cmdIn (x : StdRegs) (s : State) : (setStd x s).cmdIn = s.cmdIn := rfl
@[simp] theorem setStd_freeCtr (x : StdRegs) (s : State) : (setStd x s).freeCtr = s.freeCtr := rfl

/-! ### setFast -/

@[simp] theorem setFast_cfg (x : FastRegs) (s : State) : (setFast x s).cfg = s.cfg := rfl
@[simp] theorem setFast_k (x : FastRegs) (s : State) : (setFast x s).k = s.k := rfl
@[simp] theorem setFast_agcP (x : FastRegs) (s : State) : (setFast x s).agcP = s.agcP := rfl
@[simp] theorem setFast_edge (x : FastRegs) (s : State) : (setFast x s).edge = s.edge := rfl
@[simp] theorem setFast_fr (x : FastRegs) (s : State) : (setFast x s).fr = s.fr := rfl
@[simp] theorem setFast_std (x : FastRegs) (s : State) : (setFast x s).std = s.std := rfl
@[simp] theorem setFast_fast (x : FastRegs) (s : State) : (setFast x s).fast = x := rfl
@[simp] theorem setFast_st (x : FastRegs) (s : State) : (setFast x s).st = s.st := rfl
@[simp] theorem setFast_evq (x : FastRegs) (s : State) : (setFast x s).evq = s.evq := rfl
@[simp] theorem setFast_cmdIn (x : FastRegs) (s : State) : (setFast x s).cmdIn = s.cmdIn := rfl
@[simp] theorem setFast_freeCtr (x : FastRegs) (s : State) : (setFast x s).freeCtr = s.freeCtr := rfl

/-! ### setEdge -/

@[simp] theorem setEdge_cfg (x : EdgeRegs) (s : State) : (setEdge x s).cfg = s.cfg := rfl
@[simp] theorem setEdge_k (x : EdgeRegs) (s : State) : (setEdge x s).k = s.k := rfl
@[simp] theorem setEdge_agcP (x : EdgeRegs) (s : State) : (setEdge x s).agcP = s.agcP := rfl
@[simp] theorem setEdge_edge (x : EdgeRegs) (s : State) : (setEdge x s).edge = x := rfl
@[simp] theorem setEdge_fr (x : EdgeRegs) (s : State) : (setEdge x s).fr = s.fr := rfl
@[simp] theorem setEdge_std (x : EdgeRegs) (s : State) : (setEdge x s).std = s.std := rfl
@[simp] theorem setEdge_fast (x : EdgeRegs) (s : State) : (setEdge x s).fast = s.fast := rfl
@[simp] theorem setEdge_st (x : EdgeRegs) (s : State) : (setEdge x s).st = s.st := rfl
@[simp] theorem setEdge_evq (x : EdgeRegs) (s : State) : (setEdge x s).evq = s.evq := rfl
@[simp] theorem setEdge_cmdIn (x : EdgeRegs) (s : State) : (setEdge x s).cmdIn = s.cmdIn := rfl
@[simp] theorem setEdge_freeCtr (x : EdgeRegs) (s : State) : (setEdge x s).freeCtr = s.freeCtr := rfl

/-! ### emit -/

@[simp] theorem emit_cfg (x : Snapshot) (s : State) : (emit x s).cfg = s.cfg := rfl
@[simp] theorem emit_k (x : Snapshot) (s : State) : (emit x s).k = s.k := rfl
@[simp] theorem emit_agcP (x : Snapshot) (s : State) : (emit x s).agcP = s.agcP := rfl
@[simp] theorem emit_edge (x : Snapshot) (s : State) : (emit x s).edge = s.edge := rfl
@[simp] theorem emit_fr (x : Snapshot) (s : State) : (emit x s).fr = s.fr := rfl
@[simp] theorem emit_std (x : Snapshot) (s : State) : (emit x s).std = s.std := rfl
@[simp] theorem emit_fast (x : Snapshot) (s : State) : (emit x s).fast = s.fast := rfl
@[simp] theorem emit_st (x : Snapshot) (s : State) : (emit x s).st = x := rfl
@[simp] theorem emit_evq (x : Snapshot) (s : State) : (emit x s).evq = s.evq ++ [x] := rfl
@[simp] theorem emit_cmdIn (x : Snapshot) (s : State) : (emit x s).cmdIn = s.cmdIn := rfl
@[simp] theorem emit_freeCtr (x : Snapshot) (s : State) : (emit x s).freeCtr = s.freeCtr := rfl

/-! ### issueCommand -/

@[simp] theorem issueCommand_cfg (w : Command) (s : State) : (issueCommand w s).cfg = s.cfg := rfl
@[simp] theorem issueCommand_k (w : Command) (s : State) : (issueCommand w s).k = s.k := rfl
@[simp] theorem issueCommand_agcP (w : Command) (s : State) : (issueCommand w s).agcP = s.agcP := rfl
@[simp] theorem issueCommand_edge (w : Command) (s : State) : (issueCommand w s).edge = s.edge := rfl
@[simp] theorem issueCommand_fr (w : Command) (s : State) : (issueCommand w s).fr = s.fr := rfl
@[simp] theorem issueCommand_std (w : Command) (s : State) : (issueCommand w s).std = s.std := rfl
@[simp] theorem issueCommand_fast (w : Command) (s : State) : (issueCommand w s).fast = s.fast := rfl
@[simp] theorem issueCommand_st (w : Command) (s : State) : (issueCommand w s).st = s.st := rfl
@[simp] theorem issueCommand_evq (w : Command) (s : State) : (issueCommand w s).evq = s.evq := rfl
@[simp] theorem issueCommand_cmdIn (w : Command) (s : State) : (issueCommand w s).cmdIn = w :: s.cmdIn := rfl
@[simp] theorem issueCommand_freeCtr (w : Command) (s : State) : (issueCommand w s).freeCtr = s.freeCtr := rfl

/-! ### sdDerive -/

@[simp] theorem sdDerive_cfg (h : Byte) (t : Nat) (u : BitVec 4) (s : State) : (sdDerive h t u s).cfg = s.cfg := rfl
@[simp] theorem sdDerive_k (h : Byte) (t : Nat) (u : BitVec 4) (s : State) : (sdDerive h t u s).k = s.k := rfl
@[simp] theorem sdDerive_agcP (h : Byte) (t : Nat) (u : BitVec 4) (s : State) : (sdDerive h t u s).agcP = s.agcP := rfl
@[simp] theorem sdDerive_edge (h : Byte) (t : Nat) (u : BitVec 4) (s : State) : (sdDerive h t u s).edge = s.edge := rfl
@[simp] theorem sdDerive_fr (h : Byte) (t : Nat) (u : BitVec 4) (s : State) : (sdDerive h t u s).fr = { s.fr with nsl := 0 } := rfl
@[simp] theorem sdDerive_std (h : Byte) (t : Nat) (u : BitVec 4) (s : State) : (sdDerive h t u s).std = s.std := rfl
@[simp] theorem sdDerive_fast (h : Byte) (t : Nat) (u : BitVec 4) (s : State) : (sdDerive h t u s).fast = s.fast := rfl
@[simp] theorem sdDerive_st (h : Byte) (t : Nat) (u : BitVec 4) (s : State) : (sdDerive h t u s).st = frameSnapshot h t u s := rfl
@[simp] theorem sdDerive_evq (h : Byte) (t : Nat) (u : BitVec 4) (s : State) : (sdDerive h t u s).evq = s.evq ++ [frameSnapshot h t u s] := rfl
@[simp] theorem sdDerive_cmdIn (h : Byte) (t : Nat) (u : BitVec 4) (s : State) : (sdDerive h t u s).cmdIn = s.cmdIn := rfl
@[simp] theorem sdDerive_freeCtr (h : Byte) (t : Nat) (u : BitVec 4) (s : State) : (sdDerive h t u s).freeCtr = s.freeCtr := rfl

/-! ### sdOff -/

@[simp] theorem sdOff_cfg (s : State) : (sdOff s).cfg = s.cfg := rfl
@[simp] theorem sdOff_k (s : State) : (sdOff s).k = s.k := rfl
@[simp] theorem sdOff_agcP (s : State) : (sdOff s).agcP = s.agcP := rfl
@[simp] theorem sdOff_edge (s : State) : (sdOff s).edge = s.edge := rfl
@[simp] theorem sdOff_fr (s : State) : (sdOff s).fr = s.fr := rfl
@[simp] theorem sdOff_std (s : State) : (sdOff s).std = s.std := rfl
@[simp] theorem sdOff_fast (s : State) : (sdOff s).fast = s.fast := rfl
@[simp] theorem sdOff_st (s : State) : (sdOff s).st = offSnapshot s := rfl
@[simp] theorem sdOff_evq (s : State) : (sdOff s).evq = s.evq ++ [offSnapshot s] := rfl
@[simp] theorem sdOff_cmdIn (s : State) : (sdOff s).cmdIn = s.cmdIn := rfl
@[simp] theorem sdOff_freeCtr (s : State) : (sdOff s).freeCtr = s.freeCtr := rfl

/-! ### sdKeepalive -/

@[simp] theorem sdKeepalive_cfg (s : State) : (sdKeepalive s).cfg = s.cfg := rfl
@[simp] theorem sdKeepalive_k (s : State) : (sdKeepalive s).k = s.k := rfl
@[simp] theorem sdKeepalive_agcP (s : State) : (sdKeepalive s).agcP = s.agcP := rfl
@[simp] theorem sdKeepalive_edge (s : State) : (sdKeepalive s).edge = s.edge := rfl
@[simp] theorem sdKeepalive_fr (s : State) : (sdKeepalive s).fr = s.fr := rfl
@[simp] theorem sdKeepalive_std (s : State) : (sdKeepalive s).std = s.std := rfl
@[simp] theorem sdKeepalive_fast (s : State) : (sdKeepalive s).fast = s.fast := rfl
@[simp] theorem sdKeepalive_st (s : State) : (sdKeepalive s).st = keepaliveSnapshot s := rfl
@[simp] theorem sdKeepalive_evq (s : State) : (sdKeepalive s).evq = s.evq ++ [keepaliveSnapshot s] := rfl
@[simp] theorem sdKeepalive_cmdIn (s : State) : (sdKeepalive s).cmdIn = s.cmdIn := rfl
@[simp] theorem sdKeepalive_freeCtr (s : State) : (sdKeepalive s).freeCtr = s.freeCtr := rfl

/-! ### frIdle -/

@[simp] theorem frIdle_cfg (b : Chip) (s : State) : (frIdle b s).cfg = s.cfg := rfl
@[simp] theorem frIdle_k (b : Chip) (s : State) : (frIdle b s).k = s.k := rfl
@[simp] theorem frIdle_agcP (b : Chip) (s : State) : (frIdle b s).agcP = s.agcP := rfl
@[simp] theorem frIdle_edge (b : Chip) (s : State) : (frIdle b s).edge = s.edge := rfl
@[simp] theorem frIdle_fr (b : Chip) (s : State) : (frIdle b s).fr = { s.fr with idleVal := b } := rfl
@[simp] theorem frIdle_std (b : Chip) (s : State) : (frIdle b s).std = { s.std with chipCnt := 0, byteCnt := 0 } := rfl
@[simp] theorem frIdle_fast (b : Chip) (s : State) : (frIdle b s).fast = s.fast := rfl
@[simp] theorem frIdle_st (b : Chip) (s : State) : (frIdle b s).st = s.st := rfl
@[simp] theorem frIdle_evq (b : Chip) (s : State) : (frIdle b s).evq = s.evq := rfl
@[simp] theorem frIdle_cmdIn (b : Chip) (s : State) : (frIdle b s).cmdIn = s.cmdIn := rfl
@[simp] theorem frIdle_freeCtr (b : Chip) (s : State) : (frIdle b s).freeCtr = s.freeCtr := rfl

/-! ### frClearAcc -/

@[simp] theorem frClearAcc_cfg (s : State) : (frClearAcc s).cfg = s.cfg := rfl
@[simp] theorem frClearAcc_k (s : State) : (frClearAcc s).k = s.k := rfl
@[simp] theorem frClearAcc_agcP (s : State) : (frClearAcc s).agcP = s.agcP := rfl
@[simp] theorem frClearAcc_edge (s : State) : (frClearAcc s).edge = s.edge := rfl
@[simp] theorem frClearAcc_fr (s : State) : (frClearAcc s).fr = s.fr := rfl
@[simp] theorem frClearAcc_std (s : State) : (frClearAcc s).std = { s.std with chipCnt := 0 } := rfl
@[simp] theorem frClearAcc_fast (s : State) : (frClearAcc s).fast = s.fast := rfl
@[simp] theorem frClearAcc_st (s : State) : (frClearAcc s).st = s.st := rfl
@[simp] theorem frClearAcc_evq (s : State) : (frClearAcc s).evq = s.evq := rfl
@[simp] theorem frClearAcc_cmdIn (s : State) : (frClearAcc s).cmdIn = s.cmdIn := rfl
@[simp] theorem frClearAcc_freeCtr (s : State) : (frClearAcc s).freeCtr = s.freeCtr := rfl

/-! ### ffArm -/

@[simp] theorem ffArm_cfg (b : Chip) (s : State) : (ffArm b s).cfg = s.cfg := rfl
@[simp] theorem ffArm_k (b : Chip) (s : State) : (ffArm b s).k = s.k := rfl
@[simp] theorem ffArm_agcP (b : Chip) (s : State) : (ffArm b s).agcP = s.agcP := rfl
@[simp] theorem ffArm_edge (b : Chip) (s : State) : (ffArm b s).edge = s.edge := rfl
@[simp] theorem ffArm_fr (b : Chip) (s : State) : (ffArm b s).fr = { s.fr with idleVal := b } := rfl
@[simp] theorem ffArm_std (b : Chip) (s : State) : (ffArm b s).std = s.std := rfl
@[simp] theorem ffArm_fast (b : Chip) (s : State) : (ffArm b s).fast = { s.fast with inframe := false, cnt := 0, armed := true } := rfl
@[simp] theorem ffArm_st (b : Chip) (s : State) : (ffArm b s).st = s.st := rfl
@[simp] theorem ffArm_evq (b : Chip) (s : State) : (ffArm b s).evq = s.evq := rfl
@[simp] theorem ffArm_cmdIn (b : Chip) (s : State) : (ffArm b s).cmdIn = s.cmdIn := rfl
@[simp] theorem ffArm_freeCtr (b : Chip) (s : State) : (ffArm b s).freeCtr = s.freeCtr := rfl

/-! ### ffStart -/

@[simp] theorem ffStart_cfg (s : State) : (ffStart s).cfg = s.cfg := rfl
@[simp] theorem ffStart_k (s : State) : (ffStart s).k = s.k := rfl
@[simp] theorem ffStart_agcP (s : State) : (ffStart s).agcP = s.agcP := rfl
@[simp] theorem ffStart_edge (s : State) : (ffStart s).edge = s.edge := rfl
@[simp] theorem ffStart_fr (s : State) : (ffStart s).fr = s.fr := rfl
@[simp] theorem ffStart_std (s : State) : (ffStart s).std = s.std := rfl
@[simp] theorem ffStart_fast (s : State) : (ffStart s).fast = { s.fast with inframe := true, cnt := 0, armed := false } := rfl
@[simp] theorem ffStart_st (s : State) : (ffStart s).st = s.st := rfl
@[simp] theorem ffStart_evq (s : State) : (ffStart s).evq = s.evq := rfl
@[simp] theorem ffStart_cmdIn (s : State) : (ffStart s).cmdIn = s.cmdIn := rfl
@[simp] theorem ffStart_freeCtr (s : State) : (ffStart s).freeCtr = s.freeCtr := rfl

/-! ### ffEnd -/

@[simp] theorem ffEnd_cfg (s : State) : (ffEnd s).cfg = s.cfg := rfl
@[simp] theorem ffEnd_k (s : State) : (ffEnd s).k = s.k := rfl
@[simp] theorem ffEnd_agcP (s : State) : (ffEnd s).agcP = s.agcP := rfl
@[simp] theorem ffEnd_edge (s : State) : (ffEnd s).edge = s.edge := rfl
@[simp] theorem ffEnd_fr (s : State) : (ffEnd s).fr = s.fr := rfl
@[simp] theorem ffEnd_std (s : State) : (ffEnd s).std = s.std := rfl
@[simp] theorem ffEnd_fast (s : State) : (ffEnd s).fast = { s.fast with inframe := false, armed := true } := rfl
@[simp] theorem ffEnd_st (s : State) : (ffEnd s).st = s.st := rfl
@[simp] theorem ffEnd_evq (s : State) : (ffEnd s).evq = s.evq := rfl
@[simp] theorem ffEnd_cmdIn (s : State) : (ffEnd s).cmdIn = s.cmdIn := rfl
@[simp] theorem ffEnd_freeCtr (s : State) : (ffEnd s).freeCtr = s.freeCtr := rfl

/-! ### agcUpdate -/

@[simp] theorem agcUpdate_cfg (x : F64) (s : State) : (agcUpdate x s).cfg = s.cfg := rfl
@[simp] theorem agcUpdate_k (x : F64) (s : State) : (agcUpdate x s).k = s.k := rfl
@[simp] theorem agcUpdate_agcP (x : F64) (s : State) : (agcUpdate x s).agcP = agcPower s.k.alpha s.agcP x := rfl
@[simp] theorem agcUpdate_edge (x : F64) (s : State) : (agcUpdate x s).edge = s.edge := rfl
@[simp] theorem agcUpdate_fr (x : F64) (s : State) : (agcUpdate x s).fr = s.fr := rfl
@[simp] theorem agcUpdate_std (x : F64) (s : State) : (agcUpdate x s).std = s.std := rfl
@[simp] theorem agcUpdate_fast (x : F64) (s : State) : (agcUpdate x s).fast = s.fast := rfl
@[simp] theorem agcUpdate_st (x : F64) (s : State) : (agcUpdate x s).st = s.st := rfl
@[simp] theorem agcUpdate_evq (x : F64) (s : State) : (agcUpdate x s).evq = s.evq := rfl
@[simp] theorem agcUpdate_cmdIn (x : F64) (s : State) : (agcUpdate x s).cmdIn = s.cmdIn := rfl
@[simp] theorem agcUpdate_freeCtr (x : F64) (s : State) : (agcUpdate x s).freeCtr = s.freeCtr := rfl

/-! ### edDelay -/

@[simp] theorem edDelay_cfg (c : F64) (s : State) : (edDelay c s).cfg = s.cfg := rfl
@[simp] theorem edDelay_k (c : F64) (s : State) : (edDelay c s).k = s.k := rfl
@[simp] theorem edDelay_agcP (c : F64) (s : State) : (edDelay c s).agcP = s.agcP := rfl
@[simp] theorem edDelay_edge (c : F64) (s : State) : (edDelay c s).edge = delayPush s.k.dlen c s.edge := rfl
@[simp] theorem edDelay_fr (c : F64) (s : State) : (edDelay c s).fr = s.fr := rfl
@[simp] theorem edDelay_std (c : F64) (s : State) : (edDelay c s).std = s.std := rfl
@[simp] theorem edDelay_fast (c : F64) (s : State) : (edDelay c s).fast = s.fast := rfl
@[simp] theorem edDelay_st (c : F64) (s : State) : (edDelay c s).st = s.st := rfl
@[simp] theorem edDelay_evq (c : F64) (s : State) : (edDelay c s).evq = s.evq := rfl
@[simp] theorem edDelay_cmdIn (c : F64) (s : State) : (edDelay c s).cmdIn = s.cmdIn := rfl
@[simp] theorem edDelay_freeCtr (c : F64) (s : State) : (edDelay c s).freeCtr = s.freeCtr := rfl

/-! ### edFlip -/

@[simp] theorem edFlip_cfg (s : State) : (edFlip s).cfg = s.cfg := rfl
@[simp] theorem edFlip_k (s : State) : (edFlip s).k = s.k := rfl
@[simp] theorem edFlip_agcP (s : State) : (edFlip s).agcP = s.agcP := rfl
@[simp] theorem edFlip_edge (s : State) : (edFlip s).edge = { s.edge with lastSgn := !s.edge.lastSgn, lvk := fzeroPos } := rfl
@[simp] theorem edFlip_fr (s : State) : (edFlip s).fr = s.fr := rfl
@[simp] theorem edFlip_std (s : State) : (edFlip s).std = s.std := rfl
@[simp] theorem edFlip_fast (s : State) : (edFlip s).fast = s.fast := rfl
@[simp] theorem edFlip_st (s : State) : (edFlip s).st = s.st := rfl
@[simp] theorem edFlip_evq (s : State) : (edFlip s).evq = s.evq := rfl
@[simp] theorem edFlip_cmdIn (s : State) : (edFlip s).cmdIn = s.cmdIn := rfl
@[simp] theorem edFlip_freeCtr (s : State) : (edFlip s).freeCtr = s.freeCtr := rfl

/-! ### edTakeChip -/

@[simp] theorem edTakeChip_cfg (s : State) : (edTakeChip s).cfg = s.cfg := rfl
@[simp] theorem edTakeChip_k (s : State) : (edTakeChip s).k = s.k := rfl
@[simp] theorem edTakeChip_agcP (s : State) : (edTakeChip s).agcP = s.agcP := rfl
@[simp] theorem edTakeChip_edge (s : State) : (edTakeChip s).edge = { s.edge with lvk := fsub s.edge.lvk s.k.f } := rfl
@[simp] theorem edTakeChip_fr (s : State) : (edTakeChip s).fr = s.fr := rfl
@[simp] theorem edTakeChip_std (s : State) : (edTakeChip s).std = s.std := rfl
@[simp] theorem edTakeChip_fast (s : State) : (edTakeChip s).fast = s.fast := rfl
@[simp] theorem edTakeChip_st (s : State) : (edTakeChip s).st = s.st := rfl
@[simp] theorem edTakeChip_evq (s : State) : (edTakeChip s).evq = s.evq := rfl
@[simp] theorem edTakeChip_cmdIn (s : State) : (edTakeChip s).cmdIn = s.cmdIn := rfl
@[simp] theorem edTakeChip_freeCtr (s : State) : (edTakeChip s).freeCtr = s.freeCtr := rfl

/-! ### edTick -/

@[simp] theorem edTick_cfg (s : State) : (edTick s).cfg = s.cfg := rfl
@[simp] theorem edTick_k (s : State) : (edTick s).k = s.k := rfl
@[simp] theorem edTick_agcP (s : State) : (edTick s).agcP = s.agcP := rfl
@[simp] theorem edTick_edge (s : State) : (edTick s).edge = { s.edge with lvk := fadd s.edge.lvk fone } := rfl
@[simp] theorem edTick_fr (s : State) : (edTick s).fr = s.fr := rfl
@[simp] theorem edTick_std (s : State) : (edTick s).std = s.std := rfl
@[simp] theorem edTick_fast (s : State) : (edTick s).fast = s.fast := rfl
@[simp] theorem edTick_st (s : State) : (edTick s).st = s.st := rfl
@[simp] theorem edTick_evq (s : State) : (edTick s).evq = s.evq := rfl
@[simp] theorem edTick_cmdIn (s : State) : (edTick s).cmdIn = s.cmdIn := rfl
@[simp] theorem edTick_freeCtr (s : State) : (edTick s).freeCtr = s.freeCtr := rfl

/-! ### edDistortion -/

@[simp] theorem edDistortion_cfg (c : F64) (s : State) : (edDistortion c s).cfg = s.cfg := rfl
@[simp] theorem edDistortion_k (c : F64) (s : State) : (edDistortion c s).k = s.k := rfl
@[simp] theorem edDistortion_agcP (c : F64) (s : State) : (edDistortion c s).agcP = s.agcP := rfl
@[simp] theorem edDistortion_edge (c : F64) (s : State) : (edDistortion c s).edge = { s.edge with dist := distAfter s.k.alpha s.edge.dist c s.edge.lastSgn s.fr.run.toNat } := rfl
@[simp] theorem edDistortion_fr (c : F64) (s : State) : (edDistortion c s).fr = s.fr := rfl
@[simp] theorem edDistortion_std (c : F64) (s : State) : (edDistortion c s).std = s.std := rfl
@[simp] theorem edDistortion_fast (c : F64) (s : State) : (edDistortion c s).fast = s.fast := rfl
@[simp] theorem edDistortion_st (c : F64) (s : State) : (edDistortion c s).st = s.st := rfl
@[simp] theorem edDistortion_evq (c : F64) (s : State) : (edDistortion c s).evq = s.evq := rfl
@[simp] theorem edDistortion_cmdIn (c : F64) (s : State) : (edDistortion c s).cmdIn = s.cmdIn := rfl
@[simp] theorem edDistortion_freeCtr (c : F64) (s : State) : (edDistortion c s).freeCtr = s.freeCtr := rfl

/-! ### clearDecoder -/

@[simp] theorem clearDecoder_cfg (v : Variant) (s : State) : (clearDecoder v s).cfg = s.cfg := rfl
@[simp] theorem clearDecoder_k (v : Variant) (s : State) : (clearDecoder v s).k = s.k := rfl
@[simp] theorem clearDecoder_agcP (v : Variant) (s : State) : (clearDecoder v s).agcP = oneBits := rfl
@[simp] theorem clearDecoder_edge (v : Variant) (s : State) : (clearDecoder v s).edge = resetEdge := rfl
@[simp] theorem clearDecoder_fr (v : Variant) (s : State) : (clearDecoder v s).fr = resetFramer := rfl
@[simp] theorem clearDecoder_std (v : Variant) (s : State) : (clearDecoder v s).std = resetStd := rfl
@[simp] theorem clearDecoder_fast (v : Variant) (s : State) : (clearDecoder v s).fast = resetFast := rfl
@[simp] theorem clearDecoder_st (v : Variant) (s : State) : (clearDecoder v s).st = resetSnapshot v := rfl
@[simp] theorem clearDecoder_evq (v : Variant) (s : State) : (clearDecoder v s).evq = s.evq := rfl
@[simp] theorem clearDecoder_cmdIn (v : Variant) (s : State) : (clearDecoder v s).cmdIn = s.cmdIn := rfl
@[simp] theorem clearDecoder_freeCtr (v : Variant) (s : State) : (clearDecoder v s).freeCtr = s.freeCtr := rfl

/-! ### latchConfig -/

@[simp] theorem latchConfig_agcP (v : Variant) (r : BitVec 24) (b : F32) (s : State) :
    (latchConfig v r b s).agcP = s.agcP := by unfold latchConfig; split <;> rfl
@[simp] theorem latchConfig_edge (v : Variant) (r : BitVec 24) (b : F32) (s : State) :
    (latchConfig v r b s).edge = s.edge := by unfold latchConfig; split <;> rfl
@[simp] theorem latchConfig_fr (v : Variant) (r : BitVec 24) (b : F32) (s : State) :
    (latchConfig v r b s).fr = s.fr := by unfold latchConfig; split <;> rfl
@[simp] theorem latchConfig_std (v : Variant) (r : BitVec 24) (b : F32) (s : State) :
    (latchConfig v r b s).std = s.std := by unfold latchConfig; split <;> rfl
@[simp] theorem latchConfig_fast (v : Variant) (r : BitVec 24) (b : F32) (s : State) :
    (latchConfig v r b s).fast = s.fast := by unfold latchConfig; split <;> rfl
@[simp] theorem latchConfig_st (v : Variant) (r : BitVec 24) (b : F32) (s : State) :
    (latchConfig v r b s).st = s.st := by unfold latchConfig; split <;> rfl
@[simp] theorem latchConfig_evq (v : Variant) (r : BitVec 24) (b : F32) (s : State) :
    (latchConfig v r b s).evq = s.evq := by unfold latchConfig; split <;> rfl
@[simp] theorem latchConfig_cmdIn (v : Variant) (r : BitVec 24) (b : F32) (s : State) :
    (latchConfig v r b s).cmdIn = s.cmdIn := by unfold latchConfig; split <;> rfl
@[simp] theorem latchConfig_cfg (v : Variant) (r : BitVec 24) (b : F32) (s : State) :
    (latchConfig v r b s).cfg = latchedConfig v r b := by unfold latchConfig; split <;> rfl

theorem latchConfig_legal {v : Variant} {r : BitVec 24} {b : F32} (h : legalConfig r b = true) (s : State) :
    (latchConfig v r b s).k = derivedConstants v r ∧ (latchConfig v r b s).freeCtr = s.freeCtr := by
  simp [latchConfig, h]

theorem latchConfig_illegal {v : Variant} {r : BitVec 24} {b : F32} (h : legalConfig r b = false) (s : State) :
    (latchConfig v r b s).k = unspecifiedConstants s.freeCtr ∧ (latchConfig v r b s).freeCtr = s.freeCtr + 1 := by
  simp [latchConfig, h]

/-! ### Taking a command -/

@[simp] theorem takeCommand_issue (w : Command) (s : State) : takeCommand (issueCommand w s) = some (w, s) := rfl

/-- What a step can do: nothing, with no command issued, or the execution of the decoded head command. -/
theorem step_cases (s : State) :
    (s.cmdIn = [] ∧ step s = .next s) ∨
      ∃ w rest, s.cmdIn = w :: rest ∧ step s = exec (decode w) { s with cmdIn := rest } := by
  rcases h : s.cmdIn with _ | ⟨w, rest⟩
  · exact Or.inl ⟨rfl, by simp [step, takeCommand, h]⟩
  · exact Or.inr ⟨w, rest, rfl, by simp [step, takeCommand, h]⟩

/-! ### Framer records -/

@[simp] theorem frRun_lastBit (b : Chip) (f : FramerRegs) : (frRun b f).lastBit = b := rfl
@[simp] theorem frRun_run (b : Chip) (f : FramerRegs) : (frRun b f).run = if b = f.lastBit then satInc f.run else 1 := rfl
@[simp] theorem frRun_nsl (b : Chip) (f : FramerRegs) : (frRun b f).nsl = satInc f.nsl := rfl
@[simp] theorem frRun_idleVal (b : Chip) (f : FramerRegs) : (frRun b f).idleVal = f.idleVal := rfl

@[simp] theorem frAppend_chipAcc (b : Chip) (r : StdRegs) :
    (frAppend b r).chipAcc = r.chipAcc.setIfInBounds r.chipCnt.toNat b := rfl
@[simp] theorem frAppend_chipCnt (b : Chip) (r : StdRegs) : (frAppend b r).chipCnt = r.chipCnt + 1 := rfl
@[simp] theorem frAppend_byteBuf (b : Chip) (r : StdRegs) : (frAppend b r).byteBuf = r.byteBuf := rfl
@[simp] theorem frAppend_byteCnt (b : Chip) (r : StdRegs) : (frAppend b r).byteCnt = r.byteCnt := rfl

@[simp] theorem frSlide_chipCnt (r : StdRegs) : (frSlide r).chipCnt = 9 := rfl
@[simp] theorem frSlide_byteBuf (r : StdRegs) : (frSlide r).byteBuf = r.byteBuf := rfl
@[simp] theorem frSlide_byteCnt (r : StdRegs) : (frSlide r).byteCnt = r.byteCnt := rfl

@[simp] theorem frStoreByte_chipAcc (x : Byte) (r : StdRegs) : (frStoreByte x r).chipAcc = r.chipAcc := rfl
@[simp] theorem frStoreByte_chipCnt (x : Byte) (r : StdRegs) : (frStoreByte x r).chipCnt = r.chipCnt := rfl
@[simp] theorem frStoreByte_byteCnt (x : Byte) (r : StdRegs) :
    (frStoreByte x r).byteCnt = BitVec.ofNat 4 (min (r.byteCnt.toNat + 1) (byteBufCap + 1)) := rfl

@[simp] theorem ffStore_armed (b : Chip) (r : FastRegs) : (ffStore b r).armed = r.armed := rfl
@[simp] theorem ffStore_inframe (b : Chip) (r : FastRegs) : (ffStore b r).inframe = r.inframe := rfl
@[simp] theorem ffStore_cnt (b : Chip) (r : FastRegs) : (ffStore b r).cnt = r.cnt + 1 := rfl
@[simp] theorem ffStore_chips (b : Chip) (r : FastRegs) :
    (ffStore b r).chips = r.chips.setIfInBounds r.cnt.toNat b := rfl

@[simp] theorem delayPush_dl (n : BitVec 12) (c : F64) (e : EdgeRegs) :
    (delayPush n c e).dl = e.dl.set e.dlPtr.toNat c e.dlPtr.isLt := rfl
@[simp] theorem delayPush_dlPtr (n : BitVec 12) (c : F64) (e : EdgeRegs) :
    (delayPush n c e).dlPtr = BitVec.ofNat 12 ((e.dlPtr.toNat + 1) % n.toNat) := rfl
@[simp] theorem delayPush_lastSgn (n : BitVec 12) (c : F64) (e : EdgeRegs) : (delayPush n c e).lastSgn = e.lastSgn := rfl
@[simp] theorem delayPush_lvk (n : BitVec 12) (c : F64) (e : EdgeRegs) : (delayPush n c e).lvk = e.lvk := rfl
@[simp] theorem delayPush_dist (n : BitVec 12) (c : F64) (e : EdgeRegs) : (delayPush n c e).dist = e.dist := rfl

/-- The saturating increment, as a number. -/
theorem satInc_toNat (x : BitVec 32) : (satInc x).toNat = min (x.toNat + 1) (2 ^ 32 - 1) := by
  unfold satInc
  have := x.isLt
  split
  next h => subst h; rfl
  next h =>
    have hne : x.toNat ≠ 2 ^ 32 - 1 := fun hc => h (BitVec.eq_of_toNat_eq (by rw [hc]; rfl))
    rw [BitVec.toNat_add, show (1 : BitVec 32).toNat = 1 from rfl]
    omega

end Sys2Proof.Machine
end

