-- ==== Sys2Proof/Laws/Chips.lean ====
section
/-! SUPPORT. Laws/Chips.lean: what one chip can do: which cases each framer operation has, what it leaves alone, and which
event it appends. A proof about chips cites these and never unfolds a framer. -/

namespace Sys2Proof.Machine

/-- What no framer operation touches: the configuration, the derived constants, the AGC, the EdgeDetector, the commands
still to come and the model's draw counter. -/
structure ChipFrame (s t : State) : Prop where
  cfg : t.cfg = s.cfg
  k : t.k = s.k
  agcP : t.agcP = s.agcP
  edge : t.edge = s.edge
  cmdIn : t.cmdIn = s.cmdIn
  freeCtr : t.freeCtr = s.freeCtr

theorem ChipFrame.rfl' (s : State) : ChipFrame s s := ⟨rfl, rfl, rfl, rfl, rfl, rfl⟩

theorem ChipFrame.trans {s t u : State} (h : ChipFrame s t) (g : ChipFrame t u) : ChipFrame s u :=
  ⟨g.cfg.trans h.cfg, g.k.trans h.k, g.agcP.trans h.agcP, g.edge.trans h.edge, g.cmdIn.trans h.cmdIn,
    g.freeCtr.trans h.freeCtr⟩

/-- `t` follows `s` without an event, the held state unchanged. -/
def NoEvent (s t : State) : Prop := t.evq = s.evq ∧ t.st = s.st

/-- `t` follows `s` with the one event `x`, which is the held state of `t` and carries the power and the noise of `s`. -/
def OneEvent (x : Snapshot) (s t : State) : Prop :=
  t.evq = s.evq ++ [x] ∧ t.st = x ∧ x.power = s.agcP ∧ x.noise = sdNoise s.edge.dist

/-! ## Cases -/

theorem fdDecode_cases (s : State) :
    fdDecode s = s ∨
      ∃ n, (n = 9 ∨ n = 10) ∧ s.std.byteCnt.toNat = n ∧ fdAccepts n s.std.byteBuf = true ∧
        fdDecode s = sdDerive (bufByte s.std.byteBuf 0) (fdTime n s.std.byteBuf) (fdUnit n) s := by
  unfold fdDecode
  simp only
  split
  · exact Or.inl rfl
  next h =>
    split
    next ha => exact Or.inr ⟨s.std.byteCnt.toNat, by omega, rfl, ha, rfl⟩
    · exact Or.inl rfl

theorem idleTests_cases (off ka : Nat) (clamp : BitVec 32) (s : State) :
    (off < s.fr.run.toNat ∧ s.st.on = true ∧ idleTests off ka clamp s = sdOff s) ∨
      (¬ (off < s.fr.run.toNat ∧ s.st.on = true) ∧ ka < s.fr.nsl.toNat ∧
        idleTests off ka clamp s = sdKeepalive (setFr { s.fr with nsl := clamp } s)) ∨
      (¬ (off < s.fr.run.toNat ∧ s.st.on = true) ∧ ¬ ka < s.fr.nsl.toNat ∧ idleTests off ka clamp s = s) := by
  unfold idleTests
  split
  next h => exact Or.inl ⟨h.1, h.2, rfl⟩
  next h =>
    split
    next hk => exact Or.inr (Or.inl ⟨h, hk, rfl⟩)
    next hk => exact Or.inr (Or.inr ⟨h, hk, rfl⟩)

theorem frAccumulate_cases (b : Chip) (s : State) :
    ((s.std.chipCnt + 1).toNat ≠ stdFrameChips ∧ frAccumulate b s = setStd (frAppend b s.std) s) ∨
      ((s.std.chipCnt + 1).toNat = stdFrameChips ∧ frFrameCheck s.fr.idleVal (frAppend b s.std).chipAcc = true ∧
        frAccumulate b s = frByte (setStd (frAppend b s.std) s)) ∨
      ((s.std.chipCnt + 1).toNat = stdFrameChips ∧ frFrameCheck s.fr.idleVal (frAppend b s.std).chipAcc = false ∧
        frAccumulate b s = setStd (frSlide (frAppend b s.std)) s) := by
  by_cases h : (s.std.chipCnt + 1).toNat = stdFrameChips
  · rcases hc : frFrameCheck s.fr.idleVal (frAppend b s.std).chipAcc
    · exact Or.inr (Or.inr ⟨h, rfl, (if_pos h).trans (if_neg (by simpa using hc))⟩)
    · exact Or.inr (Or.inl ⟨h, rfl, (if_pos h).trans (if_pos hc)⟩)
  · exact Or.inl ⟨h, if_neg h⟩

theorem stdChip_cases (b : Chip) (s : State) :
    (stdIdleRun < (frRun b s.fr).run.toNat ∧
        stdChip b s = idleTests stdOffRun stdKaNsl stdKaClamp (frIdle b (setFr (frRun b s.fr) s))) ∨
      (¬ stdIdleRun < (frRun b s.fr).run.toNat ∧ stdChip b s = frAccumulate b (setFr (frRun b s.fr) s)) := by
  by_cases h : stdIdleRun < (frRun b s.fr).run.toNat
  · exact Or.inl ⟨h, if_pos h⟩
  · exact Or.inr ⟨h, if_neg h⟩

theorem ffCollect_cases (b : Chip) (s : State) :
    ((s.fast.cnt + 1).toNat = fastFrameChips ∧ ffCollect b s = ffEnd (ffDecode (setFast (ffStore b s.fast) s))) ∨
      ((s.fast.cnt + 1).toNat ≠ fastFrameChips ∧ ffCollect b s = (setFast (ffStore b s.fast) s)) := by
  by_cases h : (s.fast.cnt + 1).toNat = fastFrameChips
  · exact Or.inl ⟨h, if_pos h⟩
  · exact Or.inr ⟨h, if_neg h⟩

theorem fastChip_cases (b : Chip) (s : State) :
    (fastIdleRun < (frRun b s.fr).run.toNat ∧ fastChip b s = ffIdle b (setFr (frRun b s.fr) s)) ∨
      (¬ fastIdleRun < (frRun b s.fr).run.toNat ∧ s.fast.inframe = true ∧
        fastChip b s = ffCollect b (setFr (frRun b s.fr) s)) ∨
      (¬ fastIdleRun < (frRun b s.fr).run.toNat ∧ s.fast.inframe = false ∧ s.fast.armed = true ∧ b ≠ s.fr.idleVal ∧
        fastChip b s = ffStart (setFr (frRun b s.fr) s)) ∨
      (¬ fastIdleRun < (frRun b s.fr).run.toNat ∧ s.fast.inframe = false ∧
        ¬ (s.fast.armed = true ∧ b ≠ s.fr.idleVal) ∧ fastChip b s = (setFr (frRun b s.fr) s)) := by
  by_cases h : fastIdleRun < (frRun b s.fr).run.toNat
  · exact Or.inl ⟨h, if_pos h⟩
  · have h1 : fastChip b s = _ := if_neg h
    rcases hi : s.fast.inframe
    · rw [show (setFr (frRun b s.fr) s).fast.inframe = false from hi, if_neg (by simp)] at h1
      by_cases ha : s.fast.armed = true ∧ b ≠ s.fr.idleVal
      · exact Or.inr (Or.inr (Or.inl ⟨h, rfl, ha.1, ha.2, h1.trans (if_pos ha)⟩))
      · exact Or.inr (Or.inr (Or.inr ⟨h, rfl, ha, h1.trans (if_neg ha)⟩))
    · exact Or.inr (Or.inl ⟨h, rfl, h1.trans (if_pos hi)⟩)

/-! ## Frame and events

Each operation keeps the frame, and appends no event or one. -/

/-- What an operation of the framers may do to the rest of the machine. -/
def ChipEffect (s t : State) : Prop := ChipFrame s t ∧ (NoEvent s t ∨ ∃ x, OneEvent x s t)

theorem ChipEffect.none {s t : State} (f : ChipFrame s t) (e : t.evq = s.evq) (g : t.st = s.st) : ChipEffect s t :=
  ⟨f, Or.inl ⟨e, g⟩⟩

/-- An effect after a change of framer registers alone is an effect. -/
theorem ChipEffect.after {s s' t : State} (f : ChipFrame s s') (e : s'.evq = s.evq) (g : s'.st = s.st)
    (h : ChipEffect s' t) : ChipEffect s t := by
  refine ⟨f.trans h.1, ?_⟩
  rcases h.2 with ⟨h1, h2⟩ | ⟨x, h1, h2, h3, h4⟩
  · exact Or.inl ⟨h1.trans e, h2.trans g⟩
  · exact Or.inr ⟨x, by rw [h1, e], h2, h3.trans f.agcP, by rw [h4, f.edge]⟩

/-- A change of framer registers alone after an effect is an effect. -/
theorem ChipEffect.before {s t t' : State} (h : ChipEffect s t) (f : ChipFrame t t') (e : t'.evq = t.evq)
    (g : t'.st = t.st) : ChipEffect s t' := by
  refine ⟨h.1.trans f, ?_⟩
  rcases h.2 with ⟨h1, h2⟩ | ⟨x, h1, h2, h3, h4⟩
  · exact Or.inl ⟨e.trans h1, g.trans h2⟩
  · exact Or.inr ⟨x, by rw [e, h1], by rw [g, h2], h3, h4⟩

theorem sdDerive_effect (h : Byte) (t : Nat) (u : BitVec 4) (s : State) : ChipEffect s (sdDerive h t u s) :=
  ⟨⟨rfl, rfl, rfl, rfl, rfl, rfl⟩, Or.inr ⟨_, rfl, rfl, rfl, rfl⟩⟩

theorem sdOff_effect (s : State) : ChipEffect s (sdOff s) :=
  ⟨⟨rfl, rfl, rfl, rfl, rfl, rfl⟩, Or.inr ⟨_, rfl, rfl, rfl, rfl⟩⟩

theorem sdKeepalive_effect (s : State) : ChipEffect s (sdKeepalive s) :=
  ⟨⟨rfl, rfl, rfl, rfl, rfl, rfl⟩, Or.inr ⟨_, rfl, rfl, rfl, rfl⟩⟩

theorem fdDecode_effect (s : State) : ChipEffect s (fdDecode s) := by
  rcases fdDecode_cases s with h | ⟨n, -, -, -, h⟩ <;> rw [h]
  · exact ChipEffect.none (ChipFrame.rfl' s) rfl rfl
  · exact sdDerive_effect _ _ _ s

theorem idleTests_effect (off ka : Nat) (clamp : BitVec 32) (s : State) : ChipEffect s (idleTests off ka clamp s) := by
  rcases idleTests_cases off ka clamp s with ⟨-, -, h⟩ | ⟨-, -, h⟩ | ⟨-, -, h⟩ <;> rw [h]
  · exact sdOff_effect s
  · exact ChipEffect.after (s' := (setFr { s.fr with nsl := clamp } s)) ⟨rfl, rfl, rfl, rfl, rfl, rfl⟩ rfl rfl
      (sdKeepalive_effect _)
  · exact ChipEffect.none (ChipFrame.rfl' s) rfl rfl

theorem frByte_effect (s : State) : ChipEffect s (frByte s) :=
  ChipEffect.before
    (ChipEffect.after (s' := setStd (frStoreByte (frByteValue s.fr.idleVal s.std.chipAcc) s.std) s)
      ⟨rfl, rfl, rfl, rfl, rfl, rfl⟩ rfl rfl (fdDecode_effect _))
    ⟨rfl, rfl, rfl, rfl, rfl, rfl⟩ rfl rfl

theorem frAccumulate_effect (b : Chip) (s : State) : ChipEffect s (frAccumulate b s) := by
  rcases frAccumulate_cases b s with ⟨-, h⟩ | ⟨-, -, h⟩ | ⟨-, -, h⟩ <;> rw [h]
  · exact ChipEffect.none ⟨rfl, rfl, rfl, rfl, rfl, rfl⟩ rfl rfl
  · exact ChipEffect.after (s' := setStd (frAppend b s.std) s) ⟨rfl, rfl, rfl, rfl, rfl, rfl⟩ rfl rfl
      (frByte_effect _)
  · exact ChipEffect.none ⟨rfl, rfl, rfl, rfl, rfl, rfl⟩ rfl rfl

theorem stdChip_effect (b : Chip) (s : State) : ChipEffect s (stdChip b s) := by
  rcases stdChip_cases b s with ⟨-, h⟩ | ⟨-, h⟩ <;> rw [h]
  · exact ChipEffect.after (s' := frIdle b (setFr (frRun b s.fr) s)) ⟨rfl, rfl, rfl, rfl, rfl, rfl⟩ rfl rfl
      (idleTests_effect _ _ _ _)
  · exact ChipEffect.after (s' := (setFr (frRun b s.fr) s)) ⟨rfl, rfl, rfl, rfl, rfl, rfl⟩ rfl rfl
      (frAccumulate_effect b _)

theorem ffCollect_effect (b : Chip) (s : State) : ChipEffect s (ffCollect b s) := by
  rcases ffCollect_cases b s with ⟨-, h⟩ | ⟨-, h⟩ <;> rw [h]
  · exact ChipEffect.before
      (ChipEffect.after (s' := (setFast (ffStore b s.fast) s)) ⟨rfl, rfl, rfl, rfl, rfl, rfl⟩ rfl rfl
        (sdDerive_effect _ _ _ _))
      ⟨rfl, rfl, rfl, rfl, rfl, rfl⟩ rfl rfl
  · exact ChipEffect.none ⟨rfl, rfl, rfl, rfl, rfl, rfl⟩ rfl rfl

theorem fastChip_effect (b : Chip) (s : State) : ChipEffect s (fastChip b s) := by
  rcases fastChip_cases b s with ⟨-, h⟩ | ⟨-, -, h⟩ | ⟨-, -, -, -, h⟩ | ⟨-, -, -, h⟩ <;> rw [h]
  · exact ChipEffect.after (s' := ffArm b (setFr (frRun b s.fr) s)) ⟨rfl, rfl, rfl, rfl, rfl, rfl⟩ rfl rfl
      (idleTests_effect _ _ _ _)
  · exact ChipEffect.after (s' := (setFr (frRun b s.fr) s)) ⟨rfl, rfl, rfl, rfl, rfl, rfl⟩ rfl rfl
      (ffCollect_effect b _)
  · exact ChipEffect.none ⟨rfl, rfl, rfl, rfl, rfl, rfl⟩ rfl rfl
  · exact ChipEffect.none ⟨rfl, rfl, rfl, rfl, rfl, rfl⟩ rfl rfl

/-- What `chip(b)` may do: its frame, and no event or one (60_exceptions.md R121 "one chip emits at most one event"). -/
theorem chip_effect (b : Chip) (s : State) : ChipEffect s (chip b s) := by
  unfold chip
  split
  · exact stdChip_effect b s
  · exact fastChip_effect b s

/-! ## The variant's own registers -/

theorem idleTests_std (off ka : Nat) (clamp : BitVec 32) (s : State) : (idleTests off ka clamp s).std = s.std := by
  rcases idleTests_cases off ka clamp s with ⟨-, -, h⟩ | ⟨-, -, h⟩ | ⟨-, -, h⟩ <;> rw [h] <;> rfl

theorem idleTests_fast (off ka : Nat) (clamp : BitVec 32) (s : State) : (idleTests off ka clamp s).fast = s.fast := by
  rcases idleTests_cases off ka clamp s with ⟨-, -, h⟩ | ⟨-, -, h⟩ | ⟨-, -, h⟩ <;> rw [h] <;> rfl

theorem fdDecode_std (s : State) : (fdDecode s).std = s.std := by
  rcases fdDecode_cases s with h | ⟨n, -, -, -, h⟩ <;> rw [h]; rfl

theorem fdDecode_fast (s : State) : (fdDecode s).fast = s.fast := by
  rcases fdDecode_cases s with h | ⟨n, -, -, -, h⟩ <;> rw [h]; rfl

/-- The standard framer never writes the fast registers (10_state.md R21). -/
theorem stdChip_fast (b : Chip) (s : State) : (stdChip b s).fast = s.fast := by
  rcases stdChip_cases b s with ⟨-, h⟩ | ⟨-, h⟩ <;> rw [h]
  · rw [idleTests_fast]; rfl
  · rcases frAccumulate_cases b (setFr (frRun b s.fr) s) with ⟨-, h⟩ | ⟨-, -, h⟩ | ⟨-, -, h⟩ <;> rw [h]
    · rfl
    · unfold frByte; rw [frClearAcc_fast, fdDecode_fast]; rfl
    · rfl

/-- The fast framer never writes the standard registers (10_state.md R20). -/
theorem fastChip_std (b : Chip) (s : State) : (fastChip b s).std = s.std := by
  rcases fastChip_cases b s with ⟨-, h⟩ | ⟨-, -, h⟩ | ⟨-, -, -, -, h⟩ | ⟨-, -, -, h⟩ <;> rw [h]
  · unfold ffIdle; rw [idleTests_std]; rfl
  · rcases ffCollect_cases b (setFr (frRun b s.fr) s) with ⟨-, h⟩ | ⟨-, h⟩ <;> rw [h] <;> rfl
  · rfl
  · rfl

/-- Both framers do the run bookkeeping of `fr_run` for every chip: `LAST_BIT` and `RUN` are its, whatever else the chip
does (43_framer_standard.md R75). -/
theorem chip_run (b : Chip) (s : State) :
    (chip b s).fr.lastBit = b ∧ (chip b s).fr.run = (frRun b s.fr).run := by
  have it : ∀ (off ka : Nat) (cl : BitVec 32) (u : State),
      (idleTests off ka cl u).fr.lastBit = u.fr.lastBit ∧ (idleTests off ka cl u).fr.run = u.fr.run := by
    intro off ka cl u
    rcases idleTests_cases off ka cl u with ⟨-, -, h⟩ | ⟨-, -, h⟩ | ⟨-, -, h⟩ <;> rw [h] <;> exact ⟨rfl, rfl⟩
  have fd : ∀ u : State, (fdDecode u).fr.lastBit = u.fr.lastBit ∧ (fdDecode u).fr.run = u.fr.run := by
    intro u
    rcases fdDecode_cases u with h | ⟨n, -, -, -, h⟩ <;> rw [h] <;> exact ⟨rfl, rfl⟩
  unfold chip
  split
  · rcases stdChip_cases b s with ⟨-, h⟩ | ⟨-, h⟩ <;> rw [h]
    · exact it _ _ _ _
    · rcases frAccumulate_cases b (setFr (frRun b s.fr) s) with ⟨-, h⟩ | ⟨-, -, h⟩ | ⟨-, -, h⟩ <;> rw [h]
      · exact ⟨rfl, rfl⟩
      · unfold frByte; rw [frClearAcc_fr]; exact fd _
      · exact ⟨rfl, rfl⟩
  · rcases fastChip_cases b s with ⟨-, h⟩ | ⟨-, -, h⟩ | ⟨-, -, -, -, h⟩ | ⟨-, -, -, h⟩ <;> rw [h]
    · exact it _ _ _ _
    · rcases ffCollect_cases b (setFr (frRun b s.fr) s) with ⟨-, h⟩ | ⟨-, h⟩ <;> rw [h] <;> exact ⟨rfl, rfl⟩
    · exact ⟨rfl, rfl⟩
    · exact ⟨rfl, rfl⟩

/-! ## Several chips -/

@[simp] theorem repeatChip_zero (b : Chip) (s : State) : repeatChip 0 b s = s := rfl
@[simp] theorem repeatChip_succ (n : Nat) (b : Chip) (s : State) : repeatChip (n + 1) b s = repeatChip n b (chip b s) := rfl

theorem repeatChip_frame (n : Nat) (b : Chip) (s : State) : ChipFrame s (repeatChip n b s) := by
  induction n generalizing s with
  | zero => exact ChipFrame.rfl' s
  | succ n ih => exact (chip_effect b s).1.trans (ih (chip b s))

/-- A property that every chip keeps is kept by several. -/
theorem repeatChip_keeps {p : State → Prop} (b : Chip) (h : ∀ s, p s → p (chip b s)) (n : Nat) (s : State) (hs : p s) :
    p (repeatChip n b s) := by
  induction n generalizing s with
  | zero => exact hs
  | succ n ih => exact ih (chip b s) (h s hs)

/-! ## One EdgeDetector step -/

/-- What the EdgeDetector's action can be (42_edge_detector.md R64): an edge, an overflow, or neither. -/
theorem edAction_cases (d c : F64) (s : State) :
    (edTest d c (idealLevel s.edge.lastSgn) s = true ∧
        edAction d c s = edFlip (repeatChip (edgeChips s) s.edge.lastSgn s)) ∨
      (edTest d c (idealLevel s.edge.lastSgn) s = false ∧ flt s.k.ovfMin s.edge.lvk = true ∧
        edAction d c s = edTakeChip (chip s.edge.lastSgn s)) ∨
      (edTest d c (idealLevel s.edge.lastSgn) s = false ∧ flt s.k.ovfMin s.edge.lvk = false ∧ edAction d c s = s) := by
  unfold edAction
  split
  next h => exact Or.inl ⟨h, rfl⟩
  next h =>
    have h' := Bool.eq_false_iff.2 h
    split
    next ho => exact Or.inr (Or.inl ⟨h', ho, rfl⟩)
    next ho => exact Or.inr (Or.inr ⟨h', Bool.eq_false_iff.2 ho, rfl⟩)

end Sys2Proof.Machine
end

