-- ==== Sys2Proof/Laws/Float.lean ====
section
/-! SUPPORT. Laws/Float.lean: what the binary64 operations of Machine/Float.lean do. The encoding's low 63 bits order the
magnitudes (`unitsOf` is monotone on them), rounding is monotone and fixes every representable value (`roundMag_le`,
`le_roundMag`), and so each operation is bounded by any representable bound of its exact result. Cite these and never unfold
the rounding. -/

namespace Sys2Proof.Machine

/-! ## The low 63 bits and their magnitude -/

/-- The low 63 bits of an encoding: exponent and fraction. -/
def flow (x : F64) : Nat := x.toNat % 2 ^ 63

/-- The magnitude, in units of `2^-1074`, of low bits `low`. -/
def unitsOf (low : Nat) : Nat :=
  if low / 2 ^ 52 = 0 then low % 2 ^ 52 else (2 ^ 52 + low % 2 ^ 52) * 2 ^ (low / 2 ^ 52 - 1)

theorem flow_lt (x : F64) : flow x < 2 ^ 63 := Nat.mod_lt _ (by norm_num)

theorem fexp_eq_flow (x : F64) : fexp x = flow x / 2 ^ 52 := by
  simp only [fexp, flow, BitVec.extractLsb_toNat, Nat.shiftRight_eq_div_pow]
  omega

theorem ffrac_eq_flow (x : F64) : ffrac x = flow x % 2 ^ 52 := by
  simp only [ffrac, flow, BitVec.extractLsb_toNat, Nat.shiftRight_eq_div_pow]
  omega

theorem fmag_eq_unitsOf (x : F64) : fmag x = unitsOf (flow x) := by
  simp only [fmag, unitsOf, fexp_eq_flow, ffrac_eq_flow]

theorem fsign_eq_decide (x : F64) : fsign x = decide (2 ^ 63 ≤ x.toNat) := by
  have := x.isLt
  rw [Bool.eq_iff_iff]
  simp only [fsign, decide_eq_true_eq, BitVec.getLsbD, Nat.testBit_eq_decide_div_mod_eq]
  omega

theorem fIsNaN_iff (x : F64) : fIsNaN x = true ↔ infBits64 < flow x := by
  have := flow_lt x
  simp only [fIsNaN, fexp_eq_flow, ffrac_eq_flow, infBits64, Bool.and_eq_true, beq_iff_eq, bne_iff_ne, ne_eq]
  omega

theorem fIsInf_iff (x : F64) : fIsInf x = true ↔ flow x = infBits64 := by
  have := flow_lt x
  simp only [fIsInf, fexp_eq_flow, ffrac_eq_flow, infBits64, Bool.and_eq_true, beq_iff_eq]
  omega

theorem fIsFinite_iff (x : F64) : fIsFinite x = true ↔ flow x < infBits64 := by
  have := flow_lt x
  simp only [fIsFinite, fexp_eq_flow, infBits64, bne_iff_ne, ne_eq]
  omega

theorem not_nan_of_finite {x : F64} (h : fIsFinite x = true) : fIsNaN x = false := by
  rw [fIsFinite_iff] at h
  rw [Bool.eq_false_iff, ne_eq, fIsNaN_iff]
  omega

theorem not_inf_of_finite {x : F64} (h : fIsFinite x = true) : fIsInf x = false := by
  rw [fIsFinite_iff] at h
  rw [Bool.eq_false_iff, ne_eq, fIsInf_iff]
  omega

theorem flow_fpack {m : Nat} (neg : Bool) (h : m < 2 ^ 63) : flow (fpack neg m) = m := by
  cases neg <;> simp [flow, fpack, BitVec.toNat_ofNat] <;> omega

theorem fsign_fpack {m : Nat} (neg : Bool) (h : m < 2 ^ 63) : fsign (fpack neg m) = neg := by
  rw [fsign_eq_decide]
  cases neg <;> simp [fpack, BitVec.toNat_ofNat] <;> omega

/-- Up to `2^53` the low bits are their own magnitude. -/
theorem unitsOf_small {m : Nat} (h : m ≤ 2 ^ 53) : unitsOf m = m := by
  unfold unitsOf
  rcases Nat.lt_or_ge m (2 ^ 52) with h1 | h1
  · rw [if_pos (by omega)]; omega
  · rw [if_neg (by omega)]
    rcases Nat.lt_or_ge m (2 ^ 53) with h2 | h2
    · rw [show m / 2 ^ 52 = 1 by omega]; omega
    · have : m = 2 ^ 53 := by omega
      subst this; norm_num

/-- The magnitude of low bits with exponent field `e + 1`. -/
theorem unitsOf_normal {m e : Nat} (h : m / 2 ^ 52 = e + 1) : unitsOf m = (2 ^ 52 + m % 2 ^ 52) * 2 ^ e := by
  rw [unitsOf, if_neg (by omega), h, Nat.add_sub_cancel]

theorem unitsOf_lt_two_pow (m : Nat) : unitsOf m < 2 ^ (52 + m / 2 ^ 52) := by
  rcases h : m / 2 ^ 52 with _ | e
  · have hs : unitsOf m = m := unitsOf_small (by omega)
    rw [hs]; simp; omega
  · rw [unitsOf_normal h]
    have : 2 ^ (52 + (e + 1)) = 2 ^ 53 * 2 ^ e := by rw [← pow_add]; congr 1; omega
    rw [this]
    exact Nat.mul_lt_mul_of_pos_right (by omega) (by positivity)

theorem two_pow_le_unitsOf {m e : Nat} (h : m / 2 ^ 52 = e + 1) : 2 ^ (52 + e) ≤ unitsOf m := by
  rw [unitsOf_normal h, pow_add]
  exact Nat.mul_le_mul_right _ (by omega)

theorem unitsOf_strictMono : StrictMono unitsOf := by
  refine strictMono_nat_of_lt_succ fun m => ?_
  rcases h : m / 2 ^ 52 with _ | e
  · rw [unitsOf_small (by omega), unitsOf_small (by omega)]; omega
  · rcases Nat.lt_or_ge (m % 2 ^ 52 + 1) (2 ^ 52) with h1 | h1
    · have h2 : (m + 1) / 2 ^ 52 = e + 1 := by omega
      rw [unitsOf_normal h, unitsOf_normal h2]
      exact Nat.mul_lt_mul_of_pos_right (by omega) (by positivity)
    · have h2 : (m + 1) / 2 ^ 52 = (e + 1) + 1 := by omega
      refine lt_of_lt_of_le (unitsOf_lt_two_pow m) ?_
      rw [h]
      exact two_pow_le_unitsOf h2

theorem unitsOf_le_iff {m n : Nat} : unitsOf m ≤ unitsOf n ↔ m ≤ n := unitsOf_strictMono.le_iff_le

theorem unitsOf_lt_iff {m n : Nat} : unitsOf m < unitsOf n ↔ m < n := unitsOf_strictMono.lt_iff_lt

theorem unitsOf_eq_zero {m : Nat} : unitsOf m = 0 ↔ m = 0 := by
  have h : unitsOf 0 = 0 := unitsOf_small (by norm_num)
  constructor
  · intro hm
    exact unitsOf_strictMono.injective (by rw [hm, h])
  · rintro rfl; exact h

/-! ## Rounding is monotone and fixes representable values -/

theorem roundEven_le {num den m : Nat} (hd : 0 < den) (h : num ≤ m * den) : roundEven num den ≤ m := by
  have hdm := Nat.div_add_mod num den
  have hr := Nat.mod_lt num hd
  have hq : num / den ≤ m := by
    calc num / den ≤ m * den / den := Nat.div_le_div_right h
      _ = m := Nat.mul_div_cancel _ hd
  unfold roundEven
  simp only
  split
  · rcases Nat.lt_or_ge (num / den) m with h1 | h1
    · omega
    · have hqm : num / den = m := le_antisymm hq h1
      rw [hqm, Nat.mul_comm] at hdm
      omega
  · exact hq

theorem le_roundEven {num den m : Nat} (hd : 0 < den) (h : m * den ≤ num) : m ≤ roundEven num den := by
  have hq : m ≤ num / den := (Nat.le_div_iff_mul_le hd).2 h
  unfold roundEven
  simp only
  split <;> omega

/-- The two facts about the exponent `roundMag` picks: `q = num / den` lies below `2^(53+k)`, and unless `k = 0` not below
`2^(52+k)`. -/
theorem roundMag_exponent (q : Nat) :
    q < 2 ^ (53 + (Nat.log2 q - 52)) ∧ (Nat.log2 q - 52 = 0 ∨ 2 ^ (52 + (Nat.log2 q - 52)) ≤ q) := by
  rcases Nat.eq_zero_or_pos q with rfl | hq
  · simp
  · have h1 := @Nat.lt_log2_self q
    have h2 := Nat.log2_self_le (Nat.pos_iff_ne_zero.1 hq)
    rcases Nat.lt_or_ge (Nat.log2 q) 52 with h | h
    · have hk : Nat.log2 q - 52 = 0 := by omega
      refine ⟨lt_of_lt_of_le h1 (Nat.pow_le_pow_right (by norm_num) (by omega)), Or.inl hk⟩
    · refine ⟨lt_of_lt_of_le h1 (Nat.pow_le_pow_right (by norm_num) (by omega)), Or.inr ?_⟩
      rwa [show 52 + (Nat.log2 q - 52) = Nat.log2 q by omega]

/-- Rounding goes no higher than a representable bound (`m ≤ infBits64` is not even needed). -/
theorem roundMag_le {num den m : Nat} (hd : 0 < den) (h : num ≤ unitsOf m * den) : roundMag num den ≤ m := by
  unfold roundMag roundFormat
  simp only
  refine le_trans (min_le_left _ _) ?_
  obtain ⟨hlt, hge⟩ := roundMag_exponent (num / den)
  generalize Nat.log2 (num / den) - 52 = k at hlt hge
  have hqm : num / den ≤ unitsOf m := by
    calc num / den ≤ unitsOf m * den / den := Nat.div_le_div_right h
      _ = unitsOf m := Nat.mul_div_cancel _ hd
  have hdk : 0 < den * 2 ^ k := by positivity
  have hnum : num ≤ 2 ^ 53 * (den * 2 ^ k) := by
    have h1 : num < 2 ^ (53 + k) * den := (Nat.div_lt_iff_lt_mul hd).1 hlt
    have h2 : 2 ^ (53 + k) * den = 2 ^ 53 * (den * 2 ^ k) := by rw [pow_add]; ring
    omega
  have hM : roundEven num (den * 2 ^ k) ≤ 2 ^ 53 := roundEven_le hdk hnum
  rcases hge with rfl | hge
  · rcases Nat.lt_or_ge (2 ^ 53) m with h1 | h1
    · omega
    · rw [unitsOf_small h1] at h
      have := roundEven_le (m := m) (den := den * 2 ^ 0) (by simpa using hd) (by simpa using h)
      simpa using this
  · have he : 52 + k < 52 + m / 2 ^ 52 :=
      (Nat.pow_lt_pow_iff_right (by norm_num)).1 (lt_of_le_of_lt (le_trans hge hqm) (unitsOf_lt_two_pow m))
    rcases Nat.lt_or_ge (k + 1) (m / 2 ^ 52) with h1 | h1
    · have : (k + 2) * 2 ^ 52 ≤ m := (Nat.le_div_iff_mul_le (by norm_num)).1 h1
      omega
    · have he2 : m / 2 ^ 52 = k + 1 := by omega
      rw [unitsOf_normal he2] at h
      have h' : num ≤ (2 ^ 52 + m % 2 ^ 52) * (den * 2 ^ k) := by
        rw [Nat.mul_comm den, ← Nat.mul_assoc]; exact h
      have := roundEven_le hdk h'
      omega

/-- Rounding goes no lower than a representable bound. -/
theorem le_roundMag {num den m : Nat} (hd : 0 < den) (hm : m ≤ infBits64) (h : unitsOf m * den ≤ num) :
    m ≤ roundMag num den := by
  unfold roundMag roundFormat
  simp only
  refine le_min ?_ hm
  obtain ⟨hlt, hge⟩ := roundMag_exponent (num / den)
  generalize Nat.log2 (num / den) - 52 = k at hlt hge
  have hqm : unitsOf m ≤ num / den := (Nat.le_div_iff_mul_le hd).2 h
  have hdk : 0 < den * 2 ^ k := by positivity
  rcases Nat.eq_zero_or_pos (m / 2 ^ 52) with h0 | h0
  · rcases hge with rfl | hge
    · rw [unitsOf_small (by omega)] at h
      have := le_roundEven (m := m) (den := den * 2 ^ 0) (by simpa using hd) (by simpa using h)
      simpa using this
    · have h1 : 2 ^ 52 * (den * 2 ^ k) ≤ num := by
        have := (Nat.le_div_iff_mul_le hd).1 hge
        rwa [show 2 ^ (52 + k) * den = 2 ^ 52 * (den * 2 ^ k) by rw [pow_add]; ring] at this
      have := le_roundEven hdk h1
      omega
  · obtain ⟨e, he⟩ : ∃ e, m / 2 ^ 52 = e + 1 := ⟨m / 2 ^ 52 - 1, by omega⟩
    have hek : 52 + e < 53 + k :=
      (Nat.pow_lt_pow_iff_right (by norm_num)).1
        (lt_of_le_of_lt (le_trans (two_pow_le_unitsOf he) hqm) hlt)
    rcases Nat.lt_or_ge e k with h1 | h1
    · rcases hge with h2 | hge
      · omega
      · have h3 : 2 ^ 52 * (den * 2 ^ k) ≤ num := by
          have := (Nat.le_div_iff_mul_le hd).1 hge
          rwa [show 2 ^ (52 + k) * den = 2 ^ 52 * (den * 2 ^ k) by rw [pow_add]; ring] at this
        have := le_roundEven hdk h3
        have h4 : m < (e + 1 + 1) * 2 ^ 52 := by omega
        have h5 : (e + 1) * 2 ^ 52 ≤ k * 2 ^ 52 := Nat.mul_le_mul_right _ h1
        omega
    · have hke : e = k := by omega
      subst hke
      rw [unitsOf_normal he] at h
      have h' : (2 ^ 52 + m % 2 ^ 52) * (den * 2 ^ e) ≤ num := by
        rw [Nat.mul_comm den, ← Nat.mul_assoc]; exact h
      have := le_roundEven hdk h'
      omega

/-- A representable magnitude rounds to itself. -/
theorem roundMag_exact {num den m : Nat} (hd : 0 < den) (hm : m ≤ infBits64) (h : num = unitsOf m * den) :
    roundMag num den = m :=
  le_antisymm (roundMag_le hd h.le) (le_roundMag hd hm h.ge)

theorem roundMag_le_inf (num den : Nat) : roundMag num den ≤ infBits64 := min_le_right _ _

theorem roundMag_lt (num den : Nat) : roundMag num den < 2 ^ 63 :=
  lt_of_le_of_lt (roundMag_le_inf num den) (by norm_num [infBits64])

theorem roundMag_zero {den : Nat} (hd : 0 < den) : roundMag 0 den = 0 :=
  Nat.le_zero.1 (roundMag_le hd (Nat.zero_le _))

/-- The low bits of twice a magnitude. -/
theorem unitsOf_double (m : Nat) : unitsOf (if m < 2 ^ 52 then 2 * m else m + 2 ^ 52) = 2 * unitsOf m := by
  split
  next h => rw [unitsOf_small (by omega), unitsOf_small (by omega)]
  next h =>
    obtain ⟨e, he⟩ : ∃ e, m / 2 ^ 52 = e + 1 := ⟨m / 2 ^ 52 - 1, by omega⟩
    rw [unitsOf_normal he, unitsOf_normal (m := m + 2 ^ 52) (e := e + 1) (by omega),
      show (m + 2 ^ 52) % 2 ^ 52 = m % 2 ^ 52 by omega, pow_succ]
    ring

/-- An integer of at most 53 bits times a power of two is a magnitude. -/
theorem exists_unitsOf {a : Nat} (ha : a ≤ 2 ^ 53) (j : Nat) : ∃ m, unitsOf m = a * 2 ^ j := by
  induction j with
  | zero => exact ⟨a, by rw [unitsOf_small ha]; simp⟩
  | succ j ih =>
    obtain ⟨m, hm⟩ := ih
    exact ⟨_, by rw [unitsOf_double, hm, pow_succ]; ring⟩

/-- The magnitude of an infinity's low bits. -/
theorem unitsOf_infBits64 : unitsOf infBits64 = 2 ^ 52 * 2 ^ 2046 := by
  rw [unitsOf_normal (e := 2046) (by norm_num [infBits64])]
  congr 1

/-- `roundEven` is off by at most half. -/
theorem roundEven_error {num den : Nat} (hd : 0 < den) :
    2 * (roundEven num den * den) ≤ 2 * num + den ∧ 2 * num ≤ 2 * (roundEven num den * den) + den := by
  have hdm := Nat.div_add_mod num den
  have hr := Nat.mod_lt num hd
  unfold roundEven
  simp only
  generalize num / den = q at *
  generalize num % den = r at *
  split
  next h =>
    rw [Nat.add_mul, Nat.mul_comm q den]
    omega
  next h =>
    rw [Nat.mul_comm q den]
    omega

/-- In the normal range, rounding raises a value by at most one part in `2^53`. -/
theorem unitsOf_roundMag_le {num den : Nat} (hd : 0 < den) (h : 2 ^ 52 * den ≤ num) :
    unitsOf (roundMag num den) * den * 2 ^ 53 ≤ num * (2 ^ 53 + 1) := by
  obtain ⟨hlt, hge⟩ := roundMag_exponent (num / den)
  have hlow : 2 ^ (52 + (Nat.log2 (num / den) - 52)) ≤ num / den := by
    rcases hge with h0 | h0
    · rw [h0]; exact (Nat.le_div_iff_mul_le hd).2 h
    · exact h0
  unfold roundMag roundFormat
  simp only
  generalize Nat.log2 (num / den) - 52 = k at hlt hlow
  have hdk : 0 < den * 2 ^ k := by positivity
  obtain ⟨he, _⟩ := roundEven_error (num := num) hdk
  have h52 : 2 ^ 52 * (den * 2 ^ k) ≤ num := by
    have := (Nat.le_div_iff_mul_le hd).1 hlow
    rwa [show 2 ^ (52 + k) * den = 2 ^ 52 * (den * 2 ^ k) by rw [pow_add]; ring] at this
  have hM1 : 2 ^ 52 ≤ roundEven num (den * 2 ^ k) := le_roundEven hdk h52
  have hM2 : roundEven num (den * 2 ^ k) ≤ 2 ^ 53 := by
    refine roundEven_le hdk ?_
    have h1 : num < 2 ^ (53 + k) * den := (Nat.div_lt_iff_lt_mul hd).1 hlt
    have h2 : 2 ^ (53 + k) * den = 2 ^ 53 * (den * 2 ^ k) := by rw [pow_add]; ring
    omega
  generalize roundEven num (den * 2 ^ k) = M at *
  have hval : unitsOf (M + k * 2 ^ 52) = M * 2 ^ k := by
    rcases Nat.lt_or_ge M (2 ^ 53) with h1 | h1
    · have hdiv : (M + k * 2 ^ 52) / 2 ^ 52 = k + 1 := by omega
      have hmod : 2 ^ 52 + (M + k * 2 ^ 52) % 2 ^ 52 = M := by omega
      rw [unitsOf_normal hdiv, hmod]
    · have hM : M = 2 ^ 53 := le_antisymm hM2 h1
      subst hM
      have hdiv : (2 ^ 53 + k * 2 ^ 52) / 2 ^ 52 = (k + 1) + 1 := by omega
      have hmod : (2 ^ 53 + k * 2 ^ 52) % 2 ^ 52 = 0 := by omega
      calc unitsOf (2 ^ 53 + k * 2 ^ 52) = (2 ^ 52 + 0) * 2 ^ (k + 1) := by rw [unitsOf_normal hdiv, hmod]
        _ = 2 ^ 53 * 2 ^ k := by ring
  have hmin : unitsOf (min (M + k * 2 ^ 52) infBits64) ≤ M * 2 ^ k := by
    rw [← hval]; exact unitsOf_le_iff.2 (min_le_left _ _)
  have h3 : unitsOf (min (M + k * 2 ^ 52) infBits64) * den ≤ M * 2 ^ k * den := Nat.mul_le_mul_right _ hmin
  have h4 : M * (den * 2 ^ k) = M * 2 ^ k * den := by ring
  rw [h4] at he
  generalize unitsOf (min (M + k * 2 ^ 52) infBits64) * den = X at *
  generalize M * 2 ^ k * den = Y at *
  generalize den * 2 ^ k = Z at *
  omega

/-! ## Values of packed results -/

theorem fmag_fpack {m : Nat} (neg : Bool) (h : m < 2 ^ 63) : fmag (fpack neg m) = unitsOf m := by
  rw [fmag_eq_unitsOf, flow_fpack neg h]

theorem fval_fpack {m : Nat} (neg : Bool) (h : m < 2 ^ 63) :
    fval (fpack neg m) = if neg then -(unitsOf m : Int) else unitsOf m := by
  simp only [fval, fmag_fpack neg h, fsign_fpack neg h]

theorem not_nan_fpack {m : Nat} (neg : Bool) (h : m ≤ infBits64) : fIsNaN (fpack neg m) = false := by
  rw [Bool.eq_false_iff, ne_eq, fIsNaN_iff, flow_fpack neg (lt_of_le_of_lt h (by norm_num [infBits64]))]
  omega

theorem finite_fpack {m : Nat} (neg : Bool) (h : m < infBits64) : fIsFinite (fpack neg m) = true := by
  rw [fIsFinite_iff, flow_fpack neg (lt_trans h (by norm_num [infBits64]))]
  exact h

theorem fval_fzero (neg : Bool) : fval (fzero neg) = 0 := by
  rw [fzero, fval_fpack neg (by norm_num), unitsOf_small (by norm_num)]
  cases neg <;> rfl

theorem not_nan_fzero (neg : Bool) : fIsNaN (fzero neg) = false := not_nan_fpack neg (Nat.zero_le _)

theorem natAbs_fval (x : F64) : (fval x).natAbs = fmag x := by
  unfold fval; split <;> omega

theorem fval_le_fmag (x : F64) : fval x ≤ fmag x := by
  unfold fval; split <;> omega

/-! ## Each operation is bounded by every representable bound of its exact result

`z` is the bound: any value that is not a NaN. -/

/-- A packed rounding of the exact integer `v` (over `den`) lies below a representable bound above it. -/
theorem fval_pack_round_le {v : Int} {den : Nat} {z : F64} (hd : 0 < den) (hz : fIsNaN z = false)
    (h : v ≤ fval z * den) (neg : Bool) (hneg : neg = true ↔ v < 0) :
    fval (fpack neg (roundMag v.natAbs den)) ≤ fval z := by
  have hzl : flow z ≤ infBits64 := by
    by_contra hc; rw [Bool.eq_false_iff, ne_eq, fIsNaN_iff] at hz; omega
  rw [fval_fpack neg (roundMag_lt _ _)]
  cases neg
  · have hv : 0 ≤ v := by
      by_contra hc; have := hneg.2 (by omega); simp at this
    have hz0 : 0 ≤ fval z := by
      by_contra hc
      have : fval z * den < 0 := mul_neg_of_neg_of_pos (by omega) (by exact_mod_cast hd)
      omega
    have hzm : fval z = unitsOf (flow z) := by
      rw [← fmag_eq_unitsOf, ← natAbs_fval]; omega
    have h1 : v.natAbs ≤ unitsOf (flow z) * den := by
      zify; rw [abs_of_nonneg hv, ← hzm]; exact h
    have := roundMag_le hd h1
    simp only [Bool.false_eq_true, if_false]
    rw [hzm]
    exact_mod_cast unitsOf_le_iff.2 this
  · have hv : v < 0 := hneg.1 rfl
    simp only [if_true]
    rcases Int.lt_or_le (fval z) 0 with hz0 | hz0
    · have hzm : fval z = -(unitsOf (flow z) : Int) := by
        rw [← fmag_eq_unitsOf, ← natAbs_fval]; omega
      have h1 : unitsOf (flow z) * den ≤ v.natAbs := by
        zify; rw [abs_of_neg hv]; rw [hzm] at h; linarith
      have := le_roundMag hd hzl h1
      rw [hzm]
      have := unitsOf_le_iff.2 this
      omega
    · omega

/-- A packed rounding of the exact integer `v` (over `den`) lies above a representable bound below it. -/
theorem le_fval_pack_round {v : Int} {den : Nat} {z : F64} (hd : 0 < den) (hz : fIsNaN z = false)
    (h : fval z * den ≤ v) (neg : Bool) (hneg : neg = true ↔ v < 0) :
    fval z ≤ fval (fpack neg (roundMag v.natAbs den)) := by
  have hzl : flow z ≤ infBits64 := by
    by_contra hc; rw [Bool.eq_false_iff, ne_eq, fIsNaN_iff] at hz; omega
  rw [fval_fpack neg (roundMag_lt _ _)]
  cases neg
  · have hv : 0 ≤ v := by
      by_contra hc; have := hneg.2 (by omega); simp at this
    simp only [Bool.false_eq_true, if_false]
    rcases Int.lt_or_le (fval z) 0 with hz0 | hz0
    · omega
    · have hzm : fval z = unitsOf (flow z) := by
        rw [← fmag_eq_unitsOf, ← natAbs_fval]; omega
      have h1 : unitsOf (flow z) * den ≤ v.natAbs := by
        zify; rw [abs_of_nonneg hv, ← hzm]; exact h
      have := le_roundMag hd hzl h1
      rw [hzm]
      exact_mod_cast unitsOf_le_iff.2 this
  · have hv : v < 0 := hneg.1 rfl
    simp only [if_true]
    have hz0 : fval z < 0 := by
      by_contra hc
      have : 0 ≤ fval z * den := mul_nonneg (by omega) (by positivity)
      omega
    have hzm : fval z = -(unitsOf (flow z) : Int) := by
      rw [← fmag_eq_unitsOf, ← natAbs_fval]; omega
    have h1 : v.natAbs ≤ unitsOf (flow z) * den := by
      zify; rw [abs_of_neg hv]; rw [hzm] at h; linarith
    have := unitsOf_le_iff.2 (roundMag_le hd h1)
    rw [hzm]
    omega

/-- What `fadd` answers on finite operands: the exact sum rounded once. -/
theorem fadd_finite {x y : F64} (hx : fIsFinite x = true) (hy : fIsFinite y = true) :
    fadd x y = if fval x + fval y = 0 then fzero (fsign x && fsign y)
      else fpack (decide (fval x + fval y < 0)) (roundMag (fval x + fval y).natAbs 1) := by
  simp [fadd, not_nan_of_finite hx, not_nan_of_finite hy, not_inf_of_finite hx, not_inf_of_finite hy]

theorem fadd_not_nan {x y : F64} (hx : fIsFinite x = true) (hy : fIsFinite y = true) : fIsNaN (fadd x y) = false := by
  rw [fadd_finite hx hy]
  split
  · exact not_nan_fzero _
  · exact not_nan_fpack _ (roundMag_le_inf _ _)

theorem fadd_le {x y z : F64} (hx : fIsFinite x = true) (hy : fIsFinite y = true) (hz : fIsNaN z = false)
    (h : fval x + fval y ≤ fval z) : fval (fadd x y) ≤ fval z := by
  rw [fadd_finite hx hy]
  split
  next h0 => rw [fval_fzero]; omega
  · exact fval_pack_round_le one_pos hz (by simpa using h) _ (by simp)

theorem le_fadd {x y z : F64} (hx : fIsFinite x = true) (hy : fIsFinite y = true) (hz : fIsNaN z = false)
    (h : fval z ≤ fval x + fval y) : fval z ≤ fval (fadd x y) := by
  rw [fadd_finite hx hy]
  split
  next h0 => rw [fval_fzero]; omega
  · exact le_fval_pack_round one_pos hz (by simpa using h) _ (by simp)

theorem fneg_toNat (x : F64) : (fneg x).toNat = if 2 ^ 63 ≤ x.toNat then x.toNat - 2 ^ 63 else x.toNat + 2 ^ 63 := by
  have hx := x.isLt
  have h1 : (fneg x).toNat = x.toNat ^^^ 2 ^ 63 := by
    unfold fneg; rw [BitVec.toNat_xor]; rfl
  rw [h1]
  have hd := Nat.div_add_mod x.toNat (2 ^ 63)
  have hb : x.toNat / 2 ^ 63 = 0 ∨ x.toNat / 2 ^ 63 = 1 := by omega
  have hxor : x.toNat ^^^ 2 ^ 63 = (x.toNat / 2 ^ 63 ^^^ 1) * 2 ^ 63 + x.toNat % 2 ^ 63 := by
    apply Nat.eq_of_testBit_eq
    intro i
    rw [Nat.testBit_xor, Nat.testBit_two_pow, Nat.mul_comm,
      Nat.testBit_two_pow_mul_add _ (Nat.mod_lt _ (by norm_num))]
    split
    next hi =>
      rw [Nat.testBit_mod_two_pow]
      have : ¬ (63 = i) := by omega
      simp [hi, this]
    next hi =>
      rw [Nat.testBit_xor, Nat.testBit_div_two_pow]
      rw [show i - 63 + 63 = i by omega]
      congr 1
      rw [show (1 : Nat) = 2 ^ 0 by norm_num, Nat.testBit_two_pow]
      simp only [decide_eq_decide]; omega
  rw [hxor]
  clear hxor h1
  rcases hb with hb | hb
  · simp only [hb, Nat.zero_xor]; split <;> omega
  · simp only [hb, Nat.xor_self, Nat.zero_mul, Nat.zero_add]; split <;> omega

theorem flow_fneg (x : F64) : flow (fneg x) = flow x := by
  have := x.isLt
  unfold flow; rw [fneg_toNat]; split <;> omega

theorem fsign_fneg (x : F64) : fsign (fneg x) = !fsign x := by
  have := x.isLt
  rw [fsign_eq_decide, fsign_eq_decide, fneg_toNat, Bool.eq_iff_iff]
  simp only [decide_eq_true_eq, Bool.not_eq_true', decide_eq_false_iff_not]
  split <;> omega

theorem fval_fneg (x : F64) : fval (fneg x) = -fval x := by
  simp only [fval, fmag_eq_unitsOf, flow_fneg, fsign_fneg]
  cases fsign x <;> simp

theorem fIsFinite_fneg (x : F64) : fIsFinite (fneg x) = fIsFinite x := by
  rw [Bool.eq_iff_iff, fIsFinite_iff, fIsFinite_iff, flow_fneg]

theorem fsub_not_nan {x y : F64} (hx : fIsFinite x = true) (hy : fIsFinite y = true) : fIsNaN (fsub x y) = false :=
  fadd_not_nan hx (by rw [fIsFinite_fneg, hy])

theorem fsub_le {x y z : F64} (hx : fIsFinite x = true) (hy : fIsFinite y = true) (hz : fIsNaN z = false)
    (h : fval x - fval y ≤ fval z) : fval (fsub x y) ≤ fval z :=
  fadd_le hx (by rw [fIsFinite_fneg, hy]) hz (by rw [fval_fneg]; omega)

theorem le_fsub {x y z : F64} (hx : fIsFinite x = true) (hy : fIsFinite y = true) (hz : fIsNaN z = false)
    (h : fval z ≤ fval x - fval y) : fval z ≤ fval (fsub x y) :=
  le_fadd hx (by rw [fIsFinite_fneg, hy]) hz (by rw [fval_fneg]; omega)

theorem fsign_of_fval_neg {x : F64} (h : fval x < 0) : fsign x = true := by
  by_contra hc
  simp only [Bool.not_eq_true] at hc
  simp only [fval, hc, Bool.false_eq_true, if_false] at h
  omega

theorem fval_eq_sign_mul (x : F64) : fval x = (if fsign x then -1 else 1) * (fmag x : Int) := by
  unfold fval; split <;> simp

/-- What `fmul` answers on finite operands: the exact product rounded once. -/
theorem fmul_finite {x y : F64} (hx : fIsFinite x = true) (hy : fIsFinite y = true) :
    fmul x y = fpack (fsign x != fsign y) (roundMag (fmag x * fmag y) unitsPerOne) := by
  simp [fmul, not_nan_of_finite hx, not_nan_of_finite hy, not_inf_of_finite hx, not_inf_of_finite hy]

theorem fmul_not_nan {x y : F64} (hx : fIsFinite x = true) (hy : fIsFinite y = true) : fIsNaN (fmul x y) = false := by
  rw [fmul_finite hx hy]
  exact not_nan_fpack _ (roundMag_le_inf _ _)

theorem unitsPerOne_pos : 0 < unitsPerOne := by positivity

/-- The magnitude of a product is bounded by every representable bound of the exact one. -/
theorem fmag_fmul_le {x y : F64} {m : Nat} (hx : fIsFinite x = true) (hy : fIsFinite y = true)
    (h : fmag x * fmag y ≤ unitsOf m * unitsPerOne) : fmag (fmul x y) ≤ unitsOf m := by
  rw [fmul_finite hx hy, fmag_fpack _ (roundMag_lt _ _)]
  exact unitsOf_le_iff.2 (roundMag_le unitsPerOne_pos h)

theorem le_fmag_fmul {x y : F64} {m : Nat} (hx : fIsFinite x = true) (hy : fIsFinite y = true) (hm : m ≤ infBits64)
    (h : unitsOf m * unitsPerOne ≤ fmag x * fmag y) : unitsOf m ≤ fmag (fmul x y) := by
  rw [fmul_finite hx hy, fmag_fpack _ (roundMag_lt _ _)]
  exact unitsOf_le_iff.2 (le_roundMag unitsPerOne_pos hm h)

theorem fsign_fmul {x y : F64} (hx : fIsFinite x = true) (hy : fIsFinite y = true) :
    fsign (fmul x y) = (fsign x != fsign y) := by
  rw [fmul_finite hx hy, fsign_fpack _ (roundMag_lt _ _)]

/-- What `fdiv` answers on finite operands with a nonzero divisor: the exact quotient rounded once. -/
theorem fdiv_finite {x y : F64} (hx : fIsFinite x = true) (hy : fIsFinite y = true) (h0 : fmag y ≠ 0) :
    fdiv x y = fpack (fsign x != fsign y) (roundMag (fmag x * unitsPerOne) (fmag y)) := by
  simp [fdiv, not_nan_of_finite hx, not_nan_of_finite hy, not_inf_of_finite hx, not_inf_of_finite hy, h0]

theorem fdiv_not_nan {x y : F64} (hx : fIsFinite x = true) (hy : fIsFinite y = true) (h0 : fmag y ≠ 0) :
    fIsNaN (fdiv x y) = false := by
  rw [fdiv_finite hx hy h0]
  exact not_nan_fpack _ (roundMag_le_inf _ _)

theorem fmag_fdiv_le {x y : F64} {m : Nat} (hx : fIsFinite x = true) (hy : fIsFinite y = true) (h0 : fmag y ≠ 0)
    (h : fmag x * unitsPerOne ≤ unitsOf m * fmag y) : fmag (fdiv x y) ≤ unitsOf m := by
  rw [fdiv_finite hx hy h0, fmag_fpack _ (roundMag_lt _ _)]
  exact unitsOf_le_iff.2 (roundMag_le (Nat.pos_of_ne_zero h0) h)

theorem le_fmag_fdiv {x y : F64} {m : Nat} (hx : fIsFinite x = true) (hy : fIsFinite y = true) (h0 : fmag y ≠ 0)
    (hm : m ≤ infBits64) (h : unitsOf m * fmag y ≤ fmag x * unitsPerOne) : unitsOf m ≤ fmag (fdiv x y) := by
  rw [fdiv_finite hx hy h0, fmag_fpack _ (roundMag_lt _ _)]
  exact unitsOf_le_iff.2 (le_roundMag (Nat.pos_of_ne_zero h0) hm h)

/-! ## The integer square root -/

theorem isqrtFrom_spec (n : Nat) : ∀ (fuel guess : Nat), 0 < guess → guess ≤ fuel → n < (guess + 1) * (guess + 1) →
    isqrtFrom n fuel guess * isqrtFrom n fuel guess ≤ n ∧
      n < (isqrtFrom n fuel guess + 1) * (isqrtFrom n fuel guess + 1)
  | 0, guess, hg, hf, _ => by omega
  | fuel + 1, guess, hg, hf, hn => by
    simp only [isqrtFrom]
    have hdm := Nat.div_add_mod n guess
    have hr := Nat.mod_lt n hg
    generalize hq : n / guess = q at *
    generalize n % guess = r at *
    split
    next hlt =>
      rcases Nat.eq_zero_or_pos ((guess + q) / 2) with h0 | h0
      · have hg1 : guess = 1 := by omega
        have hq0 : q = 0 := by omega
        subst hg1 hq0
        have hn0 : n = 0 := by omega
        subst hn0
        cases fuel <;> simp [isqrtFrom]
      · refine isqrtFrom_spec n fuel _ h0 (by omega) ?_
        have hb : guess + q ≤ 2 * ((guess + q) / 2) + 1 := by omega
        generalize (guess + q) / 2 = b at *
        have h1 : n < guess * (q + 1) := by rw [← hdm, Nat.mul_succ]; omega
        have h2 : guess + (q + 1) ≤ 2 * (b + 1) := by omega
        nlinarith [sq_nonneg ((guess : Int) - (q + 1)), Nat.zero_le b]
    next hge =>
      refine ⟨?_, hn⟩
      have : guess ≤ q := by omega
      calc guess * guess ≤ guess * q := Nat.mul_le_mul_left _ this
        _ ≤ n := by omega

/-- `isqrt n` is the integer square root of `n`, rounded down. -/
theorem isqrt_spec (n : Nat) : isqrt n * isqrt n ≤ n ∧ n < (isqrt n + 1) * (isqrt n + 1) := by
  have hlog := @Nat.lt_log2_self n
  refine isqrtFrom_spec n _ _ (by positivity) le_rfl ?_
  have h1 : n < 2 ^ (Nat.log2 n / 2 + 1) * 2 ^ (Nat.log2 n / 2 + 1) := by
    rw [← pow_add]
    exact lt_of_lt_of_le hlog (Nat.pow_le_pow_right (by norm_num) (by omega))
  refine lt_trans h1 ?_
  generalize 2 ^ (Nat.log2 n / 2 + 1) = g
  nlinarith

/-- The root of `n` is bounded above by every representable bound. -/
theorem sqrtMag_le {m b : Nat} (h : m * unitsPerOne ≤ unitsOf b * unitsOf b) : sqrtMag m ≤ b := by
  unfold sqrtMag
  simp only
  obtain ⟨h1, _⟩ := isqrt_spec (m * unitsPerOne)
  generalize isqrt (m * unitsPerOne) = r at *
  generalize m * unitsPerOne = n at *
  refine roundMag_le (by norm_num) ?_
  have hr : r ≤ unitsOf b := by
    by_contra hc
    have : (unitsOf b + 1) * (unitsOf b + 1) ≤ r * r := Nat.mul_le_mul (by omega) (by omega)
    nlinarith
  split
  · omega
  next hne =>
    have : r < unitsOf b := by
      rcases Nat.lt_or_ge r (unitsOf b) with h3 | h3
      · exact h3
      · have : r = unitsOf b := by omega
        subst this; omega
    omega

/-- The root of `n` is bounded below by every representable bound. -/
theorem le_sqrtMag {m b : Nat} (hb : b ≤ infBits64) (h : unitsOf b * unitsOf b ≤ m * unitsPerOne) : b ≤ sqrtMag m := by
  unfold sqrtMag
  simp only
  obtain ⟨_, h2⟩ := isqrt_spec (m * unitsPerOne)
  generalize isqrt (m * unitsPerOne) = r at *
  generalize m * unitsPerOne = n at *
  refine le_roundMag (by norm_num) hb ?_
  have hr : unitsOf b < r + 1 := by
    by_contra hc
    have : (r + 1) * (r + 1) ≤ unitsOf b * unitsOf b := Nat.mul_le_mul (by omega) (by omega)
    omega
  omega

/-- What `fsqrt` answers on a positive finite operand. -/
theorem fsqrt_pos {x : F64} (hx : fIsFinite x = true) (h0 : 0 < fval x) : fsqrt x = fpack false (sqrtMag (fmag x)) := by
  have hs : fsign x = false := by
    by_contra hc
    simp only [Bool.not_eq_false] at hc
    simp only [fval, hc, if_true] at h0
    omega
  have hm : fmag x ≠ 0 := by
    intro h
    simp [fval, h] at h0
  simp [fsqrt, not_nan_of_finite hx, not_inf_of_finite hx, hm, hs]

/-! ## Comparisons -/

theorem flt_iff {x y : F64} : flt x y = true ↔ fIsNaN x = false ∧ fIsNaN y = false ∧ fval x < fval y := by
  simp [flt, and_assoc]

/-- `maxNum` answers one of its operands, never a NaN where one of them is none, and nothing below a non-NaN operand. -/
theorem fmaxNum_spec {a b : F64} (ha : fIsNaN a = false) :
    fIsNaN (fmaxNum a b) = false ∧ fval a ≤ fval (fmaxNum a b) ∧ (fmaxNum a b = a ∨ fmaxNum a b = b) := by
  unfold fmaxNum
  rw [ha]
  rcases hb : fIsNaN b
  · simp only [Bool.false_eq_true, if_false]
    split
    next h => exact ⟨hb, (flt_iff.1 h).2.2.le, Or.inr rfl⟩
    · exact ⟨ha, le_rfl, Or.inl rfl⟩
  · simp [ha]

/-- Between values that are not NaN, `min` answers the smaller. -/
theorem fmin_spec {a b : F64} (ha : fIsNaN a = false) (hb : fIsNaN b = false) :
    fIsNaN (fmin a b) = false ∧ fval (fmin a b) = min (fval a) (fval b) := by
  unfold fmin
  split
  next h => exact ⟨hb, by rw [min_eq_right (flt_iff.1 h).2.2.le]⟩
  next h =>
    have : fval a ≤ fval b := by
      by_contra hc
      exact h (flt_iff.2 ⟨hb, ha, by omega⟩)
    exact ⟨ha, by rw [min_eq_left this]⟩

end Sys2Proof.Machine
end

