-- ==== Sys2Proof/Laws/PerInstr.lean ====
section
/-! SUPPORT. Laws/PerInstr.lean: statements made for every command, one lemma per constructor. -/

namespace Sys2Proof.Laws

/-- The selector field of a command's word is the selector 30_encoding.md R40 gives the command: 0 NOP, 1 SAMPLE, 2 RESET,
3 reserved. -/
def SelectorOf.Statement (i : Instr) : Prop :=
  (encode i).extractLsb 65 64 =
    match i with
    | .nop _ => 0b00#2
    | .sample _ _ => 0b01#2
    | .reset _ _ _ _ => 0b10#2
    | .reserved _ => 0b11#2

/-- The field above bit 63 of `op ++ operand` is `op`. -/
theorem extractLsb_selector (op : BitVec 2) (operand : BitVec 64) : (op ++ operand).extractLsb 65 64 = op := by
  apply BitVec.eq_of_getLsbD_eq
  intro i hi
  have h := BitVec.getLsbD_append (x := op) (y := operand) (i := 64 + i)
  rw [if_neg (by omega), Nat.add_sub_cancel_left] at h
  rw [BitVec.getLsbD_extractLsb]
  simpa [show i ≤ 1 by omega] using h

theorem SelectorOf.nop (operand : BitVec 64) : SelectorOf.Statement (.nop operand) := extractLsb_selector 0 _

theorem SelectorOf.sample (ch0 ch1 : F32) : SelectorOf.Statement (.sample ch0 ch1) := extractLsb_selector 1 _

theorem SelectorOf.reset (variant : Variant) (ignored : BitVec 7) (rate : BitVec 24) (bal : F32) :
    SelectorOf.Statement (.reset variant ignored rate bal) := extractLsb_selector 2 _

theorem SelectorOf.reserved (operand : BitVec 64) : SelectorOf.Statement (.reserved operand) := extractLsb_selector 3 _

end Sys2Proof.Laws
end

