-- ==== Sys2Proof/Tests/Slice0.lean ====
section
/-! SUPPORT. Tests/Slice0.lean: the checks' smoke tests, decoding of words written out from the spec, one-step tests against
the vectors of 95_test_vectors.md, and a witness for the hypotheses of every statement that has any. -/

namespace Sys2Proof.Tests

/- The kernel evaluates these tests one at a time; run in parallel, each would hold a thread while it waits. -/
set_option Elab.async false

open Sys2Proof Sys2Proof.Machine

/-! ## WellFormed refuses what the host must not issue (30_encoding.md R43) -/

theorem test_wellFormed_refuses_reserved : WellFormed (.reserved 0x1234) = false := by decide

theorem test_wellFormedProgram_refuses_reserved :
    WellFormedProgram [.nop 0, .reserved 0] = false ∧ WellFormedProgram [.reset .std 0 12000 0x3F800000, .sample 0 0] = true := by
  decide

/-! ## Decoding words written out from 30_encoding.md R39 to R43 -/

theorem test_decode_nop :
    decode (0b00#2 ++ 0xDEADBEEF#32 ++ 0x01234567#32) = .nop 0xDEADBEEF01234567 ∧ decode 0x00000000000000000#66 = .nop 0 := by
  decide

/-- `OP`, `CH1`, `CH0`, from bit 65 down (R41). -/
theorem test_decode_sample :
    decode (0b01#2 ++ 0x3F400000#32 ++ 0x3E800000#32) = .sample 0x3E800000 0x3F400000 ∧
      decode 0x17FC0000000000000#66 = .sample 0 0x7FC00000 := by decide

/-- `OP`, `BAL`, `RATE`, the ignored bits, `VARIANT`, from bit 65 down (R42). -/
theorem test_decode_reset :
    decode (0b10#2 ++ 0x3F800000#32 ++ 0b000000010011100010000000#24 ++ 0b0000000#7 ++ 0b1#1) = .reset .fast 0 80000 0x3F800000 ∧
      decode 0x23F800000002EE0FE#66 = .reset .std 0b1111111 12000 0x3F800000 := by decide

theorem test_decode_reserved : decode (0b11#2 ++ 0x00000000#32 ++ 0x00001234#32) = .reserved 0x1234 := by decide

/-- The assembler's encodings of the table in 30_encoding.md, section 1. -/
theorem test_encode :
    encode (.nop 0) = 0x00000000000000000#66 ∧ encode (.sample 0 0xBF800000) = 0x1BF80000000000000#66 ∧
      encode (.reset .std 0 44100 0x3F800000) = 0x23F80000000AC4400#66 ∧ encode (.reserved 0x1234) = 0x30000000000001234#66 := by
  decide

theorem test_decodeTableWord :
    decodeTableWord 72 0x00000000000000000 = some (.nop 0) ∧ decodeTableWord 72 0x13F80000000000000 = some (.sample 0 0x3F800000) ∧
      decodeTableWord 72 0x23F800000000FA000 = some (.reset .std 0 4000 0x3F800000) ∧
      decodeTableWord 72 0x30000000000000000 = some (.reserved 0) ∧ decodeTableWord 72 0x400000000000000000 = none := by
  decide

theorem test_decodeBits_refuses_wide_by_name : decodeBits (2 ^ 66) = .error .wordTooWide := rfl

/-! ## Constants (00_scope.md R3, R5; the patterns are the nearest binary64 values) -/

theorem test_constants :
    eps = 0x3F1A36E2EB1C432D ∧ agcBase = 0x3F50624DD2F1A9FC ∧ edgeThreshold = 0x3FE6666666666666 ∧
      schmittThreshold = 0x3FC999999999999A ∧ edgeMinFactor = 0x3FE3333333333333 ∧ fone = oneBits := by decide +kernel

/-- 36.75, 2.7210884353741498e-05, 7, 22.05, 73.5 (00_scope.md R5's table). -/
theorem test_derived_std_44100 :
    derivedConstants .std 44100 =
      { ref := 1200, f := 0x4042600000000000, alpha := 0x3EFC885DBBFBEE8F, dlen := 7, edgeMin := 0x40360CCCCCCCCCCD,
        ovfMin := 0x4052600000000000 } := by decide +kernel

/-- 6.0, 0.00016666666666666666, 1, 3.5999999999999996, 12.0 (00_scope.md R5's table). -/
theorem test_derived_fast_48000 :
    derivedConstants .fast 48000 =
      { ref := 8000, f := 0x4018000000000000, alpha := 0x3F25D867C3ECE2A5, dlen := 1, edgeMin := 0x400CCCCCCCCCCCCC,
        ovfMin := 0x4028000000000000 } := by decide +kernel

/-- 41_agc.md R60, R61 and 95_test_vectors.md, group A: the gain and the conditioned sample for `P = 1.0003`, `s = 2.0`. -/
theorem test_gain_and_conditioned_sample :
    agcGain 0x3FF0013A92A30553 = 0x3FEFFEC57F7A6272 ∧
      agcCondition 0x3FF0013A92A30553 0x4000000000000000 = 0x3FFFFEC57F7A6272 := by decide +kernel

/-- 00_scope.md R8 and 42_edge_detector.md R67: `round(1.5) = 2`, `round(2.5) = 3`, `round(0.7) = 1`. -/
theorem test_round_ties_up :
    fround 0x3FF8000000000000 = 2 ∧ fround 0x4004000000000000 = 3 ∧ fround edgeThreshold = 1 := by decide +kernel

/-! ## One step of each command -/

/-- SMDEC right after a RESET with balance 1.0. -/
def configured (v : Variant) (rate : BitVec 24) : State := clearDecoder v (latchConfig v rate 0x3F800000 State.reset)

/-- The state a step leads to; `s` where there is none. -/
def after (s : State) : State :=
  match step s with
  | .next t => t
  | _ => s

/-- 95_test_vectors.md, 3.1 row 8: a NOP between samples counts no sample. -/
theorem test_nop_counts_no_sample :
    after ((configured .std 12000).withFetchWord 72 0x00000000000000000) = configured .std 12000 := rfl

/-- 95_test_vectors.md, 3.1 row 4. -/
theorem test_reserved_has_no_effect :
    after (State.reset.withFetchWord 72 0x30000000000001234) = State.reset := rfl

/-- 95_test_vectors.md, 3.1 row 6: the ignored operand bits are all ones. -/
theorem test_reset_configures :
    let t := after (State.reset.withFetchWord 72 0x23F800000002EE0FE)
    t.cfg = { configured := true, variant := .std, rate := 12000, bal := oneBits } ∧
      t.k = { ref := 1200, f := 0x4024000000000000, alpha := eps, dlen := 2, edgeMin := 0x4018000000000000,
              ovfMin := 0x4034000000000000 } := by decide +kernel

/-- 95_test_vectors.md, 3.1 row 2: an illegal rate leaves SMDEC unconfigured, its registers at their reset values. -/
theorem test_reset_illegal_rate :
    let t := after ((configured .fast 80000).withFetchWord 72 0x23F800000000FA000)
    t.cfg.configured = false ∧ t.cfg.rate = 4000 ∧ t.st.unit = 10 ∧ t.edge.dlPtr = 0 := by decide +kernel

/-- 95_test_vectors.md, group A, first row: `SAMPLE 0.0, 2.0` gives `AGC_P = 1.0003`, `DIST = 0.0008998200494858292`. -/
theorem test_sample_group_A :
    let t := after ((configured .std 12000).withFetchWord 72 0x14000000000000000)
    t.agcP = 0x3FF0013A92A30553 ∧ t.edge.dist = 0x3F4D7C3CD7A8670E ∧ t.edge.lvk = oneBits ∧ t.edge.dlPtr = 1 := by
  decide +kernel

/-- The state of vector E2 before its 16th sample, but for the registers that sample does not read: 15 low samples seen. -/
def lowRun : State :=
  let s := configured .std 12000
  setEdge { s.edge with dl := Vector.replicate delayCap (fneg oneBits), lvk := 0x402E000000000000 } s

/-- 95_test_vectors.md, E2, sample 16: two chips 0, then `LAST_SGN = 1` and `LVK = 1.0`. -/
theorem test_sample_edge_E2 :
    let t := after (lowRun.withFetchWord 72 0x13F80000000000000)
    t.fr.run = 2 ∧ t.fr.lastBit = false ∧ t.edge.lastSgn = true ∧ t.edge.lvk = oneBits := by decide +kernel

/-! ## Chips, messages and snapshots -/

/-- Chips fed one after the other. -/
def feed (s : State) (bs : List Chip) : State := bs.foldl (fun s b => chip b s) s

/-- The chips a string of 0s and 1s spells. -/
def chipsOf (t : String) : List Chip := t.toList.map (· == '1')

/-- 95_test_vectors.md, F2 and F5: the byte 0x20 after an idle low run, the byte 0x41 after an idle high run. -/
theorem test_byte_after_idle :
    (feed (configured .std 12000) (chipsOf "000000000001111110110")).std.byteBuf[0] = 0x20 ∧
      (feed (configured .std 12000) (chipsOf "111111111110100000101")).std.byteBuf[0] = 0x41 := by decide +kernel

/-- 95_test_vectors.md, F0 and F7: a window that fails its start check slides, and a stray chip slides out. -/
theorem test_slide :
    (feed (configured .std 12000) (chipsOf "0000000000")).std.chipCnt = 9 ∧
      (feed (configured .std 12000) (chipsOf "0000000000011111110110")).std.byteBuf[0] = 0x20 := by decide +kernel

/-- `" 01523K\r\n"` (30_encoding.md, section 5). -/
def messageM1 : Vector Byte 10 := #v[0x20, 0x30, 0x31, 0x35, 0x32, 0x33, 0x4B, 0x0D, 0x0A, 0]

/-- `"S959999r\r\n"` (30_encoding.md, section 5). -/
def messageM4 : Vector Byte 10 := #v[0x53, 0x39, 0x35, 0x39, 0x39, 0x39, 0x39, 0x72, 0x0D, 0x0A]

/-- 45_frame_decoder.md R96's example, 95_test_vectors.md M1, M4, M8 and the checksum off by one of M5. -/
theorem test_frame_decoder :
    fdAccepts 9 messageM1 = true ∧ fdTime 9 messageM1 = 15230 ∧ fdAccepts 10 messageM4 = true ∧
      fdTime 10 messageM4 = 599999 ∧ fdAccepts 9 messageM4 = false ∧ fdAccepts 9 (messageM1.set 6 0x4C) = false ∧
      fdAccepts 9 #v[0x53, 0x39, 0x35, 0x39, 0x39, 0x39, 0x36, 0x0D, 0x0A, 0] = false := by decide

/-- 44_framer_fast.md R89's example and the largest time. -/
theorem test_fast_time :
    fastTime (Vector.ofFn fun i => (chipsOf "000010001010110000000000").getD i false) = 15300 ∧
      fastTime (Vector.replicate 24 true) = 1666665 := by decide

/-- 95_test_vectors.md, D5: `'S'` after `' '` does not run, `'S'` after `'S'` with a later time does, with an equal time does
not. -/
theorem test_running_after_S :
    let s1 := sdDerive chSpace 1000 10 (configured .std 12000)
    let s2 := sdDerive chS 1500 10 s1
    let s3 := sdDerive chS 1600 10 s2
    s1.st.running = true ∧ s1.st.unknown = true ∧ s2.st.running = false ∧ s2.st.unknown = false ∧ s3.st.running = true ∧
      (sdDerive chS 1600 10 s3).st.running = false := by decide +kernel

/-- The record of the reset snapshot, its fields laid out as 30_encoding.md R44 says, from bit 191 down. -/
theorem test_event_record_of_reset_snapshot :
    eventRecord (resetSnapshot .std) = 0x3FF0000000000000#64 ++ 0#64 ++ 0x00#8 ++ 0x49#8 ++ 0#6 ++ 0b000000#6 ++ 10#4 ++ 0#32 := by
  decide

/-! ## The assembler (30_encoding.md R51, R52) -/

theorem test_assemble :
    assemble ["SAMPLE 0.25, 0.75 ; a comment".toList, "".toList, "RESET STD, 12000, 0.5".toList, "NOP".toList] =
      some [0x13F4000003E800000#66, 0x23F000000002EE000#66, 0x00000000000000000#66] := by decide +kernel

theorem test_assemble_patterns :
    assembleLine "SAMPLE 0x7FC00000, -1.0".toList = some [.sample 0x7FC00000 0xBF800000] ∧
      assembleLine "SAMPLE 0.0".toList = none := by decide +kernel

/-- The encodings of 30_encoding.md, section 1, and 95_test_vectors.md, group C, of operands named NaN, +Inf and -Inf. -/
theorem test_assemble_non_finite :
    assemble ["SAMPLE 0.0, NaN".toList, "SAMPLE +Inf, 0.5".toList, "SAMPLE 0.0, -Inf".toList] =
      some [0x17FC0000000000000#66, 0x13F0000007F800000#66, 0x1FF80000000000000#66] := by decide +kernel

/-- The chips of the byte 0x20 with an idle level of 0 are those of 95_test_vectors.md F2; two chips of 36.75 samples end at
samples `floor(37.25) = 37` and `floor(74.0) = 74`. -/
theorem test_pseudo_instructions :
    byteChips false 0x20 = chipsOf "1111110110" ∧ chipEnd (147 / 4) 1 = 37 ∧ chipEnd (147 / 4) 2 = 74 ∧
      (chipsCmds (147 / 4) 0xBF800000 0x3F800000 [false, true]).length = 74 := by decide +kernel

/-! ## Witnesses: each meets all the hypotheses of the statement it is named after -/

theorem witness_SelectorAndFieldsDecode :
    (0x00000000000000000#66).extractLsb 65 64 = 0b00#2 ∧ (0x1BF80000000000000#66).extractLsb 65 64 = 0b01#2 ∧
      (0x23F80000001388001#66).extractLsb 65 64 = 0b10#2 ∧ (0x23F800000002EE000#66).extractLsb 65 64 = 0b10#2 ∧
      (0x30000000000001234#66).extractLsb 65 64 = 0b11#2 := by decide

theorem witness_ChipsExpansionSampleCount : (0 : Rat) < 147 / 4 := by decide +kernel

theorem witness_StepRunsTheDecodedCommand :
    (State.reset.withFetchWord 72 0x13F80000000000000).cmdIn = 0x13F80000000000000#66 :: [] ∧ State.reset.cmdIn = [] :=
  ⟨rfl, rfl⟩

theorem witness_NopDoesNothing : (0x0DEADBEEF01234567#66).extractLsb 65 64 = 0b00#2 := by decide

theorem witness_ReservedEncodingsAreHarmless : (0x30000000000001234#66).extractLsb 65 64 = 0b11#2 := by decide

/-- The least and the greatest legal rate, a unit and the greatest finite balance. -/
theorem witness_LegalResetConfigures :
    (8000 ≤ (8000 : BitVec 24).toNat ∧ f32IsFinite 0x3F800000 = true) ∧
      8000 ≤ (16777215 : BitVec 24).toNat ∧ f32IsFinite 0x7F7FFFFF = true := by decide

/-- A rate just below the legal range, and an infinite balance. -/
theorem witness_IllegalResetUnconfigures :
    ((7999 : BitVec 24).toNat < 8000 ∨ f32IsFinite 0x3F800000 = false) ∧
      ((8000 : BitVec 24).toNat < 8000 ∨ f32IsFinite 0x7F800000 = false) := by decide

theorem witness_ResetErasesHistory :
    State.reset.evq = lowRun.evq ∧ State.reset.cmdIn = lowRun.cmdIn ∧ State.reset.freeCtr = lowRun.freeCtr ∧
      State.reset.edge.lvk ≠ lowRun.edge.lvk := by decide +kernel

/-- A legal and an illegal RESET. -/
theorem witness_TwoEqualResetsAreOne :
    (∃ t, exec (.reset .fast 0 80000 0x3F800000) lowRun = .next t) ∧ (legalConfig 80000 0x3F800000 = true) ∧
      (∃ t, exec (.reset .fast 0 4000 0x3F800000) lowRun = .next t) ∧ legalConfig 4000 0x3F800000 = false :=
  ⟨⟨_, rfl⟩, by decide, ⟨_, rfl⟩, by decide⟩

theorem witness_DerivedConstantsInRange : 8000 ≤ (8000 : BitVec 24).toNat ∧ 8000 ≤ (16777215 : BitVec 24).toNat := by decide

theorem witness_OverflowLimitIsExactlyTwoChips : 8000 ≤ (44100 : BitVec 24).toNat := by decide

theorem witness_SampleIgnoredWhileUnconfigured : State.reset.cfg.configured = false := rfl

theorem witness_SampleConditionsAndDelays :
    (lowRun.cfg.configured = true ∧ lowRun.cfg.variant = .std) ∧
      (configured .fast 80000).cfg.configured = true ∧ (configured .fast 80000).cfg.variant = .fast := by decide +kernel

/-- A subnormal, a negative zero and the greatest finite pattern. -/
theorem witness_FiniteSamplesWidenExactly :
    f32IsFinite 0x00000001 = true ∧ f32IsFinite 0x80000000 = true ∧ f32IsFinite 0x7F7FFFFF = true := by decide

/-- A quiet NaN and an infinity. -/
theorem witness_NonFiniteSamplesReadAsZero : f32IsFinite 0x7FC00000 = false ∧ f32IsFinite 0xFF800000 = false := by decide

theorem witness_DifferentialSampleIsFinite : f32IsFinite 0x7F7FFFFF = true := by decide

theorem witness_PowerNeverBelowFloor : (configured .std 12000).cfg.configured = true := by decide +kernel

theorem witness_GainAtMostHundred : fIsFinite eps = true ∧ fle eps eps := by decide +kernel

/-- The shortest and the longest delay line of a legal configuration. -/
theorem witness_DelayLineReturnsOldSample :
    (resetEdge.dlPtr.toNat < (1 : BitVec 12).toNat ∧ ([] : List F64).length + 1 = (1 : BitVec 12).toNat) ∧
      resetEdge.dlPtr.toNat < (2331 : BitVec 12).toNat ∧
      (List.replicate 2330 fone).length + 1 = (2331 : BitVec 12).toNat := by
  refine ⟨by decide, by decide, ?_⟩
  rw [List.length_replicate]
  rfl

/-- The conditioned sample of `SAMPLE 0.0, v`. -/
def conditioned (v : F32) (s : State) : F64 :=
  let x := agcInput s.cfg.bal 0 v
  fmul x (fdiv fone (fsqrt (agcPower s.k.alpha s.agcP x)))

/-- `SAMPLE 0.0, v` finds an edge in `s`. -/
def findsEdge (v : F32) (s : State) : Bool :=
  edTest (delayedSample s.edge) (conditioned v s) (idealLevel s.edge.lastSgn) s

/-- `s` with a run length, a polarity and an `LVK`. -/
def withRun (run : BitVec 32) (sgn : Bool) (lvk : F64) (s : State) : State :=
  setFr { s.fr with run := run } (setEdge { s.edge with lastSgn := sgn, lvk := lvk } s)

/-- The first SAMPLE after a RESET, of either variant. -/
theorem witness_QuietSampleTouchesOnlyTheSignalPath :
    let s := configured .std 12000
    let u := configured .fast 80000
    (s.cfg.configured = true ∧ findsEdge 0xBF800000 s = false ∧ flt s.k.ovfMin s.edge.lvk = false) ∧
      u.cfg.configured = true ∧ findsEdge 0xBF800000 u = false ∧ flt u.k.ovfMin u.edge.lvk = false := by decide +kernel

theorem witness_EdgeEmitsTheRunAndFlips : lowRun.cfg.configured = true ∧ findsEdge 0x3F800000 lowRun = true := by
  decide +kernel

/-- 95_test_vectors.md, E1: sample 22 with `LVK = 21.0`. -/
theorem witness_OverflowEmitsOneChip :
    let s := withRun 0 false 0x4035000000000000 lowRun
    s.cfg.configured = true ∧ findsEdge 0xBF800000 s = false ∧ flt s.k.ovfMin s.edge.lvk = true := by decide +kernel

/-- A rise while `LAST_SGN = 0` and a fall while `LAST_SGN = 1`. -/
theorem witness_EdgeNeedsAMoveAwayFromTheLevel :
    fIsFinite fone = true ∧ fIsFinite (fneg fone) = true ∧
      edTest (fneg fone) fone (idealLevel lowRun.edge.lastSgn) lowRun = true ∧
      (let s := withRun 0 true 0x402E000000000000 lowRun
       s.edge.lastSgn = true ∧ edTest fone (fneg fone) (idealLevel s.edge.lastSgn) s = true) := by decide +kernel

/-- Samples without a chip, so that the run stays: 9 tracks, 10 and 100 hold, 101 pins. -/
theorem witness_DistortionFollowsTheRun :
    let run (n : BitVec 32) := withRun n false fzeroPos (configured .std 12000)
    let runAfter (n : BitVec 32) := (after ((run n).withFetchWord 72 0x1BF80000000000000)).fr.run
    (run 9).cfg.configured = true ∧ runAfter 9 = 9 ∧ runAfter 10 = 10 ∧ runAfter 100 = 100 ∧ runAfter 101 = 101 := by
  decide +kernel

/-- A configuration's own constants and the unit balance make `ConfigOk`. -/
theorem configOk_of (s : State) (hk : s.k = derivedConstants s.cfg.variant s.cfg.rate) (hb : s.cfg.bal = fwiden 0x3F800000)
    (hl : legalConfig s.cfg.rate 0x3F800000 = true) : ConfigOk s := fun _ => ⟨0x3F800000, hl, hb, hk⟩

/-- The low run of E2 with a SAMPLE of the high level issued. -/
def lowRunThenHigh : State := lowRun.withFetchWord 72 0x13F80000000000000

theorem lowRunThenHigh_configOk : ConfigOk lowRunThenHigh := configOk_of _ rfl rfl (by decide +kernel)

theorem lowRunThenHigh_steps : ∃ t, step lowRunThenHigh = .next t := by
  simp [lowRunThenHigh, State.withFetchWord, issueCommand, step, takeCommand]
  exact ⟨_, rfl⟩

theorem witness_LvkStaysInRange :
    ConfigOk lowRunThenHigh ∧ LvkOk lowRunThenHigh ∧ ∃ t, step lowRunThenHigh = .next t :=
  ⟨lowRunThenHigh_configOk, by decide +kernel, lowRunThenHigh_steps⟩

theorem witness_LvkAtLeastOneAfterSample :
    lowRunThenHigh.cfg.configured = true ∧ ConfigOk lowRunThenHigh ∧ LvkOk lowRunThenHigh :=
  ⟨by decide +kernel, lowRunThenHigh_configOk, by decide +kernel⟩

theorem witness_EdgeEmitsOneToThreeChips :
    lowRunThenHigh.cfg.configured = true ∧ ConfigOk lowRunThenHigh ∧ LvkOk lowRunThenHigh ∧
      edTestC lowRunThenHigh.k.edgeMin lowRunThenHigh.edge.lvk = true :=
  ⟨by decide +kernel, lowRunThenHigh_configOk, by decide +kernel, by decide +kernel⟩

theorem witness_AtMostTwoEventsPerSample : ConfigOk lowRunThenHigh ∧ LvkOk lowRunThenHigh :=
  ⟨lowRunThenHigh_configOk, by decide +kernel⟩

/-- A chip that ends the run and one that continues it. -/
theorem witness_RunBookkeeping : true ≠ resetFramer.lastBit ∧ false = resetFramer.lastBit := by decide

/-- A first, an eighth and an eleventh byte, with a low and with a high idle level. -/
theorem witness_ByteFrameRoundTrip :
    let s := configured .std 12000
    let u (n : BitVec 4) := setStd { s.std with byteCnt := n } (setFr { s.fr with idleVal := true, lastBit := true } s)
    (s.cfg.variant = .std ∧ s.fr.idleVal = false ∧ s.fr.lastBit = false ∧ s.std.chipCnt = 0 ∧ s.std.byteCnt.toNat < 8) ∧
      ∀ n ∈ [7, 10], (u n).cfg.variant = .std ∧ (u n).fr.idleVal = true ∧ (u n).fr.lastBit = true ∧ (u n).std.chipCnt = 0 ∧
        ((u n).std.byteCnt.toNat < 8 ∨ 10 ≤ (u n).std.byteCnt.toNat) := by decide +kernel

/-- Right after a RESET, with the message M1; the second part of the statement's alternative is met by a bad header. -/
theorem witness_NineByteMessageDecodes :
    let s := configured .std 12000
    (s.cfg.variant = .std ∧ s.fr.idleVal = false ∧ s.fr.lastBit = false ∧ s.std.chipCnt = 0 ∧ s.std.byteCnt = 0) ∧
      (0x20#8 ∈ [0x20#8, 0x53#8, 0x49#8, 0x4C#8, 0x52#8, 0x43#8, 0x41#8] ∧
        (∀ d ∈ [0x30#8, 0x31#8, 0x35#8, 0x32#8, 0x33#8], 0x30 ≤ d.toNat ∧ d.toNat ≤ 0x39) ∧
        64 + 0 + 1 + 5 + 2 + 3 = (0x4B#8).toNat) ∧
      0x58#8 ∉ [0x20#8, 0x53#8, 0x49#8, 0x4C#8, 0x52#8, 0x43#8, 0x41#8] := by decide +kernel

/-- Right after a RESET, with the message M4; with M1 and a tenth byte, which meets the second condition and not the first;
with a bad header, which meets neither. -/
theorem witness_TenByteMessageDecodes :
    let s := configured .std 12000
    let header := fun h : Byte => h ∈ [0x20#8, 0x53#8, 0x49#8, 0x4C#8, 0x52#8, 0x43#8, 0x41#8]
    let n := fun b : Byte => b.toNat - 0x30
    (s.cfg.variant = .std ∧ s.fr.idleVal = false ∧ s.fr.lastBit = false ∧ s.std.chipCnt = 0 ∧ s.std.byteCnt = 0) ∧
      (header 0x53 ∧ (∀ d ∈ [0x39#8, 0x35#8, 0x39#8, 0x39#8, 0x39#8, 0x39#8], 0x30 ≤ d.toNat ∧ d.toNat ≤ 0x39) ∧
        64 + n 0x39 + n 0x35 + n 0x39 + n 0x39 + n 0x39 + n 0x39 = (0x72#8).toNat) ∧
      (header 0x20 ∧ ¬ (∀ d ∈ [0x30#8, 0x31#8, 0x35#8, 0x32#8, 0x33#8, 0x4B#8], 0x30 ≤ d.toNat ∧ d.toNat ≤ 0x39) ∧
        (∀ d ∈ [0x30#8, 0x31#8, 0x35#8, 0x32#8, 0x33#8], 0x30 ≤ d.toNat ∧ d.toNat ≤ 0x39) ∧
        64 + n 0x30 + n 0x31 + n 0x35 + n 0x32 + n 0x33 = (0x4B#8).toNat) ∧
      ¬ header 0x58 := by decide +kernel

theorem witness_AcceptedMessageRanges : fdAccepts 9 messageM1 = true ∧ fdAccepts 10 messageM4 = true := by decide

/-- `s` with a run, a chip count, an armed framer and the snapshot's `on`. -/
def idling (run nsl : BitVec 32) (on : Bool) (s : State) : State :=
  { setFr { s.fr with run := run, nsl := nsl } s with st := { s.st with on := on } }

/-- In each variant: the first idle chip, the first chip past the off threshold while `on = 1` and the first past the
keep-alive count, which meet the three branches in turn. -/
theorem witness_IdleChipEffects :
    let std (run nsl : BitVec 32) := idling run nsl true (configured .std 12000)
    let fast (run nsl : BitVec 32) := idling run nsl true (configured .fast 80000)
    let runOf (s : State) := (frRun false s.fr).run.toNat
    let nslOf (s : State) := (frRun false s.fr).nsl.toNat
    ((std 10 0).cfg.variant = .std ∧ (std 10 0).st.on = true ∧ runOf (std 10 0) = 11 ∧ runOf (std 100 0) = 101 ∧
      runOf (std 10 700) = 11 ∧ nslOf (std 10 700) = 701) ∧
    (fast 100 0).cfg.variant = .fast ∧ (fast 100 0).st.on = true ∧ runOf (fast 100 0) = 101 ∧ runOf (fast 1000 0) = 1001 ∧
      runOf (fast 100 4000) = 101 ∧ nslOf (fast 100 4000) = 4001 := by decide +kernel

/-- A window that fails its start check, and one that fails its stop check only. -/
theorem witness_BadWindowSlides :
    let window (acc : Vector Chip 10) :=
      let s := configured .std 12000
      setStd { s.std with chipAcc := acc, chipCnt := 9 } s
    let s := window (Vector.replicate 10 false)
    let u := window (Vector.replicate 10 true)
    (s.cfg.variant = .std ∧ (frRun false s.fr).run.toNat ≤ 10 ∧ s.std.chipCnt = 9 ∧ s.std.chipAcc[0] = s.fr.idleVal) ∧
      u.cfg.variant = .std ∧ (frRun true u.fr).run.toNat ≤ 10 ∧ u.std.chipCnt = 9 ∧ u.std.chipAcc[0] ≠ u.fr.idleVal ∧
      true ≠ u.fr.idleVal := by decide +kernel

/-- STD and FAST, each from the shortest idle run to just past the off threshold, and from the threshold itself. -/
theorem witness_IdleRunTurnsOffOnce :
    (∀ p ∈ [((10 : BitVec 32), (0 : BitVec 32), 91), (100, 699, 1)],
      let s := idling p.1 p.2.1 true (configured .std 12000)
      s.cfg.variant = .std ∧ s.fr.lastBit = false ∧ 10 ≤ s.fr.run.toNat ∧ s.fr.run.toNat ≤ 100 ∧ s.st.on = true ∧
        100 < s.fr.run.toNat + p.2.2 ∧ s.fr.nsl.toNat + p.2.2 ≤ 700) ∧
    (∀ p ∈ [((100 : BitVec 32), (0 : BitVec 32), 901), (1000, 3999, 1)],
      let s := idling p.1 p.2.1 true (configured .fast 80000)
      s.cfg.variant = .fast ∧ s.fr.lastBit = false ∧ 100 ≤ s.fr.run.toNat ∧ s.fr.run.toNat ≤ 1000 ∧ s.st.on = true ∧
        1000 < s.fr.run.toNat + p.2.2 ∧ s.fr.nsl.toNat + p.2.2 ≤ 4000) := by decide +kernel

/-- STD and FAST, one chip before the period's end and at it. -/
theorem witness_KeepalivePeriod :
    (let s := idling 101 100 false (configured .std 12000)
     s.cfg.variant = .std ∧ s.fr.lastBit = false ∧ 10 ≤ s.fr.run.toNat ∧ s.st.on = false ∧ s.fr.nsl.toNat = 100 ∧
       600 < 601 ∧ 601 = 601) ∧
    (let s := idling 1001 1000 false (configured .fast 80000)
     s.cfg.variant = .fast ∧ s.fr.lastBit = false ∧ 100 ≤ s.fr.run.toNat ∧ s.st.on = false ∧ s.fr.nsl.toNat = 1000 ∧
       3000 < 3001 ∧ 3001 = 3001) := by decide +kernel

theorem witness_FastFrameRoundTrip :
    let s := setFast { resetFast with armed := true } (configured .fast 80000)
    s.cfg.variant = .fast ∧ s.fr.idleVal = false ∧ s.fr.lastBit = false ∧ s.fast.armed = true ∧ s.fast.inframe = false := by
  decide +kernel

theorem witness_DisarmedDetectorIgnoresChips :
    let s := configured .fast 80000
    s.cfg.variant = .fast ∧ s.fast.armed = false ∧ s.fast.inframe = false ∧ (frRun true s.fr).run.toNat ≤ 100 := by
  decide +kernel

/-- A chip equal to the idle level and one that differs from it. -/
theorem witness_ArmedDetectorWaitsForAStartChip :
    let s := setFast { resetFast with armed := true } (configured .fast 80000)
    s.cfg.variant = .fast ∧ s.fast.armed = true ∧ s.fast.inframe = false ∧
      ((frRun false s.fr).run.toNat ≤ 100 ∧ false = s.fr.idleVal) ∧
      (frRun true s.fr).run.toNat ≤ 100 ∧ true ≠ s.fr.idleVal := by decide +kernel

theorem witness_DerivedSnapshotFields : 1666665 < 2 ^ 32 := by decide

/-- A NaN, a value above 1 and a value below it. -/
theorem witness_NoiseIsClamped :
    fIsNaN 0x7FF8000000000000 = true ∧ fIsNaN (fofRatio 2 1) = false ∧ fIsNaN eps = false := by decide +kernel

theorem witness_EventStreamOnlyGrows : ∃ t, step lowRunThenHigh = .next t := lowRunThenHigh_steps

theorem witness_OnlyResetWritesTheConfiguration :
    (∀ v ig rate bal, Instr.sample 0 0x3F800000 ≠ .reset v ig rate bal) ∧ ∃ t, exec (.sample 0 0x3F800000) lowRun = .next t :=
  ⟨by simp, ⟨_, rfl⟩⟩

theorem witness_EveryStepKeepsRegisterInv : RegisterInv lowRunThenHigh ∧ ∃ t, step lowRunThenHigh = .next t :=
  ⟨⟨by decide +kernel, rfl, by decide +kernel⟩, lowRunThenHigh_steps⟩

theorem witness_EveryStepKeepsConfigInv : ConfigInv lowRunThenHigh ∧ ∃ t, step lowRunThenHigh = .next t :=
  ⟨⟨lowRunThenHigh_configOk, by decide +kernel⟩, lowRunThenHigh_steps⟩

theorem witness_EveryStepKeepsSignalInv : SignalInv lowRunThenHigh ∧ ∃ t, step lowRunThenHigh = .next t :=
  ⟨⟨lowRunThenHigh_configOk, by decide +kernel, by decide +kernel, by decide +kernel, by decide +kernel⟩,
    lowRunThenHigh_steps⟩

end Sys2Proof.Tests
end

section
/-! PROOFS. The derived constants of a legal rate (00_scope.md R5): facts about integer constants and quotients of binary64
values, the range of `K_F`, and from it the ranges of the other constants. Every bound is a bound by a representable value,
so no rounding is evaluated. -/

namespace Sys2Proof.Machine

/-! ## Signs, finiteness and quotients -/

theorem fval_of_fsign_false {x : F64} (h : fsign x = false) : fval x = fmag x := by simp [fval, h]

/-- A value no larger in magnitude than a finite one is finite. -/
theorem finite_of_fmag_le {x z : F64} (hz : fIsFinite z = true) (h : fmag x ≤ fmag z) : fIsFinite x = true := by
  rw [fIsFinite_iff] at hz ⊢
  rw [fmag_eq_unitsOf, fmag_eq_unitsOf] at h
  exact lt_of_le_of_lt (unitsOf_le_iff.1 h) hz

theorem fsign_fdiv {x y : F64} (hx : fIsFinite x = true) (hy : fIsFinite y = true) (h0 : fmag y ≠ 0) :
    fsign (fdiv x y) = (fsign x != fsign y) := by
  rw [fdiv_finite hx hy h0, fsign_fpack _ (roundMag_lt _ _)]

/-- `fmag_fdiv_le` with the magnitude of a value as the bound. -/
theorem fmag_fdiv_le_fmag {x y z : F64} (hx : fIsFinite x = true) (hy : fIsFinite y = true) (h0 : fmag y ≠ 0)
    (h : fmag x * unitsPerOne ≤ fmag z * fmag y) : fmag (fdiv x y) ≤ fmag z := by
  rw [fmag_eq_unitsOf z] at h ⊢
  exact fmag_fdiv_le hx hy h0 h

/-- `le_fmag_fdiv` with the magnitude of a finite value as the bound. -/
theorem fmag_le_fmag_fdiv {x y z : F64} (hx : fIsFinite x = true) (hy : fIsFinite y = true) (h0 : fmag y ≠ 0)
    (hz : fIsFinite z = true) (h : fmag z * fmag y ≤ fmag x * unitsPerOne) : fmag z ≤ fmag (fdiv x y) := by
  rw [fmag_eq_unitsOf z] at h ⊢
  exact le_fmag_fdiv hx hy h0 ((fIsFinite_iff z).1 hz).le h

/-- A quotient that is at least one unit before rounding is not rounded to zero. -/
theorem fmag_fdiv_pos {x y : F64} (hx : fIsFinite x = true) (hy : fIsFinite y = true) (h0 : fmag y ≠ 0)
    (h : fmag y ≤ fmag x * unitsPerOne) : 0 < fmag (fdiv x y) := by
  have h1 : unitsOf 1 = 1 := unitsOf_small (by norm_num)
  have hle := le_fmag_fdiv (m := 1) hx hy h0 (by norm_num [infBits64]) (by rw [h1, Nat.one_mul]; exact h)
  omega

theorem fceil_pos {x : F64} (h : 0 < fmag x) : 1 ≤ fceil x :=
  (Nat.le_div_iff_mul_le unitsPerOne_pos).2 (by omega)

theorem fceil_le {x : F64} {n : Nat} (h : fmag x ≤ n * unitsPerOne) : fceil x ≤ n := by
  have hu := unitsPerOne_pos
  refine Nat.lt_succ_iff.1 ((Nat.div_lt_iff_lt_mul hu).2 ?_)
  rw [Nat.succ_mul]
  omega

/-! ## Constants -/

theorem fsign_fofRatio (n d : Nat) : fsign (fofRatio n d) = false := fsign_fpack _ (roundMag_lt _ _)

theorem fofRatio_not_nan (n d : Nat) : fIsNaN (fofRatio n d) = false := not_nan_fpack _ (roundMag_le_inf _ _)

/-- An integer of at most 53 bits is the magnitude of some finite low bits. -/
theorem exists_unitsOf_int {n : Nat} (hn : n ≤ 2 ^ 53) : ∃ m, m < infBits64 ∧ unitsOf m = n * unitsPerOne := by
  obtain ⟨m, hm⟩ := exists_unitsOf hn 1074
  refine ⟨m, unitsOf_lt_iff.1 ?_, hm⟩
  calc unitsOf m ≤ 2 ^ 53 * 2 ^ 1074 := by rw [hm]; exact Nat.mul_le_mul_right _ hn
    _ = 2 ^ (53 + 1074) := by rw [pow_add]
    _ < 2 ^ (52 + 2046) := by gcongr <;> norm_num
    _ = unitsOf infBits64 := by rw [unitsOf_infBits64, pow_add]

/-- An integer of at most 53 bits is a binary64 value: it is packed without rounding. -/
theorem fofRatio_int {n : Nat} (hn : n ≤ 2 ^ 53) :
    ∃ m, m < infBits64 ∧ unitsOf m = n * unitsPerOne ∧ fofRatio n 1 = fpack false m := by
  obtain ⟨m, hlt, hm⟩ := exists_unitsOf_int hn
  exact ⟨m, hlt, hm, by rw [fofRatio, roundMag_exact one_pos hlt.le (by rw [hm, Nat.mul_one])]⟩

theorem fmag_fofRatio_int {n : Nat} (hn : n ≤ 2 ^ 53) : fmag (fofRatio n 1) = n * unitsPerOne := by
  obtain ⟨m, hlt, hm, he⟩ := fofRatio_int hn
  rw [he, fmag_fpack _ (lt_trans hlt (by norm_num [infBits64])), hm]

theorem finite_fofRatio_int {n : Nat} (hn : n ≤ 2 ^ 53) : fIsFinite (fofRatio n 1) = true := by
  obtain ⟨m, hlt, -, he⟩ := fofRatio_int hn
  rw [he]
  exact finite_fpack _ hlt

theorem fmag_fofRatio_int_ne_zero {n : Nat} (h0 : 0 < n) (hn : n ≤ 2 ^ 53) : fmag (fofRatio n 1) ≠ 0 := by
  rw [fmag_fofRatio_int hn]
  exact (Nat.mul_pos h0 unitsPerOne_pos).ne'

theorem le_unitsPerOne {n : Nat} (hn : n ≤ 2 ^ 24) : n ≤ unitsPerOne :=
  hn.trans (by unfold unitsPerOne; gcongr <;> norm_num)

theorem fmag_agcBase : fmag agcBase = unitsOf (roundMag (1 * unitsPerOne) 1000) := by
  rw [agcBase, fofRatio, fmag_fpack _ (roundMag_lt _ _)]

/-- `AGC_BASE`, 0.001, is far above the least units: it is at least the largest `K_F`, counted in units. -/
theorem le_fmag_agcBase : 13986 ≤ fmag agcBase := by
  have hsmall : unitsOf 13986 = 13986 := unitsOf_small (by norm_num)
  have hle : 13986 ≤ roundMag (1 * unitsPerOne) 1000 := by
    refine le_roundMag (by norm_num) (by norm_num [infBits64]) ?_
    rw [hsmall, Nat.one_mul]
    exact le_unitsPerOne (by norm_num)
  rw [fmag_agcBase]
  exact hsmall ▸ unitsOf_le_iff.2 hle

theorem fmag_agcBase_le_fone : fmag agcBase ≤ fmag fone := by
  obtain ⟨m, -, hm⟩ := exists_unitsOf_int (n := 1) (by norm_num)
  rw [fmag_agcBase, fone, fmag_fofRatio_int (by norm_num), ← hm]
  exact unitsOf_le_iff.2 (roundMag_le (by norm_num) (Nat.le_mul_of_pos_right _ (by norm_num)))

theorem fsign_agcBase : fsign agcBase = false := fsign_fofRatio 1 1000

theorem finite_agcBase : fIsFinite agcBase = true :=
  finite_of_fmag_le (finite_fofRatio_int (by norm_num)) fmag_agcBase_le_fone

/-- Doubling a value is exact short of overflow: only the exponent changes. -/
theorem fval_fmul_two {x : F64} (hx : fIsFinite x = true) (h : 2 * fmag x < unitsOf infBits64) :
    fval (fmul x (fofRatio 2 1)) = 2 * fval x := by
  obtain ⟨m, hm⟩ : ∃ m, unitsOf m = 2 * fmag x := ⟨_, by rw [fmag_eq_unitsOf, unitsOf_double]⟩
  have hround : roundMag (fmag x * fmag (fofRatio 2 1)) unitsPerOne = m := by
    refine roundMag_exact unitsPerOne_pos (unitsOf_lt_iff.1 (by rw [hm]; exact h)).le ?_
    rw [fmag_fofRatio_int (by norm_num), hm, ← Nat.mul_assoc, Nat.mul_comm 2]
  have hlt : m < 2 ^ 63 := hround ▸ roundMag_lt _ _
  rw [fmul_finite hx (finite_fofRatio_int (by norm_num)), hround, fval_fpack _ hlt, fsign_fofRatio, hm, fval]
  cases fsign x <;> simp

/-! ## `K_F` -/

theorem refRate_bounds (v : Variant) : 1200 ≤ refRate v ∧ refRate v ≤ 8000 := by
  cases v <;> decide

/-- `K_F` lies in [1, 13986]: both ends are binary64 values, so rounding keeps `CFG_RATE / K_REF` between them; the upper
end is 6 times the greatest delay length. -/
theorem fmag_sampleRateFactor_bounds (v : Variant) {rate : BitVec 24} (hr : 8000 ≤ rate.toNat) :
    unitsPerOne ≤ fmag (sampleRateFactor v rate) ∧ fmag (sampleRateFactor v rate) ≤ 13986 * unitsPerOne := by
  obtain ⟨hlo, hhi⟩ := refRate_bounds v
  have hrate := rate.isLt
  have hr53 : rate.toNat ≤ 2 ^ 53 := by omega
  have hv53 : refRate v ≤ 2 ^ 53 := by omega
  have hx := finite_fofRatio_int hr53
  have hy := finite_fofRatio_int hv53
  have h0 := fmag_fofRatio_int_ne_zero (by omega) hv53
  have hmr := fmag_fofRatio_int hr53
  have hmv := fmag_fofRatio_int hv53
  constructor
  · have hone : fmag (fofRatio 1 1) = unitsPerOne := by rw [fmag_fofRatio_int (by norm_num), Nat.one_mul]
    rw [← hone]
    refine fmag_le_fmag_fdiv hx hy h0 (finite_fofRatio_int (by norm_num)) ?_
    rw [hone, hmr, hmv, Nat.mul_comm]
    exact Nat.mul_le_mul_right _ (Nat.mul_le_mul_right _ (by omega))
  · rw [← fmag_fofRatio_int (n := 13986) (by norm_num)]
    refine fmag_fdiv_le_fmag hx hy h0 ?_
    rw [hmr, hmv, fmag_fofRatio_int (by norm_num)]
    generalize unitsPerOne = u
    calc rate.toNat * u * u ≤ 13986 * refRate v * u * u :=
          Nat.mul_le_mul_right _ (Nat.mul_le_mul_right _ (by omega))
      _ = 13986 * u * (refRate v * u) := by ring

theorem finite_sampleRateFactor (v : Variant) {rate : BitVec 24} (hr : 8000 ≤ rate.toNat) :
    fIsFinite (sampleRateFactor v rate) = true :=
  finite_of_fmag_le (z := fofRatio 13986 1) (finite_fofRatio_int (by norm_num))
    (by rw [fmag_fofRatio_int (by norm_num)]; exact (fmag_sampleRateFactor_bounds v hr).2)

theorem fmag_sampleRateFactor_ne_zero (v : Variant) {rate : BitVec 24} (hr : 8000 ≤ rate.toNat) :
    fmag (sampleRateFactor v rate) ≠ 0 :=
  (lt_of_lt_of_le unitsPerOne_pos (fmag_sampleRateFactor_bounds v hr).1).ne'

theorem fsign_sampleRateFactor (v : Variant) (rate : BitVec 24) : fsign (sampleRateFactor v rate) = false := by
  obtain ⟨hlo, hhi⟩ := refRate_bounds v
  have hrate := rate.isLt
  have hv53 : refRate v ≤ 2 ^ 53 := by omega
  rw [sampleRateFactor, fsign_fdiv (finite_fofRatio_int (by omega)) (finite_fofRatio_int hv53)
    (fmag_fofRatio_int_ne_zero (by omega) hv53), fsign_fofRatio, fsign_fofRatio]
  rfl

theorem fone_le_sampleRateFactor (v : Variant) {rate : BitVec 24} (hr : 8000 ≤ rate.toNat) :
    fle fone (sampleRateFactor v rate) := by
  refine ⟨fofRatio_not_nan 1 1, not_nan_of_finite (finite_sampleRateFactor v hr), ?_⟩
  rw [fone, fval_of_fsign_false (fsign_fofRatio 1 1), fval_of_fsign_false (fsign_sampleRateFactor v rate),
    fmag_fofRatio_int (by norm_num), Nat.one_mul]
  exact_mod_cast (fmag_sampleRateFactor_bounds v hr).1

/-! ## The constants derived from `K_F` -/

section
variable (v : Variant) (rate : BitVec 24)

@[simp] theorem derivedConstants_f : (derivedConstants v rate).f = sampleRateFactor v rate := by rw [derivedConstants]
@[simp] theorem derivedConstants_alpha :
    (derivedConstants v rate).alpha = fdiv agcBase (sampleRateFactor v rate) := by rw [derivedConstants]
@[simp] theorem derivedConstants_dlen :
    (derivedConstants v rate).dlen = BitVec.ofNat 12 (fceil (fdiv (sampleRateFactor v rate) delayDiv)) := by rw [derivedConstants]
@[simp] theorem derivedConstants_edgeMin :
    (derivedConstants v rate).edgeMin = fmul (sampleRateFactor v rate) edgeMinFactor := by rw [derivedConstants]
@[simp] theorem derivedConstants_ovfMin :
    (derivedConstants v rate).ovfMin = fmul (sampleRateFactor v rate) ovfFactor := by rw [derivedConstants]

end

/-- `ceil(fl(K_F / 6))` before it is stored in `K_DLEN`'s 12 bits. -/
theorem delayLength_bounds (v : Variant) {rate : BitVec 24} (hr : 8000 ≤ rate.toNat) :
    1 ≤ fceil (fdiv (sampleRateFactor v rate) delayDiv) ∧
      fceil (fdiv (sampleRateFactor v rate) delayDiv) ≤ 2331 := by
  obtain ⟨hlo, hhi⟩ := fmag_sampleRateFactor_bounds v hr
  have hf := finite_sampleRateFactor v hr
  have hsix : fIsFinite delayDiv = true := finite_fofRatio_int (by norm_num)
  have hmag : fmag delayDiv = 6 * unitsPerOne := fmag_fofRatio_int (by norm_num)
  have h0 : fmag delayDiv ≠ 0 := fmag_fofRatio_int_ne_zero (by norm_num) (by norm_num)
  constructor
  · refine fceil_pos (fmag_fdiv_pos hf hsix h0 ?_)
    rw [hmag]
    exact Nat.mul_le_mul_right _ ((le_unitsPerOne (by norm_num)).trans hlo)
  · refine fceil_le ?_
    rw [← fmag_fofRatio_int (n := 2331) (by norm_num)]
    refine fmag_fdiv_le_fmag hf hsix h0 ?_
    rw [hmag, fmag_fofRatio_int (by norm_num)]
    generalize unitsPerOne = u at *
    calc fmag (sampleRateFactor v rate) * u ≤ 13986 * u * u := Nat.mul_le_mul_right _ hhi
      _ = 2331 * u * (6 * u) := by ring

/-- `K_DLEN` holds the delay length untruncated. -/
theorem derivedConstants_dlen_toNat (v : Variant) {rate : BitVec 24} (hr : 8000 ≤ rate.toNat) :
    (derivedConstants v rate).dlen.toNat = fceil (fdiv (sampleRateFactor v rate) delayDiv) := by
  obtain ⟨-, hhi⟩ := delayLength_bounds v hr
  rw [derivedConstants_dlen, BitVec.toNat_ofNat, Nat.mod_eq_of_lt (lt_of_le_of_lt hhi (by norm_num))]

theorem fsign_alpha (v : Variant) {rate : BitVec 24} (hr : 8000 ≤ rate.toNat) :
    fsign (derivedConstants v rate).alpha = false := by
  rw [derivedConstants_alpha,
    fsign_fdiv finite_agcBase (finite_sampleRateFactor v hr) (fmag_sampleRateFactor_ne_zero v hr),
    fsign_sampleRateFactor, fsign_agcBase]
  rfl

/-- `0.001 / K_F` is at least one unit, so `K_ALPHA` does not round to zero. -/
theorem alpha_pos (v : Variant) {rate : BitVec 24} (hr : 8000 ≤ rate.toNat) :
    0 < fval (derivedConstants v rate).alpha := by
  rw [fval_of_fsign_false (fsign_alpha v hr), derivedConstants_alpha, Int.natCast_pos]
  refine fmag_fdiv_pos finite_agcBase (finite_sampleRateFactor v hr) (fmag_sampleRateFactor_ne_zero v hr) ?_
  exact (fmag_sampleRateFactor_bounds v hr).2.trans (Nat.mul_le_mul_right _ le_fmag_agcBase)

/-- Dividing by `K_F >= 1` does not raise 0.001. -/
theorem alpha_le_agcBase (v : Variant) {rate : BitVec 24} (hr : 8000 ≤ rate.toNat) :
    fle (derivedConstants v rate).alpha agcBase := by
  have hf := finite_sampleRateFactor v hr
  have h0 := fmag_sampleRateFactor_ne_zero v hr
  have hle : fmag (fdiv agcBase (sampleRateFactor v rate)) ≤ fmag agcBase :=
    fmag_fdiv_le_fmag finite_agcBase hf h0 (Nat.mul_le_mul_left _ (fmag_sampleRateFactor_bounds v hr).1)
  rw [fle, fval_of_fsign_false (fsign_alpha v hr), fval_of_fsign_false fsign_agcBase, derivedConstants_alpha]
  exact ⟨fdiv_not_nan finite_agcBase hf h0, not_nan_of_finite finite_agcBase, Int.ofNat_le.2 hle⟩

/-! ## The obligations -/

/-- Settles O16: each constant is bounded through the range [1, 13986] of `K_F`. -/
theorem derivedConstantsInRange : Obligations.DerivedConstantsInRange := by
  intro v rate hr
  obtain ⟨hlo, hhi⟩ := delayLength_bounds v hr
  have hdlen := derivedConstants_dlen_toNat v hr
  exact ⟨hdlen ▸ hlo, hdlen ▸ hhi, hdlen, finite_sampleRateFactor v hr, fone_le_sampleRateFactor v hr,
    alpha_pos v hr, alpha_le_agcBase v hr⟩

/-- Settles O17: doubling is exact, and `K_F` is far below overflow. -/
theorem overflowLimitIsExactlyTwoChips : Obligations.OverflowLimitIsExactlyTwoChips := by
  intro v rate hr
  rw [derivedConstants_ovfMin, derivedConstants_f, ovfFactor]
  refine fval_fmul_two (finite_sampleRateFactor v hr) ?_
  obtain ⟨m, hlt, hm⟩ := exists_unitsOf_int (n := 27972) (by norm_num)
  calc 2 * fmag (sampleRateFactor v rate) ≤ 2 * (13986 * unitsPerOne) :=
        Nat.mul_le_mul_left _ (fmag_sampleRateFactor_bounds v hr).2
    _ = unitsOf m := by rw [hm, ← Nat.mul_assoc]
    _ < unitsOf infBits64 := unitsOf_lt_iff.2 hlt

end Sys2Proof.Machine
end

section
/-! PROOFS. What a command, a SAMPLE and a step can do to the whole state, said once: `exec_cases`, `step_keeps` and
`StagesKeep`. The statements about the frame and the growth of `EVQ` follow from them. -/

namespace Sys2Proof.Machine

/-! ## One EdgeDetector step, one command, one step -/

/-- `p` is kept by every stage of an EdgeDetector step on the conditioned sample `c` (42_edge_detector.md R64). -/
structure StagesKeep (c : F64) (p : State → Prop) : Prop where
  delay : ∀ s, p s → p (edDelay c s)
  chip : ∀ b s, p s → p (chip b s)
  flip : ∀ s, p s → p (edFlip s)
  takeChip : ∀ s, p s → p (edTakeChip s)
  tick : ∀ s, p s → p (edTick s)
  distortion : ∀ s, p s → p (edDistortion c s)

theorem edAction_keeps {c : F64} {p : State → Prop} (h : StagesKeep c p) (d : F64) (s : State) (hs : p s) :
    p (edAction d c s) := by
  rcases edAction_cases d c s with ⟨-, he⟩ | ⟨-, -, he⟩ | ⟨-, -, he⟩ <;> rw [he]
  · exact h.flip _ (repeatChip_keeps _ (h.chip _) _ s hs)
  · exact h.takeChip _ (h.chip _ s hs)
  · exact hs

theorem edgeStep_keeps {c : F64} {p : State → Prop} (h : StagesKeep c p) (s : State) (hs : p s) : p (edgeStep c s) :=
  h.distortion _ (h.tick _ (edAction_keeps h _ _ (h.delay s hs)))

theorem samplePipeline_eq (c0 c1 : F32) (s : State) :
    samplePipeline c0 c1 s =
      edgeStep (agcCondition (agcUpdate (agcInput s.cfg.bal c0 c1) s).agcP (agcInput s.cfg.bal c0 c1))
        (agcUpdate (agcInput s.cfg.bal c0 c1) s) := rfl

/-- What a command can do: nothing, a SAMPLE's pipeline while configured, or a RESET. -/
theorem exec_cases {i : Instr} {s t : State} (h : exec i s = .next t) :
    t = s ∨ (∃ c0 c1, s.cfg.configured = true ∧ t = samplePipeline c0 c1 s) ∨
      ∃ v ig rate bal, i = .reset v ig rate bal ∧ t = clearDecoder v (latchConfig v rate bal s) := by
  cases i with
  | nop o => exact Or.inl (Host.Outcome.next.inj h).symm
  | sample c0 c1 =>
    have ht := (Host.Outcome.next.inj h).symm
    rcases hc : s.cfg.configured
    · exact Or.inl (ht.trans (if_neg (by simp [hc])))
    · exact Or.inr (Or.inl ⟨c0, c1, rfl, ht.trans (if_pos hc)⟩)
  | reset v ig rate bal => exact Or.inr (Or.inr ⟨v, ig, rate, bal, rfl, (Host.Outcome.next.inj h).symm⟩)
  | reserved o => exact Or.inl (Host.Outcome.next.inj h).symm

/-- A property that taking a command, a SAMPLE's pipeline and a RESET keep is kept by every step. -/
theorem step_keeps {p : State → Prop} (htake : ∀ rest s, p s → p { s with cmdIn := rest })
    (hsample : ∀ c0 c1 s, s.cfg.configured = true → p s → p (samplePipeline c0 c1 s))
    (hreset : ∀ v rate bal s, p s → p (clearDecoder v (latchConfig v rate bal s)))
    {s t : State} (hs : p s) (hstep : step s = .next t) : p t := by
  rcases step_cases s with ⟨-, h⟩ | ⟨w, rest, -, h⟩ <;> rw [h] at hstep
  · exact Host.Outcome.next.inj hstep ▸ hs
  · rcases exec_cases hstep with rfl | ⟨c0, c1, hc, rfl⟩ | ⟨v, ig, rate, bal, -, rfl⟩
    · exact htake rest s hs
    · exact hsample c0 c1 _ hc (htake rest s hs)
    · exact hreset v rate bal _ (htake rest s hs)

/-! ## What an EdgeDetector step leaves unchanged -/

/-- The configuration, the derived constants and the power of `s` stand in `t`. -/
structure ConditionerFrame (s t : State) : Prop where
  cfg : t.cfg = s.cfg
  k : t.k = s.k
  agcP : t.agcP = s.agcP

theorem ConditionerFrame.stagesKeep (s : State) (c : F64) : StagesKeep c (ConditionerFrame s) where
  delay _ h := ⟨h.cfg, h.k, h.agcP⟩
  chip b t h :=
    have f := (chip_effect b t).1
    ⟨f.cfg.trans h.cfg, f.k.trans h.k, f.agcP.trans h.agcP⟩
  flip _ h := ⟨h.cfg, h.k, h.agcP⟩
  takeChip _ h := ⟨h.cfg, h.k, h.agcP⟩
  tick _ h := ⟨h.cfg, h.k, h.agcP⟩
  distortion _ h := ⟨h.cfg, h.k, h.agcP⟩

theorem edgeStep_frame (c : F64) (s : State) : ConditionerFrame s (edgeStep c s) :=
  edgeStep_keeps (ConditionerFrame.stagesKeep s c) s ⟨rfl, rfl, rfl⟩

@[simp] theorem samplePipeline_cfg (c0 c1 : F32) (s : State) : (samplePipeline c0 c1 s).cfg = s.cfg := by
  rw [samplePipeline_eq, (edgeStep_frame _ _).cfg, agcUpdate_cfg]

@[simp] theorem samplePipeline_k (c0 c1 : F32) (s : State) : (samplePipeline c0 c1 s).k = s.k := by
  rw [samplePipeline_eq, (edgeStep_frame _ _).k, agcUpdate_k]

@[simp] theorem samplePipeline_agcP (c0 c1 : F32) (s : State) :
    (samplePipeline c0 c1 s).agcP = agcPower s.k.alpha s.agcP (agcInput s.cfg.bal c0 c1) := by
  rw [samplePipeline_eq, (edgeStep_frame _ _).agcP, agcUpdate_agcP]

/-- The floor of 41_agc.md R59, whatever the estimate before it and the constants. -/
theorem eps_le_agcPower (alpha p x : F64) : fle eps (agcPower alpha p x) := by
  obtain ⟨hnan, hle, -⟩ := fmaxNum_spec (b := fadd p (fmul (fsub (fmul x x) p) alpha)) (fofRatio_not_nan 1 10000)
  exact ⟨fofRatio_not_nan 1 10000, hnan, hle⟩

/-! ## `EVQ` only grows -/

theorem ChipEffect.evq_prefix {s t : State} (h : ChipEffect s t) : s.evq <+: t.evq := by
  rcases h.2 with ⟨he, -⟩ | ⟨x, he, -⟩ <;> rw [he]
  exact List.prefix_append _ _

theorem evqPrefix_stagesKeep (l : List Snapshot) (c : F64) : StagesKeep c (fun t => l <+: t.evq) where
  delay _ h := h
  chip b t h := h.trans (chip_effect b t).evq_prefix
  flip _ h := h
  takeChip _ h := h
  tick _ h := h
  distortion _ h := h

/-! ## The obligations -/

/-- Settles O18: the pipeline runs behind the test of CONFIGURED. -/
theorem sampleIgnoredWhileUnconfigured : Obligations.SampleIgnoredWhileUnconfigured := by
  intro c0 c1 s h
  exact congrArg Host.Outcome.next (if_neg (by simp [h]))

/-- Settles O24: `AGC_P` is the larger of EPS and an update, and no later stage writes it. -/
theorem powerNeverBelowFloor : Obligations.PowerNeverBelowFloor := by
  intro c0 c1 s h
  refine ⟨samplePipeline c0 c1 s, congrArg Host.Outcome.next (if_pos h), ?_⟩
  rw [samplePipeline_agcP]
  exact eps_le_agcPower _ _ _

/-- Settles O51: a SAMPLE keeps both groups of registers, and NOP and the reserved selector keep everything. -/
theorem onlyResetWritesTheConfiguration : Obligations.OnlyResetWritesTheConfiguration := by
  intro i s t hi h
  rcases exec_cases h with rfl | ⟨c0, c1, -, rfl⟩ | ⟨v, ig, rate, bal, hr, -⟩
  · exact ⟨rfl, rfl⟩
  · exact ⟨samplePipeline_cfg c0 c1 s, samplePipeline_k c0 c1 s⟩
  · exact absurd hr (hi v ig rate bal)

/-- Settles O50: that `EVQ` begins with the old events is kept by every stage of every command. -/
theorem eventStreamOnlyGrows : Obligations.EventStreamOnlyGrows := by
  intro s t h
  obtain ⟨new, hnew⟩ : s.evq <+: t.evq :=
    step_keeps (p := fun t => s.evq <+: t.evq) (fun _ _ ht => ht)
      (fun _ _ u _ hu => edgeStep_keeps (evqPrefix_stagesKeep s.evq _) _ hu)
      (fun v rate bal u hu => by simpa using hu) (List.prefix_refl _) h
  exact ⟨new, hnew.symm⟩

end Sys2Proof.Machine
end

section
/-! PROOFS. Every step keeps the configuration and the delay line's cursor in range. -/

namespace Sys2Proof.Machine

theorem rate_ge_of_legalConfig {rate : BitVec 24} {bal : F32} (h : legalConfig rate bal = true) : 8000 ≤ rate.toNat := by
  simp only [legalConfig, Bool.and_eq_true, decide_eq_true_eq] at h
  exact h.1.1

theorem f32IsFinite_of_legalConfig {rate : BitVec 24} {bal : F32} (h : legalConfig rate bal = true) :
    f32IsFinite bal = true := by
  simp only [legalConfig, Bool.and_eq_true] at h
  exact h.2

/-- A RESET that leaves SMDEC configured latched a legal configuration with its own constants. -/
theorem reset_configOk (v : Variant) (rate : BitVec 24) (bal : F32) (s : State) :
    ConfigOk (clearDecoder v (latchConfig v rate bal s)) := by
  intro hc
  rw [clearDecoder_cfg, latchConfig_cfg] at hc ⊢
  exact ⟨bal, hc, rfl, (latchConfig_legal hc s).1⟩

/-- A configured SMDEC within `ConfigOk` has a delay line of at least one entry (10_state.md R15). -/
theorem dlen_pos_of_configOk {s : State} (hc : s.cfg.configured = true) (h : ConfigOk s) : 0 < s.k.dlen.toNat := by
  obtain ⟨bal, hlegal, -, hk⟩ := h hc
  have hr := rate_ge_of_legalConfig hlegal
  rw [hk, derivedConstants_dlen_toNat _ hr]
  exact (delayLength_bounds _ hr).1

/-- The cursor's advance modulo `K_DLEN` stays below `K_DLEN` (42_edge_detector.md R65). -/
theorem delayPush_dlPtr_lt {dlen : BitVec 12} (h : 0 < dlen.toNat) (c : F64) (e : EdgeRegs) :
    (delayPush dlen c e).dlPtr.toNat < dlen.toNat := by
  have hmod := Nat.mod_lt (e.dlPtr.toNat + 1) h
  have hdlen := dlen.isLt
  rw [delayPush_dlPtr, BitVec.toNat_ofNat, Nat.mod_eq_of_lt (hmod.trans hdlen)]
  exact hmod

theorem ChipFrame.configOk {s t : State} (f : ChipFrame s t) (h : ConfigOk s) : ConfigOk t := by
  unfold ConfigOk
  rw [f.cfg, f.k]
  exact h

theorem configInv_stagesKeep (c : F64) : StagesKeep c ConfigInv where
  delay _ h := ⟨h.1, fun hc => delayPush_dlPtr_lt (dlen_pos_of_configOk hc h.1) c _⟩
  chip b s h := by
    have f := (chip_effect b s).1
    refine ⟨f.configOk h.1, ?_⟩
    rw [CursorOk, f.cfg, f.k, f.edge]
    exact h.2
  flip _ h := h
  takeChip _ h := h
  tick _ h := h
  distortion _ h := h

theorem reset_configInv (v : Variant) (rate : BitVec 24) (bal : F32) (s : State) :
    ConfigInv (clearDecoder v (latchConfig v rate bal s)) :=
  have h := reset_configOk v rate bal s
  ⟨h, fun hc => dlen_pos_of_configOk hc h⟩

/-- Settles O54: a RESET establishes the invariant, and every stage of a SAMPLE keeps it. -/
theorem everyStepKeepsConfigInv : Obligations.EveryStepKeepsConfigInv := by
  intro s t hs hstep
  exact step_keeps (p := ConfigInv) (fun _ _ h => h)
    (fun _ _ u _ h => edgeStep_keeps (configInv_stagesKeep _) (agcUpdate _ u) h)
    (fun v rate bal u _ => reset_configInv v rate bal u) hs hstep

end Sys2Proof.Machine
end

section
/-! PROOFS. Every step keeps the counters in range, the registers of the variant not selected at reset, and the integer
fields of every snapshot. A chip of the standard framer is followed through its registers alone, then one of the fast
framer; the snapshots they emit are followed apart from the registers. -/

namespace Sys2Proof.Machine

/-! ## Snapshots -/

theorem emit_everySnapshot {q : Snapshot → Prop} {x : Snapshot} {s : State} (hx : q x) (hs : EverySnapshot q s) :
    EverySnapshot q (emit x s) := by
  refine ⟨hx, fun y hy => ?_⟩
  rcases List.mem_append.1 hy with h | h
  · exact hs.2 y h
  · exact List.mem_singleton.1 h ▸ hx

theorem greenFlag_implies_both_hands {h : Byte} (hg : greenFlag h = true) : leftFlag h = true ∧ rightFlag h = true := by
  have hA : h = chA := by simpa [greenFlag] using hg
  subst hA
  decide

/-- A derivation keeps the integer fields in range when its time and its unit are in range. -/
theorem sdDerive_fieldsOk {h : Byte} {t : Nat} {u : BitVec 4} {s : State} (hu : u = 1 ∨ u = 10) (ht : t ≤ 1666665)
    (hs : EverySnapshot SnapshotFieldsOk s) : EverySnapshot SnapshotFieldsOk (sdDerive h t u s) := by
  refine emit_everySnapshot ⟨hu, ?_, greenFlag_implies_both_hands⟩ hs
  change (BitVec.ofNat 32 t).toNat ≤ 1666665
  rw [BitVec.toNat_ofNat]
  exact (Nat.mod_le _ _).trans ht

theorem idleTests_fieldsOk (off ka : Nat) (clamp : BitVec 32) {s : State} (hs : EverySnapshot SnapshotFieldsOk s) :
    EverySnapshot SnapshotFieldsOk (idleTests off ka clamp s) := by
  rcases idleTests_cases off ka clamp s with ⟨-, -, h⟩ | ⟨-, -, h⟩ | ⟨-, -, h⟩ <;> rw [h]
  · exact emit_everySnapshot hs.1 hs
  · exact emit_everySnapshot hs.1 hs
  · exact hs

/-! ## Times (30_encoding.md R49) -/

theorem digitVal_le {b : Byte} (h : isDigit b = true) : digitVal b ≤ 9 := by
  simp only [isDigit, Bool.and_eq_true, decide_eq_true_eq, show ch9.toNat = 57 from rfl, show ch0.toNat = 48 from rfl] at h
  simp only [digitVal, show ch0.toNat = 48 from rfl]
  omega

/-- The payload digits of an accepted message stand at positions `1..n-4`. -/
theorem digitAt_le {n i : Nat} {buf : Vector Byte 10} (h : fdAccepts n buf = true) (h1 : 1 ≤ i) (hi : i ≤ n - 4) :
    digitAt buf i ≤ 9 := by
  simp only [fdAccepts, Bool.and_eq_true, fdDigits, List.all_eq_true, payload, List.mem_map, List.mem_range] at h
  obtain ⟨⟨-, hdigits⟩, -⟩ := h
  exact digitVal_le (hdigits _ ⟨i - 1, by omega, by rw [Nat.sub_add_cancel h1]⟩)

/-- Nine minutes, ninety-nine seconds and 999 milliseconds at most. -/
theorem fdTime_le {n : Nat} {buf : Vector Byte 10} (hn : n = 9 ∨ n = 10) (h : fdAccepts n buf = true) :
    fdTime n buf ≤ 639999 := by
  have h1 := digitAt_le (i := 1) h (by omega) (by omega)
  have h2 := digitAt_le (i := 2) h (by omega) (by omega)
  have h3 := digitAt_le (i := 3) h (by omega) (by omega)
  have h4 := digitAt_le (i := 4) h (by omega) (by omega)
  have h5 := digitAt_le (i := 5) h (by omega) (by omega)
  unfold fdTime
  simp only
  split
  next h10 =>
    have h6 := digitAt_le (i := 6) h (by omega) (by omega)
    omega
  · omega

theorem fdUnit_cases (n : Nat) : fdUnit n = 1 ∨ fdUnit n = 10 := by
  unfold fdUnit
  split
  · exact Or.inr rfl
  · exact Or.inl rfl

theorem fastDigit_le (chips : Vector Chip 24) (g : Nat) : fastDigit chips g ≤ 15 := by
  have hbit (j : Nat) : (chips.getD (4 * g + j) false).toNat ≤ 1 := Bool.toNat_le _
  have h0 := hbit 0
  have h1 := hbit 1
  have h2 := hbit 2
  have h3 := hbit 3
  simp only [fastDigit, List.range, List.range.loop, List.map_cons, List.map_nil, List.sum_cons, List.sum_nil,
    Nat.shiftLeft_eq]
  omega

/-- Six digits of at most 15 give at most `15 × 111111`. -/
theorem fastTime_le (chips : Vector Chip 24) : fastTime chips ≤ 1666665 := by
  have hd := fastDigit_le chips
  have h0 := hd 0
  have h1 := hd 1
  have h2 := hd 2
  have h3 := hd 3
  have h4 := hd 4
  have h5 := hd 5
  simp only [fastTime, List.range, List.range.loop, List.foldl_cons, List.foldl_nil]
  omega

/-! ## Snapshots of a chip -/

theorem fdDecode_fieldsOk {s : State} (hs : EverySnapshot SnapshotFieldsOk s) :
    EverySnapshot SnapshotFieldsOk (fdDecode s) := by
  rcases fdDecode_cases s with h | ⟨n, hn, -, hacc, h⟩ <;> rw [h]
  · exact hs
  · exact sdDerive_fieldsOk (fdUnit_cases n) ((fdTime_le hn hacc).trans (by norm_num)) hs

theorem stdChip_fieldsOk (b : Chip) {s : State} (hs : EverySnapshot SnapshotFieldsOk s) :
    EverySnapshot SnapshotFieldsOk (stdChip b s) := by
  rcases stdChip_cases b s with ⟨-, h⟩ | ⟨-, h⟩ <;> rw [h]
  · exact idleTests_fieldsOk _ _ _ hs
  · rcases frAccumulate_cases b (setFr (frRun b s.fr) s) with ⟨-, h⟩ | ⟨-, -, h⟩ | ⟨-, -, h⟩ <;> rw [h]
    · exact hs
    · exact fdDecode_fieldsOk hs
    · exact hs

theorem fastChip_fieldsOk (b : Chip) {s : State} (hs : EverySnapshot SnapshotFieldsOk s) :
    EverySnapshot SnapshotFieldsOk (fastChip b s) := by
  rcases fastChip_cases b s with ⟨-, h⟩ | ⟨-, -, h⟩ | ⟨-, -, -, -, h⟩ | ⟨-, -, -, h⟩ <;> rw [h]
  · exact idleTests_fieldsOk _ _ _ hs
  · rcases ffCollect_cases b (setFr (frRun b s.fr) s) with ⟨-, h⟩ | ⟨-, h⟩ <;> rw [h]
    · exact sdDerive_fieldsOk (Or.inl rfl) (fastTime_le _) hs
    · exact hs
  · exact hs
  · exact hs

/-! ## Counters of a chip -/

/-- `CHIP_CNT <= 9` and `BYTE_CNT <= 11` (10_state.md R20). -/
abbrev StdCountersOk (r : StdRegs) : Prop := r.chipCnt.toNat ≤ 9 ∧ r.byteCnt.toNat ≤ 11

/-- `FAST_CNT <= 24`, and below 24 in a frame (10_state.md R21). -/
abbrev FastCountersOk (r : FastRegs) : Prop := r.cnt.toNat ≤ 24 ∧ (r.inframe = true → r.cnt.toNat ≤ 23)

theorem countersOk_iff (s : State) : CountersOk s ↔ StdCountersOk s.std ∧ FastCountersOk s.fast := by
  rw [CountersOk, and_assoc]

theorem frStoreByte_byteCnt_le (x : Byte) (r : StdRegs) : (frStoreByte x r).byteCnt.toNat ≤ 11 := by
  rw [frStoreByte_byteCnt, BitVec.toNat_ofNat]
  exact (Nat.mod_le _ _).trans (Nat.min_le_right _ _)

/-- Storing a byte clears `CHIP_CNT`, and `BYTE_CNT` saturates (43_framer_standard.md R82). -/
theorem frByte_countersOk (s : State) : StdCountersOk (frByte s).std := by
  rw [frByte, frClearAcc_std, fdDecode_std, setStd_std]
  exact ⟨Nat.zero_le _, frStoreByte_byteCnt_le (frByteValue s.fr.idleVal s.std.chipAcc) s.std⟩

theorem stdChip_countersOk (b : Chip) {s : State} (hs : StdCountersOk s.std) : StdCountersOk (stdChip b s).std := by
  obtain ⟨hchip, hbyte⟩ := hs
  rcases stdChip_cases b s with ⟨-, h⟩ | ⟨-, h⟩ <;> rw [h]
  · rw [idleTests_std]
    exact ⟨Nat.zero_le _, Nat.zero_le _⟩
  · rcases frAccumulate_cases b (setFr (frRun b s.fr) s) with ⟨hne, h⟩ | ⟨-, -, h⟩ | ⟨-, -, h⟩ <;> rw [h]
    · refine ⟨?_, hbyte⟩
      rw [setFr_std, stdFrameChips, BitVec.toNat_add, show (1 : BitVec 4).toNat = 1 from rfl] at hne
      rw [setStd_std, frAppend_chipCnt, setFr_std, BitVec.toNat_add, show (1 : BitVec 4).toNat = 1 from rfl]
      omega
    · exact frByte_countersOk _
    · exact ⟨le_rfl, hbyte⟩

theorem fastChip_countersOk (b : Chip) {s : State} (hs : FastCountersOk s.fast) :
    FastCountersOk (fastChip b s).fast := by
  obtain ⟨hcnt, hframe⟩ := hs
  rcases fastChip_cases b s with ⟨-, h⟩ | ⟨-, hin, h⟩ | ⟨-, -, -, -, h⟩ | ⟨-, -, -, h⟩ <;> rw [h]
  · rw [ffIdle, idleTests_fast]
    exact ⟨Nat.zero_le _, fun _ => Nat.zero_le _⟩
  · have hlt := hframe hin
    have hsucc : (s.fast.cnt + 1).toNat = s.fast.cnt.toNat + 1 := by
      rw [BitVec.toNat_add, show (1 : BitVec 5).toNat = 1 from rfl]
      omega
    rcases ffCollect_cases b (setFr (frRun b s.fr) s) with ⟨hfull, h⟩ | ⟨hne, h⟩ <;> rw [h]
    · exact ⟨hfull.le, fun hc => by simp at hc⟩
    · rw [setFr_fast, hsucc, fastFrameChips] at hne
      rw [FastCountersOk, setFast_fast, ffStore_cnt, setFr_fast, hsucc]
      exact ⟨by omega, fun _ => by omega⟩
  · exact ⟨Nat.zero_le _, fun _ => Nat.zero_le _⟩
  · exact ⟨hcnt, hframe⟩

/-! ## The invariant -/

theorem chip_of_std {s : State} (hv : s.cfg.variant = .std) (b : Chip) : chip b s = stdChip b s := by rw [chip, hv]

theorem chip_of_fast {s : State} (hv : s.cfg.variant = .fast) (b : Chip) : chip b s = fastChip b s := by rw [chip, hv]

theorem unselectedAtReset_std {s : State} (hv : s.cfg.variant = .std) : UnselectedAtReset s ↔ s.fast = resetFast := by
  rw [UnselectedAtReset, hv]

theorem unselectedAtReset_fast {s : State} (hv : s.cfg.variant = .fast) : UnselectedAtReset s ↔ s.std = resetStd := by
  rw [UnselectedAtReset, hv]

/-- A chip goes to the framer of the variant, which keeps its own counters and leaves the other framer's registers. -/
theorem chip_registerInv (b : Chip) (s : State) (hs : RegisterInv s) : RegisterInv (chip b s) := by
  obtain ⟨hcounters, hunselected, hfields⟩ := hs
  obtain ⟨hstd, hfast⟩ := (countersOk_iff s).1 hcounters
  have hcfg := (chip_effect b s).1.cfg
  rw [RegisterInv, countersOk_iff]
  cases hv : s.cfg.variant with
  | std =>
    rw [unselectedAtReset_std (hcfg ▸ hv), chip_of_std hv, stdChip_fast]
    exact ⟨⟨stdChip_countersOk b hstd, hfast⟩, (unselectedAtReset_std hv).1 hunselected, stdChip_fieldsOk b hfields⟩
  | fast =>
    rw [unselectedAtReset_fast (hcfg ▸ hv), chip_of_fast hv, fastChip_std]
    exact ⟨⟨hstd, fastChip_countersOk b hfast⟩, (unselectedAtReset_fast hv).1 hunselected, fastChip_fieldsOk b hfields⟩

theorem registerInv_stagesKeep (c : F64) : StagesKeep c RegisterInv where
  delay _ h := h
  chip := chip_registerInv
  flip _ h := h
  takeChip _ h := h
  tick _ h := h
  distortion _ h := h

theorem resetSnapshot_fieldsOk (v : Variant) : SnapshotFieldsOk (resetSnapshot v) := by
  cases v <;> decide

theorem reset_registerInv (v : Variant) (rate : BitVec 24) (bal : F32) {s : State} (h : RegisterInv s) :
    RegisterInv (clearDecoder v (latchConfig v rate bal s)) := by
  obtain ⟨-, -, -, hevents⟩ := h
  refine ⟨by rw [countersOk_iff, clearDecoder_std, clearDecoder_fast]; decide, ?_, resetSnapshot_fieldsOk v, ?_⟩
  · cases hv : (clearDecoder v (latchConfig v rate bal s)).cfg.variant with
    | std => exact (unselectedAtReset_std hv).2 rfl
    | fast => exact (unselectedAtReset_fast hv).2 rfl
  · rw [clearDecoder_evq, latchConfig_evq]
    exact hevents

/-- Settles O53: only a chip and a RESET write a register the invariant speaks of, and both keep it. -/
theorem everyStepKeepsRegisterInv : Obligations.EveryStepKeepsRegisterInv := by
  intro s t hs hstep
  exact step_keeps (p := RegisterInv) (fun _ _ h => h)
    (fun _ _ u _ h => edgeStep_keeps (registerInv_stagesKeep _) (agcUpdate _ u) h)
    (fun v rate bal _ h => reset_registerInv v rate bal h) hs hstep

end Sys2Proof.Machine
end

section
/-! PROOFS. Every step keeps the signal path free of NaNs and within bounds. `MagLe n x` bounds a magnitude by `2^n` and
follows the operations from the sample to the conditioned sample; `smooth_bounds` is the one fact about the exponential
smoothing by which both `AGC_P` and `DIST` are updated. -/

namespace Sys2Proof.Machine

/-! ## Values below a power of two -/

theorem unitsOf_exponent (e : Nat) : unitsOf ((e + 1) * 2 ^ 52) = 2 ^ (52 + e) := by
  rw [unitsOf_normal (e := e) (by omega), Nat.mul_mod_left, Nat.add_zero, ← pow_add]

/-- The low bits of `2^n`, as `fpow2` packs them. -/
theorem unitsOf_two_pow (n : Nat) : unitsOf ((n + 1023) * 2 ^ 52) = 2 ^ (n + 1074) :=
  calc unitsOf ((n + 1022 + 1) * 2 ^ 52) = 2 ^ (52 + (n + 1022)) := unitsOf_exponent (n + 1022)
    _ = 2 ^ (n + 1074) := by rw [show 52 + (n + 1022) = n + 1074 by omega]

theorem two_pow_low_lt {n : Nat} (hn : n ≤ 1023) : (n + 1023) * 2 ^ 52 < infBits64 := by
  simp only [infBits64]
  omega

/-- `x` is finite and its magnitude is at most `2^n`. -/
structure MagLe (n : Nat) (x : F64) : Prop where
  finite : fIsFinite x = true
  fmag_le : fmag x ≤ 2 ^ (n + 1074)

theorem magLe_of_fmag_le {n : Nat} {x : F64} (hn : n ≤ 1023) (h : fmag x ≤ 2 ^ (n + 1074)) : MagLe n x := by
  refine ⟨(fIsFinite_iff x).2 (lt_of_le_of_lt (unitsOf_le_iff.1 ?_) (two_pow_low_lt hn)), h⟩
  rw [← fmag_eq_unitsOf, unitsOf_two_pow]
  exact h

theorem MagLe.mono {m n : Nat} {x : F64} (h : MagLe m x) (hmn : m ≤ n) : MagLe n x :=
  ⟨h.finite, h.fmag_le.trans (Nat.pow_le_pow_right two_pos (by omega))⟩

theorem magLe_fneg {n : Nat} {x : F64} (h : MagLe n x) : MagLe n (fneg x) :=
  ⟨by rw [fIsFinite_fneg, h.finite], by rw [fmag_eq_unitsOf, flow_fneg, ← fmag_eq_unitsOf]; exact h.fmag_le⟩

theorem magLe_fmul {m n : Nat} {x y : F64} (hx : MagLe m x) (hy : MagLe n y) (hmn : m + n ≤ 1023) :
    MagLe (m + n) (fmul x y) := by
  refine magLe_of_fmag_le hmn ?_
  rw [← unitsOf_two_pow]
  refine fmag_fmul_le hx.finite hy.finite ?_
  calc fmag x * fmag y ≤ 2 ^ (m + 1074) * 2 ^ (n + 1074) := Nat.mul_le_mul hx.fmag_le hy.fmag_le
    _ = 2 ^ (m + n + 1074) * unitsPerOne := by
      rw [unitsPerOne, ← pow_add, ← pow_add, show m + 1074 + (n + 1074) = m + n + 1074 + 1074 by omega]
    _ = unitsOf ((m + n + 1023) * 2 ^ 52) * unitsPerOne := by rw [unitsOf_two_pow]

theorem fval_bounds_of_fmag_le {x : F64} {b : Nat} (h : fmag x ≤ b) : -(b : Int) ≤ fval x ∧ fval x ≤ b := by
  rw [← natAbs_fval] at h
  omega

theorem fmag_le_of_fval_bounds {x : F64} {b : Nat} (hlo : -(b : Int) ≤ fval x) (hhi : fval x ≤ b) : fmag x ≤ b := by
  rw [← natAbs_fval]
  omega

theorem fpow2_natCast (n : Nat) : fpow2 n = fpack false ((n + 1023) * 2 ^ 52) := by
  rw [fpow2, show ((n : Int) + 1023).toNat = n + 1023 by omega]

theorem fmag_fpow2 {n : Nat} (hn : n ≤ 1023) : fmag (fpow2 n) = 2 ^ (n + 1074) := by
  rw [fpow2_natCast, fmag_fpack _ ((two_pow_low_lt hn).trans (by norm_num [infBits64])), unitsOf_two_pow]

theorem fval_fpow2 {n : Nat} (hn : n ≤ 1023) : fval (fpow2 n) = ((2 ^ (n + 1074) : Nat) : Int) := by
  rw [fval_of_fsign_false, fmag_fpow2 hn]
  rw [fpow2_natCast]
  exact fsign_fpack _ ((two_pow_low_lt hn).trans (by norm_num [infBits64]))

theorem finite_fpow2 {n : Nat} (hn : n ≤ 1023) : fIsFinite (fpow2 n) = true := by
  rw [fpow2_natCast]
  exact finite_fpack _ (two_pow_low_lt hn)

theorem magLe_fadd {n : Nat} {x y : F64} (hx : MagLe n x) (hy : MagLe n y) (hn : n + 1 ≤ 1023) :
    MagLe (n + 1) (fadd x y) := by
  have hz := finite_fpow2 hn
  have hv := fval_fpow2 hn
  have hpow : 2 ^ (n + 1 + 1074) = 2 * 2 ^ (n + 1074) := by rw [← pow_succ', show n + 1 + 1074 = n + 1074 + 1 by omega]
  obtain ⟨hx1, hx2⟩ := fval_bounds_of_fmag_le hx.fmag_le
  obtain ⟨hy1, hy2⟩ := fval_bounds_of_fmag_le hy.fmag_le
  refine magLe_of_fmag_le hn (fmag_le_of_fval_bounds ?_ ?_)
  · rw [← hv, ← fval_fneg]
    refine le_fadd hx.finite hy.finite (not_nan_of_finite (by rw [fIsFinite_fneg, hz])) ?_
    rw [fval_fneg, hv, hpow]
    omega
  · rw [← hv]
    refine fadd_le hx.finite hy.finite (not_nan_of_finite hz) ?_
    rw [hv, hpow]
    omega

theorem magLe_fsub {n : Nat} {x y : F64} (hx : MagLe n x) (hy : MagLe n y) (hn : n + 1 ≤ 1023) :
    MagLe (n + 1) (fsub x y) := magLe_fadd hx (magLe_fneg hy) hn

theorem unitsPerOne_le_two_pow (n : Nat) : unitsPerOne ≤ 2 ^ (n + 1074) := by
  rw [pow_add]
  exact Nat.le_mul_of_pos_left _ (by positivity)

theorem two_mul_two_pow_le {m n : Nat} (h : m < n) : 2 * 2 ^ (m + 1074) ≤ 2 ^ (n + 1074) := by
  rw [← pow_succ']
  exact Nat.pow_le_pow_right two_pos (by omega)

theorem magLe_fone : MagLe 0 fone :=
  ⟨finite_fofRatio_int (by norm_num), by rw [fone, fmag_fofRatio_int (by norm_num), Nat.one_mul, Nat.zero_add]⟩

theorem magLe_fzeroPos : MagLe 0 fzeroPos :=
  magLe_of_fmag_le (by norm_num) (by rw [← natAbs_fval, fzeroPos, fval_fzero]; exact Nat.zero_le _)

/-! ## From the sample to the conditioned sample -/

theorem f32Mag_le {b : F32} (h : f32IsFinite b = true) : f32Mag b ≤ 2 ^ 24 * 2 ^ 253 := by
  have hexp : (b.extractLsb 30 23).toNat ≤ 254 := by
    have hlt := (b.extractLsb 30 23).isLt
    have hne : (b.extractLsb 30 23).toNat ≠ 255 := fun hc => by
      simp only [f32IsFinite, bne_iff_ne, ne_eq] at h
      exact h (BitVec.eq_of_toNat_eq (by rw [hc]; rfl))
    omega
  have hfrac : (b.extractLsb 22 0).toNat < 2 ^ 23 := (b.extractLsb 22 0).isLt
  unfold f32Mag
  simp only
  split
  · exact hfrac.le.trans (by norm_num)
  · calc (2 ^ 23 + (b.extractLsb 22 0).toNat) * 2 ^ ((b.extractLsb 30 23).toNat - 1)
        ≤ 2 ^ 24 * 2 ^ ((b.extractLsb 30 23).toNat - 1) := Nat.mul_le_mul_right _ (by omega)
      _ ≤ 2 ^ 24 * 2 ^ 253 := Nat.mul_le_mul_left _ (Nat.pow_le_pow_right two_pos (by omega))

theorem fwiden_of_finite {b : F32} (h : f32IsFinite b = true) :
    fwiden b = fpack (b.getLsbD 31) (roundMag (f32Mag b * 2 ^ 925) 1) := by
  have hexp : (b.extractLsb 30 23 == 255) = false := by simpa [f32IsFinite] using h
  rw [fwiden, f32IsNaN, hexp, h]
  rfl

theorem magLe_fwiden {b : F32} (h : f32IsFinite b = true) : MagLe 128 (fwiden b) := by
  refine magLe_of_fmag_le (by norm_num) ?_
  rw [fwiden_of_finite h, fmag_fpack _ (roundMag_lt _ _), ← unitsOf_two_pow]
  refine unitsOf_le_iff.2 (roundMag_le one_pos ?_)
  rw [unitsOf_two_pow, Nat.mul_one]
  calc f32Mag b * 2 ^ 925 ≤ 2 ^ 24 * 2 ^ 253 * 2 ^ 925 := Nat.mul_le_mul_right _ (f32Mag_le h)
    _ = 2 ^ (128 + 1074) := by rw [← pow_add, ← pow_add]

theorem magLe_channelValue (b : F32) : MagLe 128 (channelValue b) := by
  unfold channelValue
  split
  next h => exact magLe_fwiden h
  · exact magLe_fzeroPos.mono (by norm_num)

/-- "`s` is always finite" (41_agc.md R58). -/
theorem magLe_agcInput {bal : F64} (hbal : MagLe 128 bal) (c0 c1 : F32) : MagLe 257 (agcInput bal c0 c1) := by
  have hproduct : MagLe 256 (fmul bal (channelValue c0)) := magLe_fmul hbal (magLe_channelValue c0) (by norm_num)
  rw [agcInput, agcDiff]
  exact magLe_fsub ((magLe_channelValue c1).mono (by norm_num)) hproduct (by norm_num)

/-- EPS is above `2^-14`. -/
theorem two_pow_le_fmag_eps : 2 ^ 1060 ≤ fmag eps := by decide +kernel

theorem fsign_eps : fsign eps = false := fsign_fofRatio 1 10000

/-- The root of a power from EPS to `2^600` is finite and at least `2^-7`. -/
theorem fsqrt_bounds {p : F64} (hlo : fle eps p) (hhi : MagLe 600 p) :
    MagLe 600 (fsqrt p) ∧ 2 ^ (52 + 1015) ≤ fmag (fsqrt p) := by
  have hval : (fmag eps : Int) ≤ fval p := by rw [← fval_of_fsign_false fsign_eps]; exact hlo.2.2
  have heps : 2 ^ 1060 ≤ fmag p := two_pow_le_fmag_eps.trans (Int.ofNat_le.1 (hval.trans (fval_le_fmag p)))
  have hpos : 0 < fval p := by
    have : 0 < fmag eps := lt_of_lt_of_le (by positivity) two_pow_le_fmag_eps
    omega
  have hle : sqrtMag (fmag p) ≤ (600 + 1023) * 2 ^ 52 := by
    refine sqrtMag_le ?_
    rw [unitsOf_two_pow]
    exact Nat.mul_le_mul hhi.fmag_le (unitsPerOne_le_two_pow 600)
  have hge : (1015 + 1) * 2 ^ 52 ≤ sqrtMag (fmag p) := by
    refine le_sqrtMag (by norm_num [infBits64]) ?_
    rw [unitsOf_exponent]
    calc 2 ^ (52 + 1015) * 2 ^ (52 + 1015) = 2 ^ 1060 * unitsPerOne := by rw [unitsPerOne, ← pow_add, ← pow_add]
      _ ≤ fmag p * unitsPerOne := Nat.mul_le_mul_right _ heps
  have hmag : fmag (fsqrt p) = unitsOf (sqrtMag (fmag p)) := by
    rw [fsqrt_pos hhi.finite hpos, sqrtMag, fmag_fpack _ (roundMag_lt _ _)]
  constructor
  · refine magLe_of_fmag_le (by norm_num) ?_
    rw [hmag, ← unitsOf_two_pow]
    exact unitsOf_le_iff.2 hle
  · rw [hmag]
    exact (unitsOf_exponent 1015).ge.trans (unitsOf_le_iff.2 hge)

/-- A power from EPS to `2^600` has a gain of at most 128 (41_agc.md R60 bounds it by 100). -/
theorem magLe_agcGain {p : F64} (hlo : fle eps p) (hhi : MagLe 600 p) : MagLe 7 (agcGain p) := by
  obtain ⟨hroot, hge⟩ := fsqrt_bounds hlo hhi
  have h0 : fmag (fsqrt p) ≠ 0 := (lt_of_lt_of_le (by positivity) hge).ne'
  refine magLe_of_fmag_le (by norm_num) ?_
  rw [agcGain, ← unitsOf_two_pow]
  refine fmag_fdiv_le magLe_fone.finite hroot.finite h0 ?_
  rw [unitsOf_two_pow]
  calc fmag fone * unitsPerOne ≤ 2 ^ (0 + 1074) * unitsPerOne := Nat.mul_le_mul_right _ magLe_fone.fmag_le
    _ = 2 ^ (7 + 1074) * 2 ^ (52 + 1015) := by rw [unitsPerOne, ← pow_add, ← pow_add]
    _ ≤ 2 ^ (7 + 1074) * fmag (fsqrt p) := Nat.mul_le_mul_left _ hge

theorem magLe_agcCondition {p x : F64} (hlo : fle eps p) (hhi : MagLe 600 p) (hx : MagLe 257 x) :
    MagLe 264 (agcCondition p x) := magLe_fmul hx (magLe_agcGain hlo hhi) (by norm_num)

/-! ## Exponential smoothing -/

/-- The bounds of `AGC_P` and of `DIST`: from 0 to `2^600`, and no NaN. -/
abbrev InSmoothRange (x : F64) : Prop := fle fzeroPos x ∧ fle x (fpow2 600)

/-- A finite factor in [0, 1]. -/
structure IsFraction (a : F64) : Prop where
  finite : fIsFinite a = true
  sign : fsign a = false
  fmag_le : fmag a ≤ unitsPerOne

theorem isFraction_alpha (v : Variant) {rate : BitVec 24} (hr : 8000 ≤ rate.toNat) :
    IsFraction (derivedConstants v rate).alpha := by
  have hle : fmag (derivedConstants v rate).alpha ≤ fmag fone := by
    have h := (alpha_le_agcBase v hr).2.2
    rw [fval_of_fsign_false (fsign_alpha v hr), fval_of_fsign_false fsign_agcBase] at h
    exact (Int.ofNat_le.1 h).trans fmag_agcBase_le_fone
  exact ⟨finite_of_fmag_le magLe_fone.finite hle, fsign_alpha v hr,
    hle.trans (by rw [fone, fmag_fofRatio_int (by norm_num), Nat.one_mul])⟩

theorem finite_of_fval_between {x a b : F64} (ha : fIsFinite a = true) (hb : fIsFinite b = true)
    (hax : fval a ≤ fval x) (hxb : fval x ≤ fval b) : fIsFinite x = true := by
  rcases le_total (fval x) 0 with h | h
  · exact finite_of_fmag_le ha (by rw [← natAbs_fval, ← natAbs_fval]; omega)
  · exact finite_of_fmag_le hb (by rw [← natAbs_fval, ← natAbs_fval]; omega)

theorem fval_fzeroPos : fval fzeroPos = 0 := fval_fzero false

theorem fval_fpow2_600 : fval (fpow2 600) = ((2 ^ (600 + 1074) : Nat) : Int) := fval_fpow2 (n := 600) (by norm_num)

theorem finite_fpow2_600 : fIsFinite (fpow2 600) = true := finite_fpow2 (n := 600) (by norm_num)

theorem magLe_of_inSmoothRange {x : F64} (h : InSmoothRange x) : MagLe 600 x := by
  obtain ⟨⟨-, -, hlo⟩, ⟨-, -, hhi⟩⟩ := h
  rw [fval_fzeroPos] at hlo
  rw [fval_fpow2_600] at hhi
  exact magLe_of_fmag_le (by norm_num) (fmag_le_of_fval_bounds (by omega) hhi)

/-- Multiplying by a fraction moves a value toward zero, and not beyond it. -/
theorem fmul_fraction_between {x a : F64} (hx : fIsFinite x = true) (ha : IsFraction a) :
    (0 ≤ fval x → 0 ≤ fval (fmul x a) ∧ fval (fmul x a) ≤ fval x) ∧
      (fval x ≤ 0 → fval x ≤ fval (fmul x a) ∧ fval (fmul x a) ≤ 0) := by
  have hsign : fsign (fmul x a) = fsign x := by rw [fsign_fmul hx ha.finite, ha.sign, Bool.bne_false]
  have hmag : fmag (fmul x a) ≤ fmag x := by
    rw [fmag_eq_unitsOf x]
    refine fmag_fmul_le hx ha.finite ?_
    rw [← fmag_eq_unitsOf]
    exact Nat.mul_le_mul_left _ ha.fmag_le
  rw [fval_eq_sign_mul x, fval_eq_sign_mul (fmul x a), hsign]
  cases fsign x <;> simp <;> omega

/-- One step of smoothing `p` toward `y`: below `y` it goes up by at most the difference, above `y` down by at most the
difference, so it stays between 0 and `p + y`. -/
theorem smooth_bounds {p y a z : F64} (hp : fIsFinite p = true) (hp0 : 0 ≤ fval p) (hy : fIsFinite y = true)
    (hy0 : 0 ≤ fval y) (ha : IsFraction a) (hz : fIsFinite z = true) (hpz : fval p ≤ fval z)
    (hyz : 2 * fval y ≤ fval z) :
    fle fzeroPos (fadd p (fmul (fsub y p) a)) ∧ fle (fadd p (fmul (fsub y p) a)) z := by
  have hzero : fIsNaN fzeroPos = false := not_nan_fzero false
  have hnz := not_nan_of_finite hz
  have hnegp : fIsFinite (fneg p) = true := by rw [fIsFinite_fneg, hp]
  have hdlo : -fval p ≤ fval (fsub y p) := by
    rw [← fval_fneg]
    exact le_fsub hy hp (not_nan_of_finite hnegp) (by rw [fval_fneg]; omega)
  have hdhi : fval (fsub y p) ≤ fval y := fsub_le hy hp (not_nan_of_finite hy) (by omega)
  have hd : fIsFinite (fsub y p) = true := finite_of_fval_between hnegp hy (by rw [fval_fneg]; exact hdlo) hdhi
  obtain ⟨hup, hdown⟩ := fmul_fraction_between hd ha
  have hm : fIsFinite (fmul (fsub y p) a) = true := by
    rcases le_total (fval (fsub y p)) 0 with h | h
    · exact finite_of_fval_between hd magLe_fzeroPos.finite (hdown h).1 (by rw [fval_fzeroPos]; exact (hdown h).2)
    · exact finite_of_fval_between magLe_fzeroPos.finite hd (by rw [fval_fzeroPos]; exact (hup h).1) (hup h).2
  have hnan := fadd_not_nan hp hm
  suffices hsum : 0 ≤ fval p + fval (fmul (fsub y p) a) ∧ fval p + fval (fmul (fsub y p) a) ≤ fval z from
    ⟨⟨hzero, hnan, le_fadd hp hm hzero (by rw [fval_fzeroPos]; exact hsum.1)⟩, ⟨hnan, hnz, fadd_le hp hm hnz hsum.2⟩⟩
  rcases le_total (fval y) (fval p) with h | h
  · have hd0 : fval (fsub y p) ≤ 0 := by
      rw [← fval_fzeroPos]
      exact fsub_le hy hp hzero (by rw [fval_fzeroPos]; omega)
    have := hdown hd0
    omega
  · have hd0 : 0 ≤ fval (fsub y p) := by
      rw [← fval_fzeroPos]
      exact le_fsub hy hp hzero (by rw [fval_fzeroPos]; omega)
    have := hup hd0
    omega

theorem fval_square_nonneg {x : F64} (hx : fIsFinite x = true) : 0 ≤ fval (fmul x x) := by
  rw [fval_of_fsign_false (by rw [fsign_fmul hx hx, bne_self_eq_false])]
  exact Int.natCast_nonneg _

/-- Smoothing toward the square of a value below `2^265` keeps to [0, 2^600]. -/
theorem smooth_square_inRange {p e a : F64} (hp : InSmoothRange p) (he : MagLe 265 e) (ha : IsFraction a) :
    InSmoothRange (fadd p (fmul (fsub (fmul e e) p) a)) := by
  have hsq : MagLe 530 (fmul e e) := magLe_fmul he he (by norm_num)
  have hdouble : 2 * fval (fmul e e) ≤ fval (fpow2 600) := by
    have hpow := two_mul_two_pow_le (m := 530) (n := 600) (by norm_num)
    have hle := (fval_bounds_of_fmag_le hsq.fmag_le).2
    rw [fval_fpow2_600]
    omega
  have hp0 : 0 ≤ fval p := by rw [← fval_fzeroPos]; exact hp.1.2.2
  exact smooth_bounds (magLe_of_inSmoothRange hp).finite hp0 hsq.finite (fval_square_nonneg he.finite) ha
    finite_fpow2_600 hp.2.2.2 hdouble

/-! ## `AGC_P`, `DIST` and the noise -/

theorem inSmoothRange_of_power {p : F64} (hlo : fle eps p) (hhi : fle p (fpow2 600)) : InSmoothRange p := by
  refine ⟨⟨not_nan_fzero false, hlo.2.1, ?_⟩, hhi⟩
  rw [fval_fzeroPos]
  refine le_trans ?_ hlo.2.2
  rw [fval_of_fsign_false fsign_eps]
  exact Int.natCast_nonneg _

theorem agcPower_le {alpha p x : F64} (ha : IsFraction alpha) (hlo : fle eps p) (hhi : fle p (fpow2 600))
    (hx : MagLe 257 x) : fle (agcPower alpha p x) (fpow2 600) := by
  have hsmooth := smooth_square_inRange (inSmoothRange_of_power hlo hhi) (hx.mono (by norm_num)) ha
  obtain ⟨-, -, h | h⟩ := fmaxNum_spec (b := fadd p (fmul (fsub (fmul x x) p) alpha)) hlo.1 <;> rw [agcPower, h]
  · exact ⟨hlo.1, hhi.2.1, hlo.2.2.trans hhi.2.2⟩
  · exact hsmooth.2

theorem magLe_idealLevel (sgn : Bool) : MagLe 0 (idealLevel sgn) := by
  cases sgn
  · exact magLe_fneg magLe_fone
  · exact magLe_fone

theorem fone_inSmoothRange : InSmoothRange fone := by decide +kernel

theorem distAfter_inRange {alpha dist c : F64} (sgn : Bool) (run : Nat) (ha : IsFraction alpha)
    (hd : InSmoothRange dist) (hc : MagLe 264 c) : InSmoothRange (distAfter alpha dist c sgn run) := by
  unfold distAfter
  split
  · exact smooth_square_inRange hd (magLe_fsub hc ((magLe_idealLevel sgn).mono (by norm_num)) (by norm_num)) ha
  · split
    · exact fone_inSmoothRange
    · exact hd

theorem sdNoise_bounds {dist : F64} (h : fle fzeroPos dist) : fle fzeroPos (sdNoise dist) ∧ fle (sdNoise dist) fone := by
  obtain ⟨hzero, hnan, hle⟩ := h
  obtain ⟨⟨-, hone, hone0⟩, -⟩ := fone_inSmoothRange
  obtain ⟨hmin, hval⟩ := fmin_spec hone hnan
  rw [sdNoise, if_neg (by simp [hnan])]
  exact ⟨⟨hzero, hmin, by rw [hval]; exact le_min hone0 hle⟩, ⟨hmin, hone, by rw [hval]; exact min_le_left _ _⟩⟩

/-! ## The invariant -/

theorem isFraction_of_configOk {s : State} (hc : s.cfg.configured = true) (h : ConfigOk s) : IsFraction s.k.alpha := by
  obtain ⟨bal, hlegal, -, hk⟩ := h hc
  rw [hk]
  exact isFraction_alpha _ (rate_ge_of_legalConfig hlegal)

theorem magLe_bal_of_configOk {s : State} (hc : s.cfg.configured = true) (h : ConfigOk s) : MagLe 128 s.cfg.bal := by
  obtain ⟨bal, hlegal, hbal, -⟩ := h hc
  rw [hbal]
  exact magLe_fwiden (f32IsFinite_of_legalConfig hlegal)

/-- A property of the power and the noise that the present ones have is kept in every snapshot. -/
theorem ChipEffect.everySnapshot {q : Snapshot → Prop} {s t : State} (h : ChipEffect s t)
    (hq : ∀ x : Snapshot, x.power = s.agcP → x.noise = sdNoise s.edge.dist → q x) (hs : EverySnapshot q s) :
    EverySnapshot q t := by
  rcases h.2 with ⟨hevq, hst⟩ | ⟨x, hevq, hst, hpower, hnoise⟩
  · rw [EverySnapshot, hevq, hst]
    exact hs
  · have hx := hq x hpower hnoise
    rw [EverySnapshot, hevq, hst]
    exact ⟨hx, fun y hy => (List.mem_append.1 hy).elim (hs.2 y) fun h => List.mem_singleton.1 h ▸ hx⟩

theorem ChipEffect.signalInv {s t : State} (h : ChipEffect s t) (hs : SignalInv s) : SignalInv t := by
  obtain ⟨hconfig, hpower, hdist, hpowers, hnoises⟩ := hs
  have f := h.1
  refine ⟨f.configOk hconfig, by rw [PowerOk, f.agcP]; exact hpower, by rw [DistOk, f.edge]; exact hdist,
    h.everySnapshot (fun x hx _ => ?_) hpowers, h.everySnapshot (fun x _ hx => ?_) hnoises⟩
  · rw [SnapshotPowerOk, hx]
    exact hpower.1
  · rw [SnapshotNoiseOk, hx]
    exact sdNoise_bounds hdist.1

/-- The distortion is the only stage that reads the conditioned sample into a register the invariant bounds. -/
theorem signalInv_stagesKeep {c : F64} (hcond : MagLe 264 c) :
    StagesKeep c (fun s => s.cfg.configured = true ∧ SignalInv s) where
  delay _ h := h
  chip b s h := by
    obtain ⟨hc, hs⟩ := h
    have heffect := chip_effect b s
    exact ⟨by rw [heffect.1.cfg, hc], heffect.signalInv hs⟩
  flip _ h := h
  takeChip _ h := h
  tick _ h := h
  distortion s h := by
    obtain ⟨hc, hconfig, hpower, hdist, hsnapshots⟩ := h
    exact ⟨hc, hconfig, hpower, distAfter_inRange _ _ (isFraction_of_configOk hc hconfig) hdist hcond, hsnapshots⟩

theorem agcUpdate_signalInv {x : F64} {s : State} (hc : s.cfg.configured = true) (hs : SignalInv s)
    (hx : MagLe 257 x) : SignalInv (agcUpdate x s) := by
  obtain ⟨hconfig, ⟨hlo, hhi⟩, hrest⟩ := hs
  exact ⟨hconfig, ⟨eps_le_agcPower _ _ _, agcPower_le (isFraction_of_configOk hc hconfig) hlo hhi hx⟩, hrest⟩

/-- The AGC bounds the power, the power bounds the gain, and the gain bounds the conditioned sample. -/
theorem samplePipeline_signalInv (c0 c1 : F32) {s : State} (hc : s.cfg.configured = true) (hs : SignalInv s) :
    SignalInv (samplePipeline c0 c1 s) := by
  have hx := magLe_agcInput (magLe_bal_of_configOk hc hs.1) c0 c1
  have hagc := agcUpdate_signalInv hc hs hx
  obtain ⟨hlo, hhi⟩ : PowerOk (agcUpdate _ s) := hagc.2.1
  have hcond := magLe_agcCondition hlo (magLe_of_inSmoothRange (inSmoothRange_of_power hlo hhi)) hx
  rw [samplePipeline_eq]
  exact (edgeStep_keeps (signalInv_stagesKeep hcond) (agcUpdate _ s) ⟨hc, hagc⟩).2

theorem resetSnapshot_signalOk (v : Variant) :
    SnapshotPowerOk (resetSnapshot v) ∧ SnapshotNoiseOk (resetSnapshot v) := by
  cases v <;> decide +kernel

theorem reset_signalInv (v : Variant) (rate : BitVec 24) (bal : F32) {s : State} (hs : SignalInv s) :
    SignalInv (clearDecoder v (latchConfig v rate bal s)) := by
  obtain ⟨-, -, -, ⟨-, hpowers⟩, ⟨-, hnoises⟩⟩ := hs
  obtain ⟨hpower, hnoise⟩ := resetSnapshot_signalOk v
  have hagc : fle eps oneBits ∧ fle oneBits (fpow2 600) := by decide +kernel
  have hdist : InSmoothRange resetEdge.dist := by decide +kernel
  refine ⟨reset_configOk v rate bal s, hagc, hdist, ⟨hpower, ?_⟩, ⟨hnoise, ?_⟩⟩
  · rw [clearDecoder_evq, latchConfig_evq]
    exact hpowers
  · rw [clearDecoder_evq, latchConfig_evq]
    exact hnoises

/-- Settles O55: the smoothing keeps `AGC_P` and `DIST` in range, and every snapshot takes its power and its noise from
them. -/
theorem everyStepKeepsSignalInv : Obligations.EveryStepKeepsSignalInv := by
  intro s t hs hstep
  exact step_keeps (p := SignalInv) (fun _ _ h => h) (fun c0 c1 _ hc h => samplePipeline_signalInv c0 c1 hc h)
    (fun v rate bal _ h => reset_signalInv v rate bal h) hs hstep

end Sys2Proof.Machine
end

section
/-! PROOFS. Repeating a RESET (20_memory.md R33): every register it writes is a function of its operand, but for the
unspecified `K_*` of an illegal configuration. -/

namespace Sys2Proof.Machine

section
variable {v : Variant} {rate : BitVec 24} {bal : F32} {s t : State}

/-- Outside the derived constants and the draw counter a RESET writes values of its operand only. -/
theorem reset_again_except_constants (ht : clearDecoder v (latchConfig v rate bal s) = t) :
    { clearDecoder v (latchConfig v rate bal t) with k := t.k, freeCtr := t.freeCtr } = t := by
  subst ht
  simp [clearDecoder]

/-- A legal configuration determines the derived constants and draws no free value. -/
theorem legal_reset_again_constants (hlegal : legalConfig rate bal = true)
    (ht : clearDecoder v (latchConfig v rate bal s) = t) :
    (clearDecoder v (latchConfig v rate bal t)).k = t.k ∧
      (clearDecoder v (latchConfig v rate bal t)).freeCtr = t.freeCtr := by
  obtain ⟨hk, -⟩ := latchConfig_legal (v := v) hlegal s
  obtain ⟨hk', hctr'⟩ := latchConfig_legal (v := v) hlegal t
  have htk : t.k = derivedConstants v rate := by rw [← ht, clearDecoder_k, hk]
  exact ⟨by rw [clearDecoder_k, hk', htk], by rw [clearDecoder_freeCtr, hctr']⟩

end

/-- Settles O15: the second RESET restores every register but the derived constants and the draw counter, and a legal
configuration makes these agree as well. -/
theorem twoEqualResetsAreOne : Obligations.TwoEqualResetsAreOne := by
  intro v ig rate bal s t h
  have ht : clearDecoder v (latchConfig v rate bal s) = t := Host.Outcome.next.inj h
  have hrest := reset_again_except_constants ht
  refine ⟨clearDecoder v (latchConfig v rate bal t), rfl, hrest, fun hlegal => ?_⟩
  obtain ⟨hk, hctr⟩ := legal_reset_again_constants hlegal ht
  rwa [← hk, ← hctr] at hrest

end Sys2Proof.Machine
end

section
/-! PROOFS. The command word and the event record (30_encoding.md R39 to R44): `decode` and `encode` are inverse to each
other because `OP` and `OPERAND` are the two halves of a word, and the fields of an operand its parts. -/

namespace Sys2Proof.Machine

/-! ## A word is its selector above its operand -/

theorem opField_encode (i : Instr) : opField (encode i) = opOf i := Laws.extractLsb_selector (opOf i) (operandOf i)

theorem operandField_encode (i : Instr) : operandField (encode i) = operandOf i := BitVec.extractLsb'_append_eq_right

theorem opField_append_operandField (w : Command) : opField w ++ operandField w = w :=
  (BitVec.extractLsb'_append_extractLsb'_eq_extractLsb' rfl).trans BitVec.extractLsb'_eq_self

/-- A field within the operand stands at the same bits of the whole word. -/
theorem extractLsb'_operandField (w : Command) {start len : Nat} (h : start + len ≤ 64) :
    (operandField w).extractLsb' start len = w.extractLsb' start len := by
  conv_rhs => rw [← opField_append_operandField w]
  exact (BitVec.extractLsb'_append_eq_of_add_le h).symm

theorem getLsbD_operandField (w : Command) {i : Nat} (h : i < 64) : (operandField w).getLsbD i = w.getLsbD i := by
  simp [operandField, Nat.lt_succ_iff.1 h]

/-- A field of one bit. -/
theorem extractLsb'_one {n : Nat} (w : BitVec n) (i : Nat) : w.extractLsb' i 1 = BitVec.ofBool (w.getLsbD i) := by
  apply BitVec.eq_of_getLsbD_eq
  intro j hj
  obtain rfl : j = 0 := by omega
  simp

theorem getLsbD_of_extractLsb'_one {n i : Nat} {w : BitVec n} {b : Bool} (h : w.extractLsb' i 1 = BitVec.ofBool b) :
    w.getLsbD i = b :=
  BitVec.ofBool_eq_iff_eq.1 ((extractLsb'_one w i).symm.trans h)

/-! ## The decoder, one equation per selector (30_encoding.md R40) -/

theorem decode_of_selector_nop {w : Command} (h : opField w = 0) : decode w = .nop (operandField w) := by
  simp [decode, h]

theorem decode_of_selector_sample {w : Command} (h : opField w = 1) : decode w = decodeSample (operandField w) := by
  simp [decode, h]

theorem decode_of_selector_reset {w : Command} (h : opField w = 2) : decode w = decodeReset (operandField w) := by
  simp [decode, h]

theorem decode_of_selector_reserved {w : Command} (h : opField w = 3) : decode w = .reserved (operandField w) := by
  simp [decode, h]

theorem opField_cases (w : Command) : opField w = 0 ∨ opField w = 1 ∨ opField w = 2 ∨ opField w = 3 := by
  generalize opField w = op
  revert op
  decide

/-! ## The operands (30_encoding.md R41, R42) -/

theorem variantOfBit_bitOfVariant (v : Variant) : variantOfBit (bitOfVariant v) = v := by cases v <;> rfl

theorem bitOfVariant_variantOfBit (b : Bool) : bitOfVariant (variantOfBit b) = b := by cases b <;> rfl

theorem decodeSample_operand (ch0 ch1 : F32) : decodeSample (ch1 ++ ch0) = .sample ch0 ch1 :=
  congrArg₂ Instr.sample BitVec.extractLsb'_append_eq_right BitVec.extractLsb'_append_eq_left

theorem operandOf_decodeSample (o : BitVec 64) : operandOf (decodeSample o) = o :=
  (BitVec.extractLsb'_append_extractLsb'_eq_extractLsb' rfl).trans BitVec.extractLsb'_eq_self

theorem decodeReset_operand (v : Variant) (ignored : BitVec 7) (rate : BitVec 24) (bal : F32) :
    decodeReset (bal ++ rate ++ ignored ++ BitVec.ofBool (bitOfVariant v)) = .reset v ignored rate bal := by
  unfold decodeReset BitVec.extractLsb
  congr 1
  · rw [BitVec.getLsbD_append, if_pos (by decide), BitVec.getLsbD_ofBool]
    exact variantOfBit_bitOfVariant v
  · rw [BitVec.extractLsb'_append_eq_of_le (by decide)]
    exact BitVec.extractLsb'_append_eq_right
  · rw [BitVec.extractLsb'_append_eq_of_le (by decide), BitVec.extractLsb'_append_eq_of_le (by decide)]
    exact BitVec.extractLsb'_append_eq_right
  · rw [BitVec.extractLsb'_append_eq_of_le (by decide), BitVec.extractLsb'_append_eq_of_le (by decide)]
    exact BitVec.extractLsb'_append_eq_left

theorem operandOf_decodeReset (o : BitVec 64) : operandOf (decodeReset o) = o := by
  rw [decodeReset, operandOf, bitOfVariant_variantOfBit, ← extractLsb'_one]
  unfold BitVec.extractLsb
  calc o.extractLsb' 32 32 ++ o.extractLsb' 8 24 ++ o.extractLsb' 1 7 ++ o.extractLsb' 0 1
    _ = o.extractLsb' 8 56 ++ o.extractLsb' 1 7 ++ o.extractLsb' 0 1 := by
      rw [BitVec.extractLsb'_append_extractLsb'_eq_extractLsb' (by rfl)]
    _ = o.extractLsb' 1 63 ++ o.extractLsb' 0 1 := by
      rw [BitVec.extractLsb'_append_extractLsb'_eq_extractLsb' (by rfl)]
    _ = o := (BitVec.extractLsb'_append_extractLsb'_eq_extractLsb' rfl).trans BitVec.extractLsb'_eq_self

/-! ## The obligations -/

/-- Settles O1: `opField` and `operandField` take the word apart, and each operand is put together from its fields. -/
theorem decodeEncodeRoundTrip : Obligations.DecodeEncodeRoundTrip := by
  intro i
  have hop := opField_encode i
  have hoperand := operandField_encode i
  cases i with
  | nop o => rw [decode_of_selector_nop hop, hoperand, operandOf]
  | sample ch0 ch1 => rw [decode_of_selector_sample hop, hoperand, operandOf, decodeSample_operand]
  | reset v ignored rate bal => rw [decode_of_selector_reset hop, hoperand, operandOf, decodeReset_operand]
  | reserved o => rw [decode_of_selector_reserved hop, hoperand, operandOf]

/-- Settles O2: the decoded command has the word's selector and the word's operand. -/
theorem everyWordIsItsCommandsEncoding : Obligations.EveryWordIsItsCommandsEncoding := by
  intro w
  have hfields : opOf (decode w) = opField w ∧ operandOf (decode w) = operandField w := by
    rcases opField_cases w with h | h | h | h
    · rw [decode_of_selector_nop h, h]
      exact ⟨rfl, rfl⟩
    · rw [decode_of_selector_sample h, h]
      exact ⟨rfl, operandOf_decodeSample _⟩
    · rw [decode_of_selector_reset h, h]
      exact ⟨rfl, operandOf_decodeReset _⟩
    · rw [decode_of_selector_reserved h, h]
      exact ⟨rfl, rfl⟩
  obtain ⟨hop, hoperand⟩ := hfields
  rw [encode, hop, hoperand, opField_append_operandField]

/-- Settles O3: the decoder's equation for each selector, its operand's fields read in the whole word. -/
theorem selectorAndFieldsDecode : Obligations.SelectorAndFieldsDecode := by
  intro w
  refine ⟨decode_of_selector_nop, fun h => ?_, fun h => ?_, decode_of_selector_reserved⟩
  · rw [decode_of_selector_sample h]
    exact congrArg₂ Instr.sample (extractLsb'_operandField w (by decide)) (extractLsb'_operandField w (by decide))
  · rw [decode_of_selector_reset h, decodeReset, getLsbD_operandField w (by decide)]
    unfold BitVec.extractLsb
    rw [extractLsb'_operandField w (by decide), extractLsb'_operandField w (by decide),
      extractLsb'_operandField w (by decide), variantOfBit]

/-- Settles O4: six fixed words. -/
theorem workedEncodingsDecode : Obligations.WorkedEncodingsDecode := by
  unfold Obligations.WorkedEncodingsDecode
  decide

/-- Settles O5: the fields below a field are dropped one by one until it stands at bit 0. -/
theorem eventRecordLayout : Obligations.EventRecordLayout := by
  intro x
  unfold eventRecord BitVec.extractLsb
  refine ⟨?_, ?_, getLsbD_of_extractLsb'_one ?_, getLsbD_of_extractLsb'_one ?_, getLsbD_of_extractLsb'_one ?_,
    getLsbD_of_extractLsb'_one ?_, getLsbD_of_extractLsb'_one ?_, getLsbD_of_extractLsb'_one ?_, ?_, ?_, ?_, ?_, ?power⟩
  case power =>
    repeat rw [BitVec.extractLsb'_append_eq_of_le (by decide)]
    exact BitVec.extractLsb'_eq_self
  all_goals
    repeat rw [BitVec.extractLsb'_append_eq_of_le (by decide)]
    exact BitVec.extractLsb'_append_eq_right

/-- Settles O11: NOP and the reserved selector leave the state, and RESET's meaning does not read its ignored bits. -/
theorem reservedEncodingsAreHarmless : Obligations.ReservedEncodingsAreHarmless := by
  refine ⟨fun o s => ⟨rfl, rfl⟩, fun a b s => rfl, fun w s h => ?_, fun v a b rate bal s => rfl⟩
  rw [decode_of_selector_reserved h]
  rfl

end Sys2Proof.Machine
end

section
/-! PROOFS. The sample count of a `CHIPS` expansion (30_encoding.md R52): the counts of its chips telescope. -/

namespace Sys2Proof.Machine

@[simp] theorem length_levelCmds (v : F32) (n : Nat) : (levelCmds v n).length = n := List.length_replicate

@[simp] theorem chipEnd_zero (w : Rat) : chipEnd w 0 = 0 := by
  rw [chipEnd, Nat.cast_zero, zero_mul, zero_add]
  decide +kernel

/-- A chip never ends before the chip it follows. -/
theorem chipEnd_mono {w : Rat} (hw : 0 < w) {j k : Nat} (h : j ≤ k) : chipEnd w j ≤ chipEnd w k := by
  have hjk : (j : Rat) ≤ k := by exact_mod_cast h
  have hend : j * w + 1 / 2 ≤ k * w + 1 / 2 := by gcongr
  exact Int.toNat_le_toNat (Rat.floor_monotone hend)

theorem length_chipsFrom {w : Rat} (hw : 0 < w) (lo hi : F32) (k : Nat) (bs : List Chip) :
    (chipsFrom w lo hi k bs).length = chipEnd w (k + bs.length) - chipEnd w k := by
  induction bs generalizing k with
  | nil => simp [chipsFrom]
  | cons b bs ih =>
    have hfirst : chipEnd w k ≤ chipEnd w (k + 1) := chipEnd_mono hw (by omega)
    have hrest : chipEnd w (k + 1) ≤ chipEnd w (k + 1 + bs.length) := chipEnd_mono hw (by omega)
    have hend : k + (bs.length + 1) = k + 1 + bs.length := by omega
    rw [chipsFrom, List.length_append, length_levelCmds, ih, List.length_cons, hend]
    omega

/-- Settles O6: the expansion starts at sample 0 and ends where its last chip ends. -/
theorem chipsExpansionSampleCount : Obligations.ChipsExpansionSampleCount := by
  intro w lo hi bs hw
  rw [chipsCmds, length_chipsFrom hw, chipEnd_zero, Nat.sub_zero, Nat.zero_add, chipEnd]

end Sys2Proof.Machine
end

section
/-! PROOFS. Chips fed one after the other: what the run bookkeeping and the two framers' storage hold after a list of
chips, and the number that a little-endian list of bits spells. -/

namespace Sys2Proof.Machine

/-! ## Storing a list at a cursor -/

/-- `acc` after the values of a list are stored one after the other from position `c` on. -/
def storeFrom {α : Type} {n : Nat} : Vector α n → Nat → List α → Vector α n
  | acc, _, [] => acc
  | acc, c, x :: xs => storeFrom (acc.setIfInBounds c x) (c + 1) xs

section
variable {α : Type} {n : Nat}

theorem getElem?_storeFrom_before (acc : Vector α n) {c i : Nat} (h : i < c) (xs : List α) :
    (storeFrom acc c xs)[i]? = acc[i]? := by
  induction xs generalizing acc c with
  | nil => rfl
  | cons x xs ih => rw [storeFrom, ih _ (by omega), Vector.getElem?_setIfInBounds, if_neg (by omega)]

theorem getElem?_storeFrom (acc : Vector α n) {c j : Nat} {xs : List α} (hn : c + xs.length ≤ n) (hj : j < xs.length) :
    (storeFrom acc c xs)[c + j]? = xs[j]? := by
  induction xs generalizing acc c j with
  | nil => simp at hj
  | cons x xs ih =>
    rw [List.length_cons] at hn hj
    cases j with
    | zero =>
      change (storeFrom (acc.setIfInBounds c x) (c + 1) xs)[c]? = some x
      rw [getElem?_storeFrom_before _ (Nat.lt_add_one c), Vector.getElem?_setIfInBounds, if_pos rfl, if_pos (by omega)]
    | succ j =>
      rw [storeFrom, List.getElem?_cons_succ, ← Nat.add_assoc, Nat.add_right_comm]
      exact ih _ (by omega) (by omega)

theorem getD_eq_getElem (acc : Vector α n) {i : Nat} (h : i < n) (d : α) : acc.getD i d = acc[i] := by
  simp [Vector.getD, h]

/-- A list stored from position 0 on is read back position by position. -/
theorem getD_storeFrom_zero (acc : Vector α n) {i : Nat} {xs : List α} (hn : xs.length ≤ n) (hi : i < xs.length)
    (d : α) : (storeFrom acc 0 xs).getD i d = xs.getD i d := by
  have hread := getElem?_storeFrom acc (c := 0) (by omega) hi
  rw [Nat.zero_add] at hread
  rw [List.getD_eq_getElem?_getD, ← hread, Vector.getD, Array.getD_eq_getD_getElem?, Vector.getElem?_toArray]

end

/-- A counter below its last value counts on. -/
theorem toNat_add_one_of_lt {w : Nat} {c : BitVec w} (h : c.toNat + 1 < 2 ^ w) : (c + 1).toNat = c.toNat + 1 := by
  rw [BitVec.toNat_add, BitVec.ofNat_eq_ofNat, BitVec.toNat_ofNat, Nat.add_mod_mod, Nat.mod_eq_of_lt h]

/-! ## Bits, least significant first -/

/-- The low `n` bits of `x`, weighted by their place, add up to `x` modulo `2^n`. -/
theorem sum_testBit_shiftLeft (x n : Nat) :
    ((List.range n).map fun i => (x.testBit i).toNat <<< i).sum = x % 2 ^ n := by
  induction n with
  | zero => simp [Nat.mod_one]
  | succ n ih =>
    rw [List.range_succ, List.map_append, List.sum_append, ih, Nat.mod_pow_succ, List.map_singleton, List.sum_singleton,
      Nat.toNat_testBit, Nat.shiftLeft_eq, Nat.mul_comm]

theorem sum_getLsbD_shiftLeft {w : Nat} (x : BitVec w) :
    ((List.range w).map fun i => (x.getLsbD i).toNat <<< i).sum = x.toNat :=
  (sum_testBit_shiftLeft x.toNat w).trans (Nat.mod_eq_of_lt x.isLt)

/-! ## The run bookkeeping of a list of chips (43_framer_standard.md R75) -/

/-- The common framer registers after the run bookkeeping of a list of chips. -/
def runChips (bs : List Chip) (f : FramerRegs) : FramerRegs := bs.foldl (fun f b => frRun b f) f

@[simp] theorem runChips_nil (f : FramerRegs) : runChips [] f = f := rfl
@[simp] theorem runChips_cons (b : Chip) (bs : List Chip) (f : FramerRegs) :
    runChips (b :: bs) f = runChips bs (frRun b f) := rfl

theorem runChips_idleVal (bs : List Chip) (f : FramerRegs) : (runChips bs f).idleVal = f.idleVal := by
  induction bs generalizing f with
  | nil => rfl
  | cons b bs ih => exact ih (frRun b f)

theorem runChips_concat_lastBit (bs : List Chip) (b : Chip) (f : FramerRegs) :
    (runChips (bs ++ [b]) f).lastBit = b := by
  rw [runChips, List.foldl_append]
  rfl

theorem runChips_nsl (bs : List Chip) (f : FramerRegs) :
    (runChips bs f).nsl.toNat = min (f.nsl.toNat + bs.length) (2 ^ 32 - 1) := by
  induction bs generalizing f with
  | nil =>
    have := f.nsl.isLt
    simp only [runChips_nil, List.length_nil]
    omega
  | cons b bs ih =>
    rw [runChips_cons, ih, frRun_nsl, satInc_toNat, List.length_cons]
    omega

/-- A chip other than the last one starts a run of 1. -/
theorem frRun_run_of_ne {b : Chip} {f : FramerRegs} (h : b ≠ f.lastBit) : (frRun b f).run.toNat = 1 := by
  rw [frRun_run, if_neg h]
  rfl

theorem frRun_run_le (b : Chip) (f : FramerRegs) : (frRun b f).run.toNat ≤ f.run.toNat + 1 := by
  rw [frRun_run]
  split
  · rw [satInc_toNat]
    omega
  · exact Nat.le_add_left 1 _

/-! ## Chips one after the other -/

/-- Nothing but the framers changes while chips are handed over, however many. -/
theorem foldl_chip_frame (bs : List Chip) (s : State) : ChipFrame s (bs.foldl (fun s b => chip b s) s) := by
  induction bs generalizing s with
  | nil => exact ChipFrame.rfl' s
  | cons b bs ih => exact (chip_effect b s).1.trans (ih (chip b s))

theorem NoEvent.trans {s t u : State} (h : NoEvent s t) (g : NoEvent t u) : NoEvent s u := by
  obtain ⟨hevq, hst⟩ := h
  obtain ⟨gevq, gst⟩ := g
  exact ⟨gevq.trans hevq, gst.trans hst⟩

/-- A frame's snapshot reads the held state, the distortion and the power only. -/
theorem frameSnapshot_congr {s t : State} (h : Byte) (time : Nat) (u : BitVec 4) (hf : ChipFrame s t)
    (hst : t.st = s.st) : frameSnapshot h time u t = frameSnapshot h time u s := by
  rw [frameSnapshot, frameSnapshot, hst, hf.edge, hf.agcP]

end Sys2Proof.Machine
end

section
/-! PROOFS. The three checks of a message (45_frame_decoder.md R93 to R95), spelt out for both lengths, and what follows
for accepted messages: no content passes at both lengths, and the checksum byte and the time are bounded. -/

namespace Sys2Proof.Machine

/-! ## The checks, byte by byte -/

theorem bufByte_of_lt (buf : Vector Byte 10) {i : Nat} (h : i < 10) : bufByte buf i = buf[i] :=
  getD_eq_getElem buf h 0

theorem isDigit_iff {b : Byte} : isDigit b = true ↔ 0x30 ≤ b.toNat ∧ b.toNat ≤ 0x39 := by
  simp [isDigit, show ch0.toNat = 48 from rfl, show ch9.toNat = 57 from rfl]

theorem fdHeader_iff {buf : Vector Byte 10} :
    fdHeader buf = true ↔ bufByte buf 0 ∈ [0x20#8, 0x53#8, 0x49#8, 0x4C#8, 0x52#8, 0x43#8, 0x41#8] := by
  rw [fdHeader, List.contains_iff_mem]
  rfl

theorem fdAccepts_iff {n : Nat} {buf : Vector Byte 10} :
    fdAccepts n buf = true ↔
      bufByte buf 0 ∈ [0x20#8, 0x53#8, 0x49#8, 0x4C#8, 0x52#8, 0x43#8, 0x41#8] ∧
        (∀ d ∈ payload n buf, 0x30 ≤ d.toNat ∧ d.toNat ≤ 0x39) ∧ fdSum n buf = (bufByte buf (n - 3)).toNat := by
  simp only [fdAccepts, fdDigits, fdChecksum, Bool.and_eq_true, fdHeader_iff, List.all_eq_true, isDigit_iff, beq_iff_eq,
    and_assoc]

theorem payload_nine (buf : Vector Byte 10) :
    payload 9 buf = [bufByte buf 1, bufByte buf 2, bufByte buf 3, bufByte buf 4, bufByte buf 5] := rfl

theorem payload_ten (buf : Vector Byte 10) :
    payload 10 buf = [bufByte buf 1, bufByte buf 2, bufByte buf 3, bufByte buf 4, bufByte buf 5, bufByte buf 6] := rfl

/-- The checksum of five digits (45_frame_decoder.md R95). -/
theorem fdSum_nine (buf : Vector Byte 10) :
    fdSum 9 buf = 64 + digitAt buf 1 + digitAt buf 2 + digitAt buf 3 + digitAt buf 4 + digitAt buf 5 := by
  simp only [fdSum, payload_nine, List.map_cons, List.map_nil, List.sum_cons, List.sum_nil, checksumBase, digitAt]
  omega

/-- The checksum of six digits (45_frame_decoder.md R95). -/
theorem fdSum_ten (buf : Vector Byte 10) :
    fdSum 10 buf =
      64 + digitAt buf 1 + digitAt buf 2 + digitAt buf 3 + digitAt buf 4 + digitAt buf 5 + digitAt buf 6 := by
  simp only [fdSum, payload_ten, List.map_cons, List.map_nil, List.sum_cons, List.sum_nil, checksumBase, digitAt]
  omega

theorem fdSum_of_fdAccepts {n : Nat} {buf : Vector Byte 10} (h : fdAccepts n buf = true) :
    fdSum n buf = (bufByte buf (n - 3)).toNat := by
  obtain ⟨-, -, hsum⟩ := fdAccepts_iff.1 h
  exact hsum

theorem le_fdSum (n : Nat) (buf : Vector Byte 10) : 64 ≤ fdSum n buf := Nat.le_add_right _ _

theorem fdSum_le {n : Nat} {buf : Vector Byte 10} (h : fdAccepts n buf = true) : fdSum n buf ≤ 64 + 9 * (n - 4) := by
  have hdigits : ∀ x ∈ (payload n buf).map digitVal, x ≤ 9 := by
    intro x hx
    obtain ⟨b, hb, rfl⟩ := List.mem_map.1 hx
    obtain ⟨-, hall, -⟩ := fdAccepts_iff.1 h
    exact digitVal_le (isDigit_iff.2 (hall b hb))
  have hsum := List.sum_le_card_nsmul _ 9 hdigits
  rw [List.length_map, payload, List.length_map, List.length_range, smul_eq_mul, Nat.mul_comm] at hsum
  exact Nat.add_le_add_left hsum 64

theorem checksum_byte_bounds {n : Nat} {buf : Vector Byte 10} (h : fdAccepts n buf = true) :
    64 ≤ (bufByte buf (n - 3)).toNat ∧ (bufByte buf (n - 3)).toNat ≤ 64 + 9 * (n - 4) :=
  fdSum_of_fdAccepts h ▸ ⟨le_fdSum n buf, fdSum_le h⟩

/-- Byte 6 is the checksum of nine bytes, at least 64, and a digit of ten, at most 0x39 (30_encoding.md R47). -/
theorem fdAccepts_ten_of_nine {buf : Vector Byte 10} (h : fdAccepts 9 buf = true) : fdAccepts 10 buf = false := by
  by_contra hten
  obtain ⟨-, hdigits, -⟩ := fdAccepts_iff.1 (Bool.not_eq_false _ ▸ hten)
  have hdigit : (bufByte buf 6).toNat ≤ 0x39 := (hdigits _ (by simp [payload_ten])).2
  have hchecksum : 64 ≤ (bufByte buf 6).toNat := (checksum_byte_bounds h).1
  omega

/-! ## The obligations -/

/-- Settles O38: byte 6 cannot be both a checksum and a digit. -/
theorem noMessageAcceptedAtBothLengths : Obligations.NoMessageAcceptedAtBothLengths := by
  rintro buf ⟨hnine, hten⟩
  exact Bool.false_ne_true ((fdAccepts_ten_of_nine hnine).symm.trans hten)

/-- Settles O39: a payload of `n - 4` digits adds at most `9 * (n - 4)` to 64, and a nine-byte time is a multiple of
10. -/
theorem acceptedMessageRanges : Obligations.AcceptedMessageRanges := by
  intro buf
  constructor
  · intro h
    obtain ⟨hlo, hhi⟩ := checksum_byte_bounds h
    rw [bufByte_of_lt buf (by decide)] at hlo hhi
    have htime : fdTime 9 buf ≤ 639999 := fdTime_le (Or.inl rfl) h
    refine ⟨hlo, hhi, ?_⟩
    rw [fdTime, if_neg (by decide)] at htime ⊢
    omega
  · intro h
    obtain ⟨hlo, hhi⟩ := checksum_byte_bounds h
    rw [bufByte_of_lt buf (by decide)] at hlo hhi
    exact ⟨hlo, hhi, fdTime_le (Or.inr rfl) h⟩

end Sys2Proof.Machine
end

section
/-! PROOFS. A byte frame and a message on the standard framer (30_encoding.md R46 to R49). The ten chips of a byte never
make a run of more than ten, so they fill the accumulator, pass the frame check and spell the byte; the messages follow
by induction over their bytes, with one decode pass at nine bytes and one at ten. -/

namespace Sys2Proof.Machine

/-! ## The accumulator (43_framer_standard.md R79) -/

/-- The standard framer's registers after a list of chips is appended to the accumulator. -/
def appendChips (bs : List Chip) (r : StdRegs) : StdRegs := bs.foldl (fun r b => frAppend b r) r

/-- Chips taken by run bookkeeping and accumulator alone. -/
def accumulated (bs : List Chip) (s : State) : State := setStd (appendChips bs s.std) (setFr (runChips bs s.fr) s)

@[simp] theorem accumulated_fr (bs : List Chip) (s : State) : (accumulated bs s).fr = runChips bs s.fr := rfl
@[simp] theorem accumulated_std (bs : List Chip) (s : State) : (accumulated bs s).std = appendChips bs s.std := rfl

theorem appendChips_eq (bs : List Chip) {r : StdRegs} (h : r.chipCnt.toNat + bs.length ≤ 10) :
    appendChips bs r = { r with
      chipAcc := storeFrom r.chipAcc r.chipCnt.toNat bs
      chipCnt := r.chipCnt + BitVec.ofNat 4 bs.length } := by
  induction bs generalizing r with
  | nil => simp [appendChips, storeFrom]
  | cons b bs ih =>
    rw [List.length_cons] at h
    have hcnt : (frAppend b r).chipCnt.toNat = r.chipCnt.toNat + 1 := toNat_add_one_of_lt (by omega)
    have hstep : appendChips (b :: bs) r = appendChips bs (frAppend b r) := rfl
    rw [hstep, ih (by omega), hcnt, frAppend_chipCnt, List.length_cons, Nat.add_comm bs.length, BitVec.ofNat_add,
      ← BitVec.add_assoc]
    rfl

/-- A chip that is not idle goes to the accumulator. -/
theorem chip_of_short_run {b : Chip} {s : State} (hv : s.cfg.variant = .std) (hrun : (frRun b s.fr).run.toNat ≤ 10) :
    chip b s = frAccumulate b (setFr (frRun b s.fr) s) :=
  (chip_of_std hv b).trans (if_neg (Nat.not_lt.2 hrun))

theorem chip_appends {b : Chip} {s : State} (hv : s.cfg.variant = .std) (hrun : (frRun b s.fr).run.toNat ≤ 10)
    (hcnt : s.std.chipCnt.toNat < 9) : chip b s = accumulated [b] s := by
  have hnot : (s.std.chipCnt + 1).toNat ≠ stdFrameChips := by
    rw [toNat_add_one_of_lt (by omega), stdFrameChips]
    omega
  exact (chip_of_short_run hv hrun).trans (if_neg hnot)

theorem chip_completes {b : Chip} {s : State} (hv : s.cfg.variant = .std) (hrun : (frRun b s.fr).run.toNat ≤ 10)
    (hcnt : s.std.chipCnt.toNat = 9) (hcheck : frFrameCheck s.fr.idleVal (frAppend b s.std).chipAcc = true) :
    chip b s = frByte (accumulated [b] s) := by
  have hfull : (s.std.chipCnt + 1).toNat = stdFrameChips := by rw [toNat_add_one_of_lt (by omega), hcnt]; rfl
  exact (chip_of_short_run hv hrun).trans ((if_pos hfull).trans (if_pos hcheck))

/-- Chips that fill the accumulator without an idle run end in `frByte` if the frame check passes. -/
theorem foldl_chip_accumulates {b : Chip} {bs : List Chip} {s : State} (hv : s.cfg.variant = .std)
    (hcnt : s.std.chipCnt.toNat + bs.length = 9) (hrun : (frRun b s.fr).run.toNat + bs.length ≤ 10)
    (hcheck : frFrameCheck s.fr.idleVal (appendChips (b :: bs) s.std).chipAcc = true) :
    (b :: bs).foldl (fun s b => chip b s) s = frByte (accumulated (b :: bs) s) := by
  induction bs generalizing b s with
  | nil => exact chip_completes hv hrun hcnt hcheck
  | cons c bs ih =>
    rw [List.length_cons] at hcnt hrun
    have hfirst : chip b s = accumulated [b] s := chip_appends hv (by omega) (by omega)
    have hgrow : (frRun c (frRun b s.fr)).run.toNat ≤ (frRun b s.fr).run.toNat + 1 := frRun_run_le c _
    have hcnt' : (s.std.chipCnt + 1).toNat + bs.length = 9 := by
      rw [toNat_add_one_of_lt (by omega)]
      omega
    have hrun' : (frRun c (frRun b s.fr)).run.toNat + bs.length ≤ 10 := by omega
    rw [List.foldl_cons, hfirst]
    exact ih (s := accumulated [b] s) hv hcnt' hrun' hcheck

@[simp] theorem frStoreByte_byteBuf (x : Byte) (r : StdRegs) :
    (frStoreByte x r).byteBuf =
      if r.byteCnt.toNat < 10 then r.byteBuf.setIfInBounds r.byteCnt.toNat x else r.byteBuf := rfl

/-! ## The chips of a byte (30_encoding.md R46) -/

/-- The chips of a byte after its start chip. -/
def byteRest (v : Chip) (x : Byte) : List Chip := (List.range 8).map (fun i => if x.getLsbD i then v else !v) ++ [v]

theorem byteChips_eq (v : Chip) (x : Byte) : byteChips v x = (!v) :: byteRest v x := rfl

theorem length_byteRest (v : Chip) (x : Byte) : (byteRest v x).length = 9 := rfl

theorem length_byteChips (v : Chip) (x : Byte) : (byteChips v x).length = 10 := rfl

theorem getD_byteChips_data (v : Chip) (x : Byte) {i : Nat} (hi : i < 8) :
    (byteChips v x).getD (i + 1) false = if x.getLsbD i then v else !v := by
  simp [byteChips, List.getElem?_append, hi]

theorem frByteValue_of_data {v : Chip} {x : Byte} {acc : Vector Chip 10}
    (h : ∀ i < 8, acc.getD (i + 1) false = if x.getLsbD i then v else !v) : frByteValue v acc = x := by
  have hbits : ∀ i ∈ List.range 8, (acc.getD (i + 1) false == v).toNat <<< i = (x.getLsbD i).toNat <<< i := by
    intro i hi
    rw [h i (List.mem_range.1 hi)]
    cases x.getLsbD i <;> cases v <;> rfl
  rw [frByteValue, List.map_congr_left hbits, sum_getLsbD_shiftLeft, BitVec.ofNat_toNat, BitVec.setWidth_eq]

theorem frFrameCheck_of_ends {v : Chip} {acc : Vector Chip 10} (hstart : acc.getD 0 false = !v)
    (hstop : acc.getD 9 false = v) : frFrameCheck v acc = true := by
  rw [getD_eq_getElem acc (by decide)] at hstart hstop
  rw [frFrameCheck, hstart, hstop]
  cases v <;> rfl

/-! ## One byte -/

/-- The ten chips of a byte, handed over one after the other. -/
def sendByte (v : Chip) (x : Byte) (s : State) : State := (byteChips v x).foldl (fun s b => chip b s) s

/-- A standard framer between two bytes: the accumulator is empty, and the last chip was at the idle level. -/
structure ByteReady (v : Chip) (s : State) : Prop where
  variant : s.cfg.variant = .std
  idleVal : s.fr.idleVal = v
  lastBit : s.fr.lastBit = v
  chipCnt : s.std.chipCnt = 0

/-- `u` is `s` after the chips of a byte `x` are accumulated and `x` is stored, before the decode pass. -/
structure ByteStored (v : Chip) (x : Byte) (s u : State) : Prop where
  frame : ChipFrame s u
  noEvent : NoEvent s u
  idleVal : u.fr.idleVal = v
  lastBit : u.fr.lastBit = v
  nsl : u.fr.nsl.toNat = min (s.fr.nsl.toNat + 10) (2 ^ 32 - 1)
  byteCnt : u.std.byteCnt.toNat = min (s.std.byteCnt.toNat + 1) 11
  byteBuf : u.std.byteBuf =
    if s.std.byteCnt.toNat < 10 then s.std.byteBuf.setIfInBounds s.std.byteCnt.toNat x else s.std.byteBuf

section
variable {v : Chip} {x : Byte} {s : State}

/-- The ten chips of a byte fill an empty accumulator. -/
theorem appendChips_byteChips (h : s.std.chipCnt = 0) :
    appendChips (byteChips v x) s.std =
      { s.std with chipAcc := storeFrom s.std.chipAcc 0 (byteChips v x), chipCnt := 10 } := by
  rw [appendChips_eq _ (by rw [h, length_byteChips]; decide), h]
  rfl

theorem getD_appendChips_byteChips (h : s.std.chipCnt = 0) {i : Nat} (hi : i < 10) :
    (appendChips (byteChips v x) s.std).chipAcc.getD i false = (byteChips v x).getD i false := by
  rw [appendChips_byteChips h]
  exact getD_storeFrom_zero _ (length_byteChips v x).le (by rwa [length_byteChips]) _

/-- The ten chips of a byte are accumulated without an idle run, pass the frame check and spell the byte. -/
theorem sendByte_eq_frByte (x : Byte) (h : ByteReady v s) :
    sendByte v x s = frByte (accumulated (byteChips v x) s) ∧
      frByteValue v (appendChips (byteChips v x) s.std).chipAcc = x := by
  obtain ⟨hvar, hidle, hlast, hcnt⟩ := h
  have hacc (i : Nat) (hi : i < 10) := getD_appendChips_byteChips (v := v) (x := x) hcnt hi
  have hrun : (frRun (!v) s.fr).run.toNat = 1 := frRun_run_of_ne (by rw [hlast]; exact Bool.not_ne_self v)
  have hcheck : frFrameCheck s.fr.idleVal (appendChips (byteChips v x) s.std).chipAcc = true := by
    rw [hidle]
    exact frFrameCheck_of_ends ((hacc 0 (by decide)).trans rfl) ((hacc 9 (by decide)).trans rfl)
  constructor
  · rw [byteChips_eq] at hcheck
    rw [sendByte, byteChips_eq]
    exact foldl_chip_accumulates hvar (by rw [hcnt, length_byteRest]; rfl) (by rw [hrun, length_byteRest]) hcheck
  · exact frByteValue_of_data fun i hi => (hacc (i + 1) (by omega)).trans (getD_byteChips_data v x hi)

/-- A byte is accumulated and stored, then the FrameDecoder runs (43_framer_standard.md R82). -/
theorem sendByte_eq_decode (x : Byte) (h : ByteReady v s) :
    ∃ u, ByteStored v x s u ∧ sendByte v x s = frClearAcc (fdDecode u) := by
  obtain ⟨hsend, hvalue⟩ := sendByte_eq_frByte x h
  have hcnt : (appendChips (byteChips v x) s.std).byteCnt = s.std.byteCnt := by rw [appendChips_byteChips h.chipCnt]
  have hbuf : (appendChips (byteChips v x) s.std).byteBuf = s.std.byteBuf := by rw [appendChips_byteChips h.chipCnt]
  have hidle : (runChips (byteChips v x) s.fr).idleVal = v := (runChips_idleVal _ _).trans h.idleVal
  refine ⟨setStd (frStoreByte x (appendChips (byteChips v x) s.std)) (accumulated (byteChips v x) s), ?_, ?_⟩
  · exact {
      frame := ⟨rfl, rfl, rfl, rfl, rfl, rfl⟩
      noEvent := ⟨rfl, rfl⟩
      idleVal := hidle
      lastBit := runChips_concat_lastBit _ v s.fr
      nsl := runChips_nsl _ s.fr
      byteCnt := by
        rw [setStd_std, frStoreByte_byteCnt, hcnt, BitVec.toNat_ofNat, byteBufCap]
        omega
      byteBuf := by
        rw [setStd_std, frStoreByte_byteBuf, hcnt, hbuf] }
  · rw [hsend, frByte, accumulated_std, accumulated_fr, hidle, hvalue]

/-! ### What a byte does -/

theorem fdDecode_lastBit_idleVal (s : State) :
    (fdDecode s).fr.lastBit = s.fr.lastBit ∧ (fdDecode s).fr.idleVal = s.fr.idleVal := by
  rcases fdDecode_cases s with h | ⟨n, -, -, -, h⟩ <;> rw [h] <;> exact ⟨rfl, rfl⟩

theorem fdDecode_of_accepts {n : Nat} {s : State} (hn : n = 9 ∨ n = 10) (hcnt : s.std.byteCnt.toNat = n)
    (h : fdAccepts n s.std.byteBuf = true) :
    fdDecode s = sdDerive (bufByte s.std.byteBuf 0) (fdTime n s.std.byteBuf) (fdUnit n) s := by
  subst hcnt
  exact (if_neg (by omega)).trans (if_pos h)

/-- A byte leaves the framer ready for the next one, the byte counted and stored if there is room. -/
theorem sendByte_std (x : Byte) (h : ByteReady v s) :
    ByteReady v (sendByte v x s) ∧ (sendByte v x s).std.byteCnt.toNat = min (s.std.byteCnt.toNat + 1) 11 ∧
      (sendByte v x s).std.byteBuf =
        if s.std.byteCnt.toNat < 10 then s.std.byteBuf.setIfInBounds s.std.byteCnt.toNat x else s.std.byteBuf := by
  obtain ⟨u, hu, hsend⟩ := sendByte_eq_decode x h
  obtain ⟨hlast, hidle⟩ := fdDecode_lastBit_idleVal u
  have hcfg : (fdDecode u).cfg = s.cfg := (fdDecode_effect u).1.cfg.trans hu.frame.cfg
  rw [hsend, frClearAcc_std, fdDecode_std]
  exact ⟨⟨(congrArg ConfigRegs.variant hcfg).trans h.variant, hidle.trans hu.idleVal, hlast.trans hu.lastBit, rfl⟩,
    hu.byteCnt, hu.byteBuf⟩

/-- A byte that no decode pass accepts emits nothing, and `NSL` goes on counting. -/
theorem sendByte_quiet (x : Byte) (h : ByteReady v s)
    (hquiet : ∀ n, n = 9 ∨ n = 10 → s.std.byteCnt.toNat + 1 = n → fdAccepts n (sendByte v x s).std.byteBuf = false) :
    NoEvent s (sendByte v x s) ∧ (sendByte v x s).fr.nsl.toNat = min (s.fr.nsl.toNat + 10) (2 ^ 32 - 1) := by
  obtain ⟨u, hu, hsend⟩ := sendByte_eq_decode x h
  have hbuf : (sendByte v x s).std.byteBuf = u.std.byteBuf := by rw [hsend, frClearAcc_std, fdDecode_std]
  have hcnt := hu.byteCnt
  have hsame : fdDecode u = u := by
    rcases fdDecode_cases u with hs | ⟨n, hn, hun, hacc, -⟩
    · exact hs
    · have hrej := hquiet n hn (by omega)
      rw [hbuf, hacc] at hrej
      exact absurd hrej.symm Bool.false_ne_true
  rw [hsend, hsame]
  exact ⟨hu.noEvent, hu.nsl⟩

/-- The ninth or the tenth byte, if its decode pass accepts, emits the message's snapshot and clears `NSL`. -/
theorem sendByte_emits {n : Nat} (x : Byte) (h : ByteReady v s) (hn : n = 9 ∨ n = 10)
    (hcnt : s.std.byteCnt.toNat + 1 = n) (hacc : fdAccepts n (sendByte v x s).std.byteBuf = true) :
    let buf := (sendByte v x s).std.byteBuf
    (sendByte v x s).st = frameSnapshot (bufByte buf 0) (fdTime n buf) (fdUnit n) s ∧
      (sendByte v x s).evq = s.evq ++ [(sendByte v x s).st] ∧ (sendByte v x s).fr.nsl = 0 := by
  obtain ⟨u, hu, hsend⟩ := sendByte_eq_decode x h
  have hbuf : (sendByte v x s).std.byteBuf = u.std.byteBuf := by rw [hsend, frClearAcc_std, fdDecode_std]
  obtain ⟨hevq, hst⟩ := hu.noEvent
  have hucnt := hu.byteCnt
  rw [hbuf] at hacc ⊢
  have hdec := fdDecode_of_accepts hn (by omega) hacc
  rw [hsend, hdec]
  refine ⟨frameSnapshot_congr _ _ _ hu.frame hst, ?_, rfl⟩
  exact congrArg (· ++ _) hevq

end

/-- Settles O35: `sendByte_std` for the registers, and no decode pass unless the byte is the ninth or the tenth. -/
theorem byteFrameRoundTrip : Obligations.ByteFrameRoundTrip := by
  intro x v s hvar hidle hlast hcnt
  have hready : ByteReady v s := ⟨hvar, hidle, hlast, hcnt⟩
  obtain ⟨hready', hcnt', hbuf'⟩ := sendByte_std x hready
  refine ⟨hbuf', hcnt', hready'.chipCnt, hready'.idleVal, hready'.lastBit, fun hn => ?_⟩
  obtain ⟨⟨hevq, hst⟩, hnsl⟩ := sendByte_quiet x hready (fun n _ _ => by omega)
  exact ⟨hevq, hst, hnsl⟩

/-! ## Messages -/

/-- The chips of a text, handed over one after the other. -/
def sendText (v : Chip) (text : List Byte) (s : State) : State :=
  (messageChips v text).foldl (fun s b => chip b s) s

theorem sendText_cons (v : Chip) (x : Byte) (text : List Byte) (s : State) :
    sendText v (x :: text) s = sendText v text (sendByte v x s) := by
  rw [sendText, messageChips, List.flatMap_cons, List.foldl_append]
  rfl

theorem sendText_concat (v : Chip) (text : List Byte) (x : Byte) (s : State) :
    sendText v (text ++ [x]) s = sendByte v x (sendText v text s) := by
  rw [sendText, messageChips, List.flatMap_append, List.foldl_append, List.flatMap_singleton]
  rfl

/-- `t` is `s` after the bytes of a text are received, its framer ready for the next byte. -/
structure TextReceived (v : Chip) (text : List Byte) (s t : State) : Prop where
  ready : ByteReady v t
  byteCnt : t.std.byteCnt.toNat = s.std.byteCnt.toNat + text.length
  byteBuf : t.std.byteBuf = storeFrom s.std.byteBuf s.std.byteCnt.toNat text

theorem sendText_received {v : Chip} {text : List Byte} {s : State} (h : ByteReady v s)
    (hlen : s.std.byteCnt.toNat + text.length ≤ 10) : TextReceived v text s (sendText v text s) := by
  induction text generalizing s with
  | nil => exact ⟨h, rfl, rfl⟩
  | cons x text ih =>
    rw [List.length_cons] at hlen
    obtain ⟨hready, hcnt, hbuf⟩ := sendByte_std x h
    rw [Nat.min_eq_left (by omega)] at hcnt
    rw [if_pos (by omega)] at hbuf
    obtain ⟨hready', hcnt', hbuf'⟩ := ih hready (by omega)
    rw [sendText_cons]
    refine ⟨hready', ?_, ?_⟩
    · rw [hcnt', hcnt, List.length_cons]
      omega
    · rw [hbuf', hbuf, hcnt, storeFrom]

/-- Bytes that leave fewer than nine in the buffer run no decode pass. -/
theorem sendText_noEvent {v : Chip} {text : List Byte} {s : State} (h : ByteReady v s)
    (hlen : s.std.byteCnt.toNat + text.length ≤ 8) : NoEvent s (sendText v text s) := by
  induction text generalizing s with
  | nil => exact ⟨rfl, rfl⟩
  | cons x text ih =>
    rw [List.length_cons] at hlen
    obtain ⟨hready, hcnt, -⟩ := sendByte_std x h
    obtain ⟨hfirst, -⟩ := sendByte_quiet x h (fun n hn hcnt => by omega)
    rw [sendText_cons]
    exact hfirst.trans (ih hready (by omega))

section
variable {v : Chip} {n : Nat} {text whole : List Byte} {x : Byte} {s : State}

theorem sendText_quiet (h : ByteReady v s) (hcnt : s.std.byteCnt = 0) (hlen : text.length ≤ 8) :
    NoEvent s (sendText v text s) :=
  sendText_noEvent h (by rw [hcnt]; exact (Nat.zero_add _).trans_le hlen)

/-- The last byte of a text that starts an empty byte buffer: before it the framer is ready, after it the buffer holds
the text. -/
theorem sendText_last (h : ByteReady v s) (hcnt : s.std.byteCnt = 0) (hwhole : whole = text ++ [x])
    (hlen : whole.length = n) (hn : n ≤ 10) :
    let t := sendText v text s
    ByteReady v t ∧ t.std.byteCnt.toNat + 1 = n ∧ sendText v whole s = sendByte v x t ∧
      (sendByte v x t).std.byteBuf = storeFrom s.std.byteBuf 0 whole := by
  have hzero : s.std.byteCnt.toNat = 0 := by rw [hcnt]; rfl
  have hall : TextReceived v whole s (sendText v whole s) := sendText_received h (by omega)
  subst hwhole
  rw [List.length_append, List.length_singleton] at hlen
  have hrec : TextReceived v text s (sendText v text s) := sendText_received h (by omega)
  have hcount := hrec.byteCnt
  have hbuf := hall.byteBuf
  rw [sendText_concat, hzero] at hbuf
  exact ⟨hrec.ready, by omega, sendText_concat v text x s, hbuf⟩

/-- The byte that makes `n` emits the message's snapshot if its decode pass accepts. -/
theorem sendText_emits (h : ByteReady v s) (hcnt : s.std.byteCnt = 0) (hwhole : whole = text ++ [x])
    (hn : n = 9 ∨ n = 10) (hlen : whole.length = n) (hquiet : NoEvent s (sendText v text s))
    (hacc : fdAccepts n (storeFrom s.std.byteBuf 0 whole) = true) :
    let buf := storeFrom s.std.byteBuf 0 whole
    let t := sendText v whole s
    t.st = frameSnapshot (bufByte buf 0) (fdTime n buf) (fdUnit n) s ∧ t.evq = s.evq ++ [t.st] ∧ t.fr.nsl = 0 := by
  obtain ⟨hready, hcount, hsend, hbuf⟩ := sendText_last h hcnt hwhole hlen (by omega)
  obtain ⟨hevq, hst⟩ := hquiet
  have hframe : ChipFrame s (sendText v text s) := foldl_chip_frame _ s
  rw [← hbuf] at hacc ⊢
  obtain ⟨hst', hevq', hnsl⟩ := sendByte_emits x hready hn hcount hacc
  rw [frameSnapshot_congr _ _ _ hframe hst] at hst'
  rw [hevq] at hevq'
  rw [hsend]
  exact ⟨hst', hevq', hnsl⟩

/-- The byte that makes `n` emits nothing if its decode pass rejects, and `NSL` goes on counting. -/
theorem sendText_rejected (h : ByteReady v s) (hcnt : s.std.byteCnt = 0) (hwhole : whole = text ++ [x])
    (hlen : whole.length = n) (hn : n ≤ 10) (hrej : fdAccepts n (storeFrom s.std.byteBuf 0 whole) = false) :
    let t := sendText v text s
    let t' := sendText v whole s
    NoEvent t t' ∧ t'.fr.nsl.toNat = min (t.fr.nsl.toNat + 10) (2 ^ 32 - 1) := by
  obtain ⟨hready, hcount, hsend, hbuf⟩ := sendText_last h hcnt hwhole hlen hn
  rw [← hbuf] at hrej
  rw [hsend]
  refine sendByte_quiet x hready fun m _ hm => ?_
  obtain rfl : m = n := hm.symm.trans hcount
  exact hrej

end

/-! ### What the decode pass reads of a text -/

/-- The bytes of a text, read back from the buffer they were stored in. -/
theorem bufByte_storeFrom (old : Vector Byte 10) {i : Nat} {text : List Byte} (hlen : text.length ≤ 10)
    (hi : i < text.length) : bufByte (storeFrom old 0 text) i = text.getD i 0 :=
  getD_storeFrom_zero old hlen hi 0

theorem fdTime_nine (buf : Vector Byte 10) :
    fdTime 9 buf =
      digitAt buf 1 * 60000 + (10 * digitAt buf 2 + digitAt buf 3) * 1000 +
        (10 * digitAt buf 4 + digitAt buf 5) * 10 := rfl

theorem fdTime_ten (buf : Vector Byte 10) :
    fdTime 10 buf =
      digitAt buf 1 * 60000 + (10 * digitAt buf 2 + digitAt buf 3) * 1000 +
        (100 * digitAt buf 4 + 10 * digitAt buf 5 + digitAt buf 6) := rfl

section
variable (old : Vector Byte 10) (h d1 d2 d3 d4 d5 d6 ck : Byte) {rest : List Byte}

/-- The pass at nine bytes: header, five digits and their checksum, and the time of an accepted message. -/
theorem nine_byte_pass (hrest : rest.length ≤ 3) :
    let buf := storeFrom old 0 (h :: d1 :: d2 :: d3 :: d4 :: d5 :: ck :: rest)
    let n := fun b : Byte => b.toNat - 0x30
    bufByte buf 0 = h ∧
      fdTime 9 buf = n d1 * 60000 + (10 * n d2 + n d3) * 1000 + (10 * n d4 + n d5) * 10 ∧
      (fdAccepts 9 buf = true ↔
        h ∈ [0x20#8, 0x53#8, 0x49#8, 0x4C#8, 0x52#8, 0x43#8, 0x41#8] ∧
          (∀ d ∈ [d1, d2, d3, d4, d5], 0x30 ≤ d.toNat ∧ d.toNat ≤ 0x39) ∧
          64 + n d1 + n d2 + n d3 + n d4 + n d5 = ck.toNat) := by
  have hread {i : Nat} (hi : i < 7) := bufByte_storeFrom old
    (text := h :: d1 :: d2 :: d3 :: d4 :: d5 :: ck :: rest) (i := i) (by simp only [List.length_cons]; omega)
    (by simp only [List.length_cons]; omega)
  simp only [fdAccepts_iff, payload_nine, fdSum_nine, fdTime_nine, digitAt]
  rw [hread (i := 0) (by decide), hread (i := 1) (by decide), hread (i := 2) (by decide), hread (i := 3) (by decide),
    hread (i := 4) (by decide), hread (i := 5) (by decide), hread (i := 6) (by decide)]
  exact ⟨rfl, rfl, Iff.rfl⟩

/-- The pass at ten bytes: header, six digits and their checksum, and the time of an accepted message. -/
theorem ten_byte_pass (hrest : rest.length ≤ 2) :
    let buf := storeFrom old 0 (h :: d1 :: d2 :: d3 :: d4 :: d5 :: d6 :: ck :: rest)
    let n := fun b : Byte => b.toNat - 0x30
    bufByte buf 0 = h ∧
      fdTime 10 buf = n d1 * 60000 + (10 * n d2 + n d3) * 1000 + (100 * n d4 + 10 * n d5 + n d6) ∧
      (fdAccepts 10 buf = true ↔
        h ∈ [0x20#8, 0x53#8, 0x49#8, 0x4C#8, 0x52#8, 0x43#8, 0x41#8] ∧
          (∀ d ∈ [d1, d2, d3, d4, d5, d6], 0x30 ≤ d.toNat ∧ d.toNat ≤ 0x39) ∧
          64 + n d1 + n d2 + n d3 + n d4 + n d5 + n d6 = ck.toNat) := by
  have hread {i : Nat} (hi : i < 8) := bufByte_storeFrom old
    (text := h :: d1 :: d2 :: d3 :: d4 :: d5 :: d6 :: ck :: rest) (i := i) (by simp only [List.length_cons]; omega)
    (by simp only [List.length_cons]; omega)
  simp only [fdAccepts_iff, payload_ten, fdSum_ten, fdTime_ten, digitAt]
  rw [hread (i := 0) (by decide), hread (i := 1) (by decide), hread (i := 2) (by decide), hread (i := 3) (by decide),
    hread (i := 4) (by decide), hread (i := 5) (by decide), hread (i := 6) (by decide), hread (i := 7) (by decide)]
  exact ⟨rfl, rfl, Iff.rfl⟩

end

/-! ### The obligations -/

/-- Settles O36: the first eight bytes are quiet, and the ninth runs the decode pass. -/
theorem nineByteMessageDecodes : Obligations.NineByteMessageDecodes := by
  intro h d1 d2 d3 d4 d5 ck x y v s hvar hidle hlast hchip hbyte
  have hready : ByteReady v s := ⟨hvar, hidle, hlast, hchip⟩
  have hquiet : NoEvent s (sendText v [h, d1, d2, d3, d4, d5, ck, x] s) := sendText_quiet hready hbyte le_rfl
  obtain ⟨hheader, htime, haccepts⟩ := nine_byte_pass s.std.byteBuf h d1 d2 d3 d4 d5 ck (rest := [x, y]) (Nat.le_succ 2)
  dsimp only at htime haccepts
  have hninth : [h, d1, d2, d3, d4, d5, ck, x, y] = [h, d1, d2, d3, d4, d5, ck, x] ++ [y] := rfl
  intro t
  have ht : sendText v [h, d1, d2, d3, d4, d5, ck, x, y] s = t := rfl
  dsimp only
  split
  next hc =>
    obtain ⟨hst, hevq, hnsl⟩ := sendText_emits hready hbyte hninth (Or.inl rfl) rfl hquiet (haccepts.2 hc)
    rw [hheader, htime, ht] at hst
    rw [ht] at hevq hnsl
    exact ⟨hst, hevq, hnsl⟩
  next hc =>
    have hrej := Bool.eq_false_iff.2 (mt haccepts.1 hc)
    obtain ⟨hnone, -⟩ := sendText_rejected hready hbyte hninth rfl (Nat.le_succ 9) hrej
    obtain ⟨hevq, hst⟩ := hquiet.trans hnone
    exact ⟨hst, hevq⟩

/-- Settles O37: the ninth and the tenth byte run a decode pass each, and at most one of the two accepts. -/
theorem tenByteMessageDecodes : Obligations.TenByteMessageDecodes := by
  intro h d1 d2 d3 d4 d5 d6 ck x y v s hvar hidle hlast hchip hbyte
  have hready : ByteReady v s := ⟨hvar, hidle, hlast, hchip⟩
  have hquiet : NoEvent s (sendText v [h, d1, d2, d3, d4, d5, d6, ck] s) := sendText_quiet hready hbyte le_rfl
  obtain ⟨hheader, htime, haccepts⟩ :=
    nine_byte_pass s.std.byteBuf h d1 d2 d3 d4 d5 d6 (rest := [ck, x]) (Nat.le_succ 2)
  obtain ⟨-, -, haccepts'⟩ := nine_byte_pass s.std.byteBuf h d1 d2 d3 d4 d5 d6 (rest := [ck, x, y]) le_rfl
  obtain ⟨hheader10, htime10, haccepts10⟩ :=
    ten_byte_pass s.std.byteBuf h d1 d2 d3 d4 d5 d6 ck (rest := [x, y]) le_rfl
  dsimp only at htime haccepts haccepts' htime10 haccepts10
  have hninth : [h, d1, d2, d3, d4, d5, d6, ck, x] = [h, d1, d2, d3, d4, d5, d6, ck] ++ [x] := rfl
  have htenth : [h, d1, d2, d3, d4, d5, d6, ck, x, y] = [h, d1, d2, d3, d4, d5, d6, ck, x] ++ [y] := rfl
  intro header n t
  have ht : sendText v [h, d1, d2, d3, d4, d5, d6, ck, x, y] s = t := rfl
  dsimp only [header, n]
  split
  next hten =>
    have hacc10 := haccepts10.2 hten
    have hrej : fdAccepts 9 (storeFrom s.std.byteBuf 0 [h, d1, d2, d3, d4, d5, d6, ck, x]) = false :=
      Bool.eq_false_iff.2 fun hnine =>
        noMessageAcceptedAtBothLengths _ ⟨haccepts'.2 (haccepts.1 hnine), hacc10⟩
    obtain ⟨hnone, -⟩ := sendText_rejected hready hbyte hninth rfl (Nat.le_succ 9) hrej
    obtain ⟨hst, hevq, hnsl⟩ := sendText_emits hready hbyte htenth (Or.inr rfl) rfl (hquiet.trans hnone) hacc10
    rw [hheader10, htime10, ht] at hst
    rw [ht] at hevq hnsl
    exact ⟨hst, hevq, hnsl⟩
  next hnotTen =>
    have hrej10 := Bool.eq_false_iff.2 (mt haccepts10.1 hnotTen)
    obtain ⟨⟨hevq10, hst10⟩, hnsl10⟩ := sendText_rejected hready hbyte htenth rfl le_rfl hrej10
    rw [ht] at hevq10 hst10 hnsl10
    split
    next hnine =>
      obtain ⟨hst, hevq, hnsl⟩ := sendText_emits hready hbyte hninth (Or.inl rfl) rfl hquiet (haccepts.2 hnine)
      rw [hheader, htime] at hst
      refine ⟨hst10.trans hst, ?_, ?_⟩
      · rw [← hst10] at hevq
        exact hevq10.trans hevq
      · rw [hnsl] at hnsl10
        exact BitVec.eq_of_toNat_eq hnsl10
    next hnotNine =>
      have hrej := Bool.eq_false_iff.2 (mt haccepts.1 hnotNine)
      obtain ⟨hnone, -⟩ := sendText_rejected hready hbyte hninth rfl (Nat.le_succ 9) hrej
      obtain ⟨hevq, hst⟩ := hquiet.trans hnone
      exact ⟨hst10.trans hst, hevq10.trans hevq⟩

end Sys2Proof.Machine
end

section
/-! PROOFS. A fast frame (30_encoding.md R50): its 25 chips never make an idle run, so the start chip opens the frame,
the 24 data chips are collected in order, and the last one decodes them. -/

namespace Sys2Proof.Machine

/-! ## Collecting the data chips (44_framer_fast.md R88) -/

/-- The fast framer's registers after a list of data chips is stored. -/
def storeChips (bs : List Chip) (r : FastRegs) : FastRegs := bs.foldl (fun r b => ffStore b r) r

/-- Data chips taken by run bookkeeping and storage alone. -/
def collected (bs : List Chip) (s : State) : State := setFast (storeChips bs s.fast) (setFr (runChips bs s.fr) s)

theorem storeChips_chips (bs : List Chip) {r : FastRegs} (h : r.cnt.toNat + bs.length ≤ 24) :
    (storeChips bs r).chips = storeFrom r.chips r.cnt.toNat bs := by
  induction bs generalizing r with
  | nil => rfl
  | cons b bs ih =>
    rw [List.length_cons] at h
    have hcnt : (ffStore b r).cnt.toNat = r.cnt.toNat + 1 := toNat_add_one_of_lt (by omega)
    have hrest : (storeChips bs (ffStore b r)).chips = storeFrom (ffStore b r).chips (ffStore b r).cnt.toNat bs :=
      ih (by omega)
    rw [hcnt] at hrest
    exact hrest

/-- A data chip that is not idle goes to the collector. -/
theorem chip_in_frame {b : Chip} {s : State} (hv : s.cfg.variant = .fast) (hin : s.fast.inframe = true)
    (hrun : (frRun b s.fr).run.toNat ≤ 100) : chip b s = ffCollect b (setFr (frRun b s.fr) s) :=
  (chip_of_fast hv b).trans ((if_neg (Nat.not_lt.2 hrun)).trans (if_pos hin))

theorem chip_collects {b : Chip} {s : State} (hv : s.cfg.variant = .fast) (hin : s.fast.inframe = true)
    (hrun : (frRun b s.fr).run.toNat ≤ 100) (hcnt : s.fast.cnt.toNat < 23) : chip b s = collected [b] s := by
  have hnot : (s.fast.cnt + 1).toNat ≠ fastFrameChips := by
    rw [toNat_add_one_of_lt (by omega), fastFrameChips]
    omega
  exact (chip_in_frame hv hin hrun).trans (if_neg hnot)

theorem chip_ends_frame {b : Chip} {s : State} (hv : s.cfg.variant = .fast) (hin : s.fast.inframe = true)
    (hrun : (frRun b s.fr).run.toNat ≤ 100) (hcnt : s.fast.cnt.toNat = 23) :
    chip b s = ffEnd (ffDecode (collected [b] s)) := by
  have hfull : (s.fast.cnt + 1).toNat = fastFrameChips := by rw [toNat_add_one_of_lt (by omega), hcnt]; rfl
  exact (chip_in_frame hv hin hrun).trans (if_pos hfull)

/-- Chips that fill a frame without an idle run are decoded, and the frame ends. -/
theorem foldl_chip_collects {b : Chip} {bs : List Chip} {s : State} (hv : s.cfg.variant = .fast)
    (hin : s.fast.inframe = true) (hcnt : s.fast.cnt.toNat + bs.length = 23)
    (hrun : (frRun b s.fr).run.toNat + bs.length ≤ 100) :
    (b :: bs).foldl (fun s b => chip b s) s = ffEnd (ffDecode (collected (b :: bs) s)) := by
  induction bs generalizing b s with
  | nil => exact chip_ends_frame hv hin hrun hcnt
  | cons c bs ih =>
    rw [List.length_cons] at hcnt hrun
    have hfirst : chip b s = collected [b] s := chip_collects hv hin (by omega) (by omega)
    have hgrow : (frRun c (frRun b s.fr)).run.toNat ≤ (frRun b s.fr).run.toNat + 1 := frRun_run_le c _
    have hcnt' : (s.fast.cnt + 1).toNat + bs.length = 23 := by
      rw [toNat_add_one_of_lt (by omega)]
      omega
    have hrun' : (frRun c (frRun b s.fr)).run.toNat + bs.length ≤ 100 := by omega
    rw [List.foldl_cons, hfirst]
    exact ih (s := collected [b] s) hv hin hcnt' hrun'

/-- A chip that differs from the idle level starts a frame (44_framer_fast.md R87). -/
theorem chip_starts_frame {b : Chip} {s : State} (hv : s.cfg.variant = .fast) (harmed : s.fast.armed = true)
    (hin : s.fast.inframe = false) (hrun : (frRun b s.fr).run.toNat ≤ 100) (hb : b ≠ s.fr.idleVal) :
    chip b s = ffStart (setFr (frRun b s.fr) s) := by
  have hnotIn : ¬ (setFr (frRun b s.fr) s).fast.inframe = true := by rw [setFr_fast, hin]; exact Bool.false_ne_true
  exact (chip_of_fast hv b).trans ((if_neg (Nat.not_lt.2 hrun)).trans ((if_neg hnotIn).trans (if_pos ⟨harmed, hb⟩)))

/-! ## The digits of a frame (44_framer_fast.md R89) -/

/-- Chip `4g + j` of the digits' chips is bit `j` of digit `g`. -/
theorem getD_flatMap_bits (digits : List (BitVec 4)) {g j : Nat} (hg : g < digits.length) (hj : j < 4) :
    (digits.flatMap fun d => (List.range 4).map fun j => d.getLsbD j).getD (4 * g + j) false = digits[g].getLsbD j := by
  have hlen (d : BitVec 4) : ((List.range 4).map fun j => d.getLsbD j).length = 4 := by simp
  induction digits generalizing g with
  | nil => simp at hg
  | cons d digits ih =>
    rw [List.flatMap_cons]
    cases g with
    | zero =>
      rw [List.getD_append _ _ _ _ (by rw [hlen]; omega)]
      simp [hj]
    | succ g =>
      rw [List.getD_append_right _ _ _ _ (by rw [hlen]; omega), hlen, show 4 * (g + 1) + j - 4 = 4 * g + j by omega]
      exact ih (Nat.lt_of_succ_lt_succ hg)

theorem length_digitChips (digits : Vector (BitVec 4) 6) : (digitChips digits).length = 24 := by
  simp [digitChips, List.length_flatMap]

/-- A stored frame's digits are those whose chips were stored. -/
theorem fastDigit_storeFrom (old : Vector Chip 24) (digits : Vector (BitVec 4) 6) {g : Nat} (hg : g < 6) :
    fastDigit (storeFrom old 0 (digitChips digits)) g = digits[g].toNat := by
  have hbits : ∀ j ∈ List.range 4, ((storeFrom old 0 (digitChips digits)).getD (4 * g + j) false).toNat <<< j =
      (digits[g].getLsbD j).toNat <<< j := by
    intro j hj
    have hj4 : j < 4 := List.mem_range.1 hj
    rw [getD_storeFrom_zero old (length_digitChips digits).le (by rw [length_digitChips]; omega), digitChips,
      getD_flatMap_bits _ (by simpa using hg) hj4, Vector.getElem_toList]
  rw [fastDigit, List.map_congr_left hbits, sum_getLsbD_shiftLeft]

theorem fastTime_eq (chips : Vector Chip 24) :
    fastTime chips =
      fastDigit chips 0 * 100000 + fastDigit chips 1 * 10000 + fastDigit chips 2 * 1000 + fastDigit chips 3 * 100 +
        fastDigit chips 4 * 10 + fastDigit chips 5 := by
  simp only [fastTime, List.range, List.range.loop, List.foldl_cons, List.foldl_nil]
  omega

/-! ## A whole frame -/

/-- The last data chip emits the frame's snapshot, clears `NSL` and arms the detector (44_framer_fast.md R88, R89). -/
theorem ffEnd_ffDecode_fields (u : State) :
    let t := ffEnd (ffDecode u)
    t.st = frameSnapshot chS (fastTime u.fast.chips) 1 u ∧ t.evq = u.evq ++ [t.st] ∧ t.fr.nsl = 0 ∧
      t.fast.armed = true ∧ t.fast.inframe = false :=
  ⟨rfl, rfl, rfl, rfl, rfl⟩

/-- A frame's 25 chips, from an armed detector after a chip at the idle level. -/
theorem foldl_chip_fastFrame {v : Chip} {s : State} (digits : Vector (BitVec 4) 6) (hvar : s.cfg.variant = .fast)
    (hidle : s.fr.idleVal = v) (hlast : s.fr.lastBit = v) (harmed : s.fast.armed = true)
    (hin : s.fast.inframe = false) :
    (fastFrameChipList v digits).foldl (fun s b => chip b s) s =
      ffEnd (ffDecode (collected (digitChips digits) (ffStart (setFr (frRun (!v) s.fr) s)))) := by
  have hrun : (frRun (!v) s.fr).run.toNat = 1 := frRun_run_of_ne (by rw [hlast]; exact Bool.not_ne_self v)
  have hstart := chip_starts_frame hvar harmed hin (hrun.trans_le (by decide)) (by rw [hidle]; exact Bool.not_ne_self v)
  have hlen := length_digitChips digits
  rw [fastFrameChipList, List.foldl_cons, hstart]
  cases hchips : digitChips digits with
  | nil => rw [hchips] at hlen; cases hlen
  | cons b bs =>
    rw [hchips, List.length_cons] at hlen
    have hgrow := frRun_run_le b (frRun (!v) s.fr)
    have hcnt : (0 : BitVec 5).toNat + bs.length = 23 := (Nat.zero_add _).trans (Nat.succ.inj hlen)
    exact foldl_chip_collects hvar rfl hcnt (by rw [ffStart_fr, setFr_fr]; omega)

/-- The digits collected after a start chip spell the time of the frame. -/
theorem fastTime_collected (d0 d1 d2 d3 d4 d5 : BitVec 4) {s : State} (hcnt : s.fast.cnt = 0) :
    fastTime (collected (digitChips #v[d0, d1, d2, d3, d4, d5]) s).fast.chips =
      d0.toNat * 100000 + d1.toNat * 10000 + d2.toNat * 1000 + d3.toNat * 100 + d4.toNat * 10 + d5.toNat := by
  have hzero : s.fast.cnt.toNat = 0 := by rw [hcnt]; rfl
  have hchips := storeChips_chips (digitChips #v[d0, d1, d2, d3, d4, d5]) (r := s.fast)
    (by rw [hzero, length_digitChips])
  rw [collected, setFast_fast, hchips, hzero, fastTime_eq]
  simp (disch := decide) only [fastDigit_storeFrom]
  rfl

/-- Settles O42: the last data chip of the frame decodes the digits and arms the detector. -/
theorem fastFrameRoundTrip : Obligations.FastFrameRoundTrip := by
  intro d0 d1 d2 d3 d4 d5 v s hvar hidle hlast harmed hin t
  have ht := foldl_chip_fastFrame #v[d0, d1, d2, d3, d4, d5] hvar hidle hlast harmed hin
  have htime := fastTime_collected d0 d1 d2 d3 d4 d5 (s := ffStart (setFr (frRun (!v) s.fr) s)) rfl
  generalize hu : collected (digitChips #v[d0, d1, d2, d3, d4, d5]) (ffStart (setFr (frRun (!v) s.fr) s)) = u
    at ht htime
  have hframe : ChipFrame s u := hu ▸ ⟨rfl, rfl, rfl, rfl, rfl, rfl⟩
  have hst : u.st = s.st := hu ▸ rfl
  have hevq : u.evq = s.evq := hu ▸ rfl
  obtain ⟨hst', hevq', hnsl, harmed', hin'⟩ := ffEnd_ffDecode_fields u
  rw [htime, frameSnapshot_congr _ _ _ hframe hst, ← ht] at hst'
  rw [hevq, ← ht] at hevq'
  rw [← ht] at hnsl harmed' hin'
  exact ⟨hst', hevq', hnsl, harmed', hin'⟩

end Sys2Proof.Machine
end

section
/-! PROOFS. The host commands one by one (40_host_commands.md R53 to R56): how a step takes a command, what NOP leaves, and
what a RESET latches, computes and clears. -/

namespace Sys2Proof.Machine

/-! ## Taking a command -/

/-- Settles O7: the two ways in which a step can go, told apart by the host's list. -/
theorem stepRunsTheDecodedCommand : Obligations.StepRunsTheDecodedCommand := by
  refine ⟨fun s w rest h => ?issued, fun s h => ?none⟩
  case issued =>
    rcases step_cases s with ⟨hnil, -⟩ | ⟨w', rest', hcons, hstep⟩
    · cases h.symm.trans hnil
    · cases h.symm.trans hcons
      exact hstep
  case none =>
    rcases step_cases s with ⟨-, hstep⟩ | ⟨w, rest, hcons, -⟩
    · exact hstep
    · cases h.symm.trans hcons

/-! ## NOP -/

/-- NOP's meaning (40_host_commands.md R53). -/
theorem exec_nop (o : BitVec 64) (s : State) : exec (.nop o) s = .next s := rfl

/-- Settles O10: a word with `OP = 0b00` decodes to NOP, and NOP keeps the state. -/
theorem nopDoesNothing : Obligations.NopDoesNothing := by
  refine ⟨exec_nop, fun w s h => ?_⟩
  rw [decode_of_selector_nop h, exec_nop]

/-! ## The legality of a configuration (10_state.md R14) -/

/-- The upper bound of the rate is the width of its field. -/
theorem legalConfig_iff {rate : BitVec 24} {bal : F32} :
    legalConfig rate bal = true ↔ 8000 ≤ rate.toNat ∧ f32IsFinite bal = true := by
  refine ⟨fun h => ⟨rate_ge_of_legalConfig h, f32IsFinite_of_legalConfig h⟩, fun ⟨hrate, hbal⟩ => ?_⟩
  have hmax : rate.toNat ≤ rateMax := Nat.le_of_lt_succ rate.isLt
  rw [legalConfig, hbal, decide_eq_true hmax, decide_eq_true (show rateMin ≤ rate.toNat from hrate)]
  rfl

theorem legalConfig_eq_false_iff {rate : BitVec 24} {bal : F32} :
    legalConfig rate bal = false ↔ rate.toNat < 8000 ∨ f32IsFinite bal = false := by
  rw [← Bool.not_eq_true, legalConfig_iff, not_and_or, Nat.not_le, Bool.not_eq_true]

/-! ## Reset values -/

theorem oneBits_eq_fone : oneBits = fone := by decide +kernel

theorem zero_eq_fzeroPos : (0 : F64) = fzeroPos := rfl

/-- The variants' reset snapshots differ in the unit only (10_state.md R22). -/
theorem resetSnapshot_eq (v : Variant) :
    resetSnapshot v = { State.reset.st with unit := if v = .fast then 1 else 10 } := by
  cases v <;> rfl

/-- Every entry of the delay line is +0.0 at reset (10_state.md R17). -/
theorem resetEdge_dl_getElem (i : Nat) (h : i < 4096) : resetEdge.dl[i] = fzeroPos :=
  Vector.getElem_replicate h

/-! ## The derived constants (00_scope.md R5) -/

/-- `K_REF` as a number: both reference rates fit the register. -/
theorem derivedConstants_ref_toNat (v : Variant) (rate : BitVec 24) :
    (derivedConstants v rate).ref.toNat = if v = .fast then 8000 else 1200 := by
  cases v <;> rfl

/-- The real constants by their formulas, each from the constants before it. -/
theorem derivedConstants_formulas (v : Variant) (rate : BitVec 24) :
    let k := derivedConstants v rate
    k.f = fdiv (fofRatio rate.toNat 1) (fofRatio k.ref.toNat 1) ∧
      k.alpha = fdiv (fofRatio 1 1000) k.f ∧
      k.dlen = BitVec.ofNat 12 (fceil (fdiv k.f (fofRatio 6 1))) ∧
      k.edgeMin = fmul k.f (fofRatio 6 10) ∧ k.ovfMin = fmul k.f (fofRatio 2 1) := by
  have href : (derivedConstants v rate).ref.toNat = refRate v := by
    rw [derivedConstants_ref_toNat]
    cases v <;> rfl
  dsimp only
  rw [href, derivedConstants_alpha, derivedConstants_dlen, derivedConstants_edgeMin, derivedConstants_ovfMin,
    derivedConstants_f, sampleRateFactor, agcBase, delayDiv, edgeMinFactor, ovfFactor]
  exact ⟨rfl, rfl, rfl, rfl, rfl⟩

/-! ## RESET -/

/-- RESET's meaning (40_host_commands.md R56). -/
theorem exec_reset (v : Variant) (ig : BitVec 7) (rate : BitVec 24) (bal : F32) (s : State) :
    exec (.reset v ig rate bal) s = .next (clearDecoder v (latchConfig v rate bal s)) := rfl

/-- The configuration registers after a RESET. -/
theorem reset_cfg (v : Variant) (rate : BitVec 24) (bal : F32) (s : State) :
    (clearDecoder v (latchConfig v rate bal s)).cfg =
      { configured := legalConfig rate bal, variant := v, rate := rate, bal := fwiden bal } := by
  rw [clearDecoder_cfg, latchConfig_cfg, latchedConfig]

/-- A RESET leaves `EVQ` and the commands still to be taken, whatever the configuration. -/
theorem reset_frame (v : Variant) (rate : BitVec 24) (bal : F32) (s : State) :
    (clearDecoder v (latchConfig v rate bal s)).evq = s.evq ∧
      (clearDecoder v (latchConfig v rate bal s)).cmdIn = s.cmdIn := by
  simp

/-- Settles O12: `latchConfig` computes the constants of a legal configuration, and `clearDecoder` does the rest. -/
theorem legalResetConfigures : Obligations.LegalResetConfigures := by
  intro v ig rate bal s hrate hbal
  have hlegal : legalConfig rate bal = true := legalConfig_iff.2 ⟨hrate, hbal⟩
  obtain ⟨hk, hctr⟩ := latchConfig_legal (v := v) hlegal s
  obtain ⟨hevq, hcmdIn⟩ := reset_frame v rate bal s
  have hcfg := reset_cfg v rate bal s
  rw [hlegal] at hcfg
  refine ⟨_, exec_reset v ig rate bal s, hcfg, ?_⟩
  obtain ⟨hf, halpha, hdlen, hedgeMin, hovfMin⟩ := derivedConstants_formulas v rate
  rw [clearDecoder_k, hk]
  refine ⟨derivedConstants_ref_toNat v rate, hf, halpha, hdlen, hedgeMin, hovfMin, oneBits_eq_fone, resetEdge_dl_getElem,
    rfl, rfl, zero_eq_fzeroPos, zero_eq_fzeroPos, rfl, rfl, rfl, ?snapshot, hevq, hcmdIn, hctr⟩
  case snapshot =>
    rw [clearDecoder_st, resetSnapshot_eq, ← zero_eq_fzeroPos, ← oneBits_eq_fone]
    rfl

/-- Settles O13: `clearDecoder` does not read the configuration, and an illegal one is latched as such. -/
theorem illegalResetUnconfigures : Obligations.IllegalResetUnconfigures := by
  intro v ig rate bal s hillegal
  obtain ⟨hevq, hcmdIn⟩ := reset_frame v rate bal s
  have hcfg := reset_cfg v rate bal s
  rw [legalConfig_eq_false_iff.2 hillegal] at hcfg
  exact ⟨_, exec_reset v ig rate bal s, hcfg, rfl, rfl, rfl, rfl, rfl, resetSnapshot_eq v, hevq, hcmdIn⟩

end Sys2Proof.Machine
end

section
/-! PROOFS. The values of the signal conditioner (41_agc.md R57 to R60): widening a finite sample is exact, the balance 1.0
drops out of the differential sample, which never overflows, and the gain is at most 100. -/

namespace Sys2Proof.Machine

/-! ## The channel values (41_agc.md R57) -/

/-- The magnitude of a finite binary32 value is an integer of 24 bits times a power of two. -/
theorem f32Mag_eq_mul_two_pow (b : F32) : ∃ a j, a ≤ 2 ^ 53 ∧ f32Mag b = a * 2 ^ j := by
  have hfrac : (b.extractLsb 22 0).toNat < 2 ^ 23 := (b.extractLsb 22 0).isLt
  unfold f32Mag
  simp only
  split
  · exact ⟨_, 0, by omega, (Nat.mul_one _).symm⟩
  · exact ⟨_, _, by omega, rfl⟩

/-- Widening is exact: binary64 holds every finite binary32 magnitude. -/
theorem fmag_fwiden {b : F32} (h : f32IsFinite b = true) : fmag (fwiden b) = f32Mag b * 2 ^ 925 := by
  obtain ⟨a, j, ha, hb⟩ := f32Mag_eq_mul_two_pow b
  obtain ⟨m, hm⟩ := exists_unitsOf ha (j + 925)
  have hmag : unitsOf m = f32Mag b * 2 ^ 925 := by rw [hm, hb, pow_add, Nat.mul_assoc]
  have hlow : m ≤ (128 + 1023) * 2 ^ 52 := by
    rw [← unitsOf_le_iff, hmag, unitsOf_two_pow]
    calc f32Mag b * 2 ^ 925 ≤ 2 ^ 24 * 2 ^ 253 * 2 ^ 925 := Nat.mul_le_mul_right _ (f32Mag_le h)
      _ = 2 ^ (128 + 1074) := by rw [← pow_add, ← pow_add]
  have hlt : m < infBits64 := lt_of_le_of_lt hlow (two_pow_low_lt (by norm_num))
  rw [fwiden_of_finite h, roundMag_exact one_pos hlt.le (by rw [hmag, Nat.mul_one]),
    fmag_fpack _ (hlt.trans (by norm_num [infBits64])), hmag]

theorem channelValue_of_finite {b : F32} (h : f32IsFinite b = true) : channelValue b = fwiden b := if_pos h

theorem channelValue_of_not_finite {b : F32} (h : f32IsFinite b = false) : channelValue b = fzeroPos :=
  if_neg (by rw [h]; exact Bool.false_ne_true)

/-- The pattern 0 is +0.0. -/
theorem channelValue_zero : channelValue 0 = fzeroPos := by
  have hmag : f32Mag 0 * 2 ^ 925 = 0 := by rw [show f32Mag 0 = 0 from rfl, Nat.zero_mul]
  rw [channelValue_of_finite (by decide), fwiden_of_finite (by decide), hmag, roundMag_zero one_pos]
  rfl

/-- Settles O20: the magnitude of a finite pattern has at most 24 significant bits, so nothing is rounded. -/
theorem finiteSamplesWidenExactly : Obligations.FiniteSamplesWidenExactly := by
  intro b h
  rw [channelValue_of_finite h]
  refine ⟨(magLe_fwiden h).finite, ?_, fmag_fwiden h⟩
  rw [fwiden_of_finite h, fsign_fpack _ (roundMag_lt _ _)]

/-! ## The differential sample (41_agc.md R58) -/

/-- A value is its sign and its low bits. -/
theorem fpack_fsign_flow (x : F64) : fpack (fsign x) (flow x) = x := by
  have hx := x.isLt
  apply BitVec.eq_of_toNat_eq
  rw [fpack, fsign_eq_decide, flow, BitVec.toNat_ofNat]
  rcases Nat.lt_or_ge x.toNat (2 ^ 63) with h | h
  · rw [decide_eq_false (Nat.not_le.2 h), if_neg Bool.false_ne_true]
    omega
  · rw [decide_eq_true h, if_pos rfl]
    omega

/-- Multiplying by 1.0 is exact. -/
theorem fone_fmul {x : F64} (hx : fIsFinite x = true) : fmul fone x = x := by
  have hround : roundMag (fmag fone * fmag x) unitsPerOne = flow x := by
    refine roundMag_exact unitsPerOne_pos ((fIsFinite_iff x).1 hx).le ?_
    rw [fone, fmag_fofRatio_int (by norm_num), Nat.one_mul, Nat.mul_comm, fmag_eq_unitsOf]
  calc fmul fone x = fpack (fsign fone != fsign x) (flow x) := by rw [fmul_finite magLe_fone.finite hx, hround]
    _ = fpack (fsign x) (flow x) := by rw [fone, fsign_fofRatio, Bool.false_bne]
    _ = x := fpack_fsign_flow x

/-- Settles O22: the balance 1.0 leaves channel 0 as it is. -/
theorem unitBalanceIsPlainDifference : Obligations.UnitBalanceIsPlainDifference := by
  intro c0 c1
  rw [agcInput, agcDiff, fone_fmul (magLe_channelValue c0).finite]

/-- The magnitude of a sum is bounded by every representable bound of the sum of the magnitudes. -/
theorem fmag_fadd_le {x y : F64} {m : Nat} (hx : fIsFinite x = true) (hy : fIsFinite y = true)
    (h : fmag x + fmag y ≤ unitsOf m) : fmag (fadd x y) ≤ unitsOf m := by
  have hsum : (fval x + fval y).natAbs ≤ unitsOf m :=
    calc (fval x + fval y).natAbs ≤ (fval x).natAbs + (fval y).natAbs := Int.natAbs_add_le _ _
      _ = fmag x + fmag y := by rw [natAbs_fval, natAbs_fval]
      _ ≤ unitsOf m := h
  rw [fadd_finite hx hy]
  split
  · rw [← natAbs_fval, fval_fzero]
    exact Nat.zero_le _
  · rw [fmag_fpack _ (roundMag_lt _ _)]
    exact unitsOf_le_iff.2 (roundMag_le one_pos (by rwa [Nat.mul_one]))

theorem fmag_fneg (x : F64) : fmag (fneg x) = fmag x := by rw [fmag_eq_unitsOf, flow_fneg, ← fmag_eq_unitsOf]

theorem fmag_fsub_le {x y : F64} {m : Nat} (hx : fIsFinite x = true) (hy : fIsFinite y = true)
    (h : fmag x + fmag y ≤ unitsOf m) : fmag (fsub x y) ≤ unitsOf m :=
  fmag_fadd_le hx (by rw [fIsFinite_fneg, hy]) (by rw [fmag_fneg]; exact h)

/-- The product is at most `2^256` and the other channel at most `2^128`, so their difference rounds to at most
`3 * 2^255`. -/
theorem fmag_agcInput_le {bal : F64} (hbal : MagLe 128 bal) (c0 c1 : F32) :
    fmag (agcInput bal c0 c1) ≤ 3 * 2 ^ (255 + 1074) := by
  have hproduct : MagLe 256 (fmul bal (channelValue c0)) := magLe_fmul hbal (magLe_channelValue c0) (by norm_num)
  have hother : MagLe 255 (channelValue c1) := (magLe_channelValue c1).mono (by norm_num)
  obtain ⟨m, hm⟩ := exists_unitsOf (a := 3) (by norm_num) (255 + 1074)
  rw [← hm]
  refine fmag_fsub_le hother.finite hproduct.finite ?_
  have hpow : 2 ^ (256 + 1074) = 2 * 2 ^ (255 + 1074) := by rw [← pow_succ', show 256 + 1074 = 255 + 1074 + 1 by omega]
  have hsum := Nat.add_le_add hother.fmag_le hproduct.fmag_le
  rw [hm]
  omega

/-- Settles O23: the difference is finite by `magLe_agcInput`, and `3 * 2^255` is below `2^257`. -/
theorem differentialSampleIsFinite : Obligations.DifferentialSampleIsFinite := by
  intro bal c0 c1 h
  have hbal := magLe_fwiden h
  refine ⟨(magLe_agcInput hbal c0 c1).finite, lt_of_le_of_lt (fmag_agcInput_le hbal c0 c1) ?_⟩
  calc 3 * 2 ^ (255 + 1074) < 2 ^ 2 * 2 ^ (255 + 1074) := Nat.mul_lt_mul_of_pos_right (by norm_num) (by positivity)
    _ = 2 ^ 257 * 2 ^ 1074 := by rw [← pow_add, ← pow_add]

/-! ## The gain (41_agc.md R60) -/

/-- The low bits of the binary64 value nearest to 0.01, which is slightly above it. -/
def lowOfHundredth : Nat := flow (fofRatio 1 100)

/-- The root of EPS is not below the binary64 value nearest to 0.01: both nearest values lie above the decimals. -/
theorem hundredth_sq_le_eps : unitsOf lowOfHundredth * unitsOf lowOfHundredth ≤ fmag eps * unitsPerOne := by decide +kernel

theorem one_le_hundred_mul_hundredth : fmag fone * unitsPerOne ≤ fmag (fofRatio 100 1) * unitsOf lowOfHundredth := by
  decide +kernel

theorem fval_pos_of_eps_le {p : F64} (h : fle eps p) : 0 < fval p := by
  have heps : 0 < fmag eps := lt_of_lt_of_le (by positivity) two_pow_le_fmag_eps
  refine lt_of_lt_of_le ?_ h.2.2
  rw [fval_of_fsign_false fsign_eps]
  exact Int.natCast_pos.2 heps

theorem fmag_eps_le {p : F64} (h : fle eps p) : fmag eps ≤ fmag p := by
  have hval := h.2.2.trans (fval_le_fmag p)
  rw [fval_of_fsign_false fsign_eps] at hval
  exact Int.ofNat_le.1 hval

theorem fmag_fsqrt {p : F64} (hp : fIsFinite p = true) (h0 : 0 < fval p) :
    fmag (fsqrt p) = unitsOf (sqrtMag (fmag p)) := by
  rw [fsqrt_pos hp h0, sqrtMag, fmag_fpack _ (roundMag_lt _ _)]

theorem fsign_fsqrt {p : F64} (hp : fIsFinite p = true) (h0 : 0 < fval p) : fsign (fsqrt p) = false := by
  rw [fsqrt_pos hp h0, sqrtMag, fsign_fpack _ (roundMag_lt _ _)]

/-- The root of a value of at most `2^k` units is at most `2^n`, that is `2^(n + 1074)` units, when the square of `2^n` is
not below the value. -/
theorem sqrtMag_le_two_pow {m k n : Nat} (hm : m ≤ 2 ^ k) (hk : k + 1074 ≤ n + 1074 + (n + 1074)) :
    sqrtMag m ≤ (n + 1023) * 2 ^ 52 := by
  refine sqrtMag_le ?_
  rw [unitsOf_two_pow]
  calc m * unitsPerOne ≤ 2 ^ k * unitsPerOne := Nat.mul_le_mul_right _ hm
    _ = 2 ^ (k + 1074) := (pow_add 2 k 1074).symm
    _ ≤ 2 ^ (n + 1074 + (n + 1074)) := Nat.pow_le_pow_right two_pos hk
    _ = 2 ^ (n + 1074) * 2 ^ (n + 1074) := pow_add 2 (n + 1074) (n + 1074)

/-- The root of every finite positive value is finite: it is far below `2^600`. -/
theorem finite_fsqrt {p : F64} (hp : fIsFinite p = true) (h0 : 0 < fval p) : fIsFinite (fsqrt p) = true := by
  have hmag : fmag p ≤ 2 ^ (52 + 2046) := by
    rw [pow_add, ← unitsOf_infBits64, fmag_eq_unitsOf]
    exact unitsOf_le_iff.2 ((fIsFinite_iff p).1 hp).le
  refine (magLe_of_fmag_le (n := 600) (by norm_num) ?_).finite
  rw [fmag_fsqrt hp h0, ← unitsOf_two_pow]
  exact unitsOf_le_iff.2 (sqrtMag_le_two_pow hmag (by norm_num))

/-- A power of at least EPS has a root of at least 0.01, as binary64 has it. -/
theorem hundredth_le_fmag_fsqrt {p : F64} (hp : fIsFinite p = true) (h : fle eps p) :
    unitsOf lowOfHundredth ≤ fmag (fsqrt p) := by
  rw [fmag_fsqrt hp (fval_pos_of_eps_le h)]
  refine unitsOf_le_iff.2 (le_sqrtMag (by decide +kernel) ?_)
  exact hundredth_sq_le_eps.trans (Nat.mul_le_mul_right _ (fmag_eps_le h))

/-- Settles O25: the root is at least the binary64 value nearest to 0.01, whose reciprocal is below 100. -/
theorem gainAtMostHundred : Obligations.GainAtMostHundred := by
  intro p hp h
  have h0 := fval_pos_of_eps_le h
  have hroot := finite_fsqrt hp h0
  have hge := hundredth_le_fmag_fsqrt hp h
  have hne : fmag (fsqrt p) ≠ 0 := (lt_of_lt_of_le (by decide +kernel) hge).ne'
  have hgain : fmag (agcGain p) ≤ fmag (fofRatio 100 1) :=
    fmag_fdiv_le_fmag magLe_fone.finite hroot hne
      (one_le_hundred_mul_hundredth.trans (Nat.mul_le_mul_left _ hge))
  have hsign : fsign (agcGain p) = false := by
    rw [agcGain, fsign_fdiv magLe_fone.finite hroot hne, fsign_fsqrt hp h0, fone, fsign_fofRatio]
    rfl
  refine ⟨fdiv_not_nan magLe_fone.finite hroot hne, fofRatio_not_nan 100 1, ?_⟩
  rw [fval_of_fsign_false hsign, fval_of_fsign_false (fsign_fofRatio 100 1)]
  exact Int.ofNat_le.2 hgain

end Sys2Proof.Machine
end

section
/-! PROOFS. A SAMPLE as a whole (40_host_commands.md R54): what it reads of its operands, what it writes in the AGC and the
delay line, what it leaves unchanged, and which events it appends. -/

namespace Sys2Proof.Machine

/-! ## The operands -/

theorem exec_sample_configured (c0 c1 : F32) {s : State} (h : s.cfg.configured = true) :
    exec (.sample c0 c1) s = .next (samplePipeline c0 c1 s) := congrArg Host.Outcome.next (if_pos h)

/-- A SAMPLE reads its operands through the channel values only. -/
theorem exec_sample_congr {c0 c1 d0 d1 : F32} (h0 : channelValue c0 = channelValue d0)
    (h1 : channelValue c1 = channelValue d1) (s : State) : exec (.sample c0 c1) s = exec (.sample d0 d1) s := by
  have hinput : agcInput s.cfg.bal c0 c1 = agcInput s.cfg.bal d0 d1 := by rw [agcInput, agcInput, h0, h1]
  have hpipeline : samplePipeline c0 c1 s = samplePipeline d0 d1 s := by
    rw [samplePipeline_eq, samplePipeline_eq, hinput]
  rw [exec, exec, execSample, execSample, hpipeline]

/-- Settles O21: a NaN or an infinity has the channel value of the pattern 0. -/
theorem nonFiniteSamplesReadAsZero : Obligations.NonFiniteSamplesReadAsZero := by
  refine fun c0 c1 s => ⟨fun h => exec_sample_congr ?_ rfl s, fun h => exec_sample_congr rfl ?_ s⟩ <;>
    rw [channelValue_of_not_finite h, channelValue_zero]

/-! ## The EdgeDetector's action -/

/-- `p` is kept by what an edge or an overflow does (42_edge_detector.md R67, R68). Unlike `StagesKeep` it asks nothing of
the delay, the tick and the distortion, which come before and after the action. -/
structure ActionKeeps (p : State → Prop) : Prop where
  chip : ∀ b s, p s → p (chip b s)
  flip : ∀ s, p s → p (edFlip s)
  takeChip : ∀ s, p s → p (edTakeChip s)

theorem ActionKeeps.edAction {p : State → Prop} (h : ActionKeeps p) (d c : F64) {s : State} (hs : p s) :
    p (edAction d c s) := by
  rcases edAction_cases d c s with ⟨-, he⟩ | ⟨-, -, he⟩ | ⟨-, -, he⟩ <;> rw [he]
  · exact h.flip _ (repeatChip_keeps _ (h.chip _) _ s hs)
  · exact h.takeChip _ (h.chip _ s hs)
  · exact hs

/-! ## The delay line -/

/-- The delay line and its cursor are `dl` and `ptr`. -/
abbrev DelayLineIs (dl : Vector F64 4096) (ptr : BitVec 12) (s : State) : Prop := s.edge.dl = dl ∧ s.edge.dlPtr = ptr

theorem delayLineIs_actionKeeps (dl : Vector F64 4096) (ptr : BitVec 12) : ActionKeeps (DelayLineIs dl ptr) where
  chip b s h := by
    rw [DelayLineIs, (chip_effect b s).1.edge]
    exact h
  flip _ h := h
  takeChip _ h := h

/-- An EdgeDetector step writes the delay line by its delay only (42_edge_detector.md R65). -/
theorem edgeStep_delayLine (c : F64) (s : State) :
    DelayLineIs (delayPush s.k.dlen c s.edge).dl (delayPush s.k.dlen c s.edge).dlPtr (edgeStep c s) := by
  have haction := (delayLineIs_actionKeeps _ _).edAction (delayedSample s.edge) c (s := edDelay c s) ⟨rfl, rfl⟩
  rw [edgeStep, DelayLineIs, edDistortion_edge, edTick_edge]
  dsimp only
  exact haction

/-! ## What a SAMPLE leaves unchanged -/

/-- The variant, the registers of the variant not selected and the model's own fields stand in `t` as in `s`. -/
structure SampleFrame (s t : State) : Prop where
  variant : t.cfg.variant = s.cfg.variant
  fast : s.cfg.variant = .std → t.fast = s.fast
  std : s.cfg.variant = .fast → t.std = s.std
  cmdIn : t.cmdIn = s.cmdIn
  freeCtr : t.freeCtr = s.freeCtr

/-- A chip goes to the framer of the variant, which leaves the other framer's registers. -/
theorem SampleFrame.chip {s t : State} (h : SampleFrame s t) (b : Chip) : SampleFrame s (chip b t) := by
  have f := (chip_effect b t).1
  refine ⟨by rw [f.cfg, h.variant], fun hv => ?_, fun hv => ?_, f.cmdIn.trans h.cmdIn, f.freeCtr.trans h.freeCtr⟩
  · rw [chip_of_std (h.variant.trans hv), stdChip_fast, h.fast hv]
  · rw [chip_of_fast (h.variant.trans hv), fastChip_std, h.std hv]

theorem sampleFrame_stagesKeep (s : State) (c : F64) : StagesKeep c (SampleFrame s) where
  delay _ h := ⟨h.variant, h.fast, h.std, h.cmdIn, h.freeCtr⟩
  chip b _ h := h.chip b
  flip _ h := ⟨h.variant, h.fast, h.std, h.cmdIn, h.freeCtr⟩
  takeChip _ h := ⟨h.variant, h.fast, h.std, h.cmdIn, h.freeCtr⟩
  tick _ h := ⟨h.variant, h.fast, h.std, h.cmdIn, h.freeCtr⟩
  distortion _ h := ⟨h.variant, h.fast, h.std, h.cmdIn, h.freeCtr⟩

theorem samplePipeline_frame (c0 c1 : F32) (s : State) : SampleFrame s (samplePipeline c0 c1 s) := by
  rw [samplePipeline_eq]
  exact edgeStep_keeps (sampleFrame_stagesKeep s _) _ ⟨rfl, fun _ => rfl, fun _ => rfl, rfl, rfl⟩

/-- Settles O19: the AGC update and the delay's write stand to the end of the pipeline, and so does the frame. -/
theorem sampleConditionsAndDelays : Obligations.SampleConditionsAndDelays := by
  intro c0 c1 s hc
  obtain ⟨-, hfast, hstd, hcmdIn, hfreeCtr⟩ := samplePipeline_frame c0 c1 s
  have hagc := samplePipeline_agcP c0 c1 s
  have hline := samplePipeline_eq c0 c1 s ▸ edgeStep_delayLine _ (agcUpdate (agcInput s.cfg.bal c0 c1) s)
  rw [agcUpdate_agcP, ← hagc] at hline
  obtain ⟨hdl, hptr⟩ := hline
  exact ⟨_, exec_sample_configured c0 c1 hc, ⟨hagc, hdl⟩, hptr, samplePipeline_cfg c0 c1 s, samplePipeline_k c0 c1 s,
    hfast, hstd, hcmdIn, hfreeCtr⟩

/-! ## The events of a SAMPLE -/

/-- `t` follows `s` with some events, each carrying the power and the noise of `s`, and holds the last of them. -/
structure EventsFollow (s t : State) : Prop where
  agcP : t.agcP = s.agcP
  dist : t.edge.dist = s.edge.dist
  events : ∃ new, t.evq = s.evq ++ new ∧ (∀ x ∈ new, x.power = s.agcP ∧ x.noise = sdNoise s.edge.dist) ∧
    t.st = (s.st :: new).getLast (List.cons_ne_nil _ _)

theorem EventsFollow.refl (s : State) : EventsFollow s s :=
  ⟨rfl, rfl, [], (List.append_nil _).symm, fun _ hx => absurd hx List.not_mem_nil, rfl⟩

/-- A chip appends at most one event, with the present power and noise. -/
theorem EventsFollow.chip {s t : State} (h : EventsFollow s t) (b : Chip) : EventsFollow s (chip b t) := by
  obtain ⟨hagcP, hdist, new, hevq, hnew, hst⟩ := h
  obtain ⟨f, hevents⟩ := chip_effect b t
  refine ⟨f.agcP.trans hagcP, by rw [f.edge, hdist], ?_⟩
  rcases hevents with ⟨hevq', hst'⟩ | ⟨x, hevq', hst', hpower, hnoise⟩
  · exact ⟨new, hevq'.trans hevq, hnew, hst'.trans hst⟩
  · refine ⟨new ++ [x], by rw [hevq', hevq, List.append_assoc], fun y hy => ?_, ?_⟩
    · rcases List.mem_append.1 hy with hy | hy
      · exact hnew y hy
      · rw [List.mem_singleton.1 hy, hpower, hnoise, hagcP, hdist]
        exact ⟨rfl, rfl⟩
    · rw [hst']
      exact (List.getLast_concat (l := s.st :: new)).symm

theorem eventsFollow_actionKeeps (s : State) : ActionKeeps (EventsFollow s) where
  chip b _ h := h.chip b
  flip _ h := ⟨h.agcP, h.dist, h.events⟩
  takeChip _ h := ⟨h.agcP, h.dist, h.events⟩

/-- The distortion is written after the chips, so their events carry the one from before (70_reset_and_hazards.md R131). -/
theorem edgeStep_events (c : F64) (s : State) :
    ∃ new, (edgeStep c s).evq = s.evq ++ new ∧ (∀ x ∈ new, x.power = s.agcP ∧ x.noise = sdNoise s.edge.dist) ∧
      (edgeStep c s).st = (s.st :: new).getLast (List.cons_ne_nil _ _) := by
  rw [edgeStep, edDistortion_evq, edTick_evq, edDistortion_st, edTick_st]
  exact ((eventsFollow_actionKeeps (edDelay c s)).edAction (delayedSample s.edge) c (EventsFollow.refl _)).events

/-- Settles O48: the events of the EdgeDetector step follow the AGC update, and an unconfigured SMDEC appends none. -/
theorem sampleEventsCarryPowerAndOldNoise : Obligations.SampleEventsCarryPowerAndOldNoise := by
  intro c0 c1 s
  rcases hc : s.cfg.configured
  · exact ⟨s, [], sampleIgnoredWhileUnconfigured c0 c1 s hc, (List.append_nil _).symm,
      fun _ hx => absurd hx List.not_mem_nil, rfl⟩
  · obtain ⟨new, hevq, hnew, hst⟩ := edgeStep_events
      (agcCondition (agcUpdate (agcInput s.cfg.bal c0 c1) s).agcP (agcInput s.cfg.bal c0 c1))
      (agcUpdate (agcInput s.cfg.bal c0 c1) s)
    rw [← samplePipeline_eq] at hevq hst
    refine ⟨_, new, exec_sample_configured c0 c1 hc, hevq, fun x hx => ?_, hst⟩
    rw [samplePipeline_agcP]
    exact hnew x hx

end Sys2Proof.Machine
end

section
/-! PROOFS. Rounding preserves order (00_scope.md R6), for quotients of any two denominators; so a sum of binary64 values is
the rounding `roundedUnits` of the exact sum, which is monotone and odd. -/

namespace Sys2Proof.Machine

/-! ## Rounding a quotient -/

theorem div_le_div_of_cross_mul {num den num' den' : Nat} (hd : 0 < den) (hd' : 0 < den')
    (h : num * den' ≤ num' * den) : num / den ≤ num' / den' := by
  refine (Nat.le_div_iff_mul_le hd').2 (Nat.le_of_mul_le_mul_right ?_ hd)
  calc num / den * den' * den = num / den * den * den' := Nat.mul_right_comm _ _ _
    _ ≤ num * den' := Nat.mul_le_mul_right _ (Nat.div_mul_le_self _ _)
    _ ≤ num' * den := h

/-- Of two fractions with the same integer part, the larger is rounded up where the smaller is. -/
theorem roundEven_mono_of_div_eq {num den num' den' : Nat} (hd : 0 < den) (hd' : 0 < den')
    (h : num * den' ≤ num' * den) (hq : num / den = num' / den') : roundEven num den ≤ roundEven num' den' := by
  have hrem : den' * (num % den) ≤ den * (num' % den') := by
    rw [← Nat.div_add_mod num den, ← Nat.div_add_mod num' den', hq] at h
    linarith
  have hup : (den < 2 * (num % den) ∨ 2 * (num % den) = den ∧ num / den % 2 = 1) →
      den' < 2 * (num' % den') ∨ 2 * (num' % den') = den' ∧ num' / den' % 2 = 1 := by
    rintro (hover | ⟨htie, hodd⟩)
    · have hmul : den * den' < 2 * (num % den) * den' := Nat.mul_lt_mul_of_pos_right hover hd'
      have hlt : den * den' < den * (2 * (num' % den')) := by linarith
      exact Or.inl (Nat.lt_of_mul_lt_mul_left hlt)
    · have hmul : 2 * (num % den) * den' = den * den' := by rw [htie]
      have hmul_le : den * den' ≤ den * (2 * (num' % den')) := by linarith
      have hle := Nat.le_of_mul_le_mul_left hmul_le hd
      rcases hle.lt_or_eq with hlt | heq
      · exact Or.inl hlt
      · exact Or.inr ⟨heq.symm, hq ▸ hodd⟩
  unfold roundEven
  simp only
  split
  next hcond => rw [if_pos (hup hcond), hq]
  · split <;> omega

/-- Rounding a quotient to an integer preserves order. -/
theorem roundEven_mono {num den num' den' : Nat} (hd : 0 < den) (hd' : 0 < den') (h : num * den' ≤ num' * den) :
    roundEven num den ≤ roundEven num' den' := by
  rcases (div_le_div_of_cross_mul hd hd' h).eq_or_lt with hq | hq
  · exact roundEven_mono_of_div_eq hd hd' h hq
  · have hceil : num ≤ (num / den + 1) * den := by
      rw [Nat.succ_mul]
      exact (Nat.lt_div_mul_add hd).le
    calc roundEven num den ≤ num / den + 1 := roundEven_le hd hceil
      _ ≤ num' / den' := hq
      _ ≤ roundEven num' den' := le_roundEven hd' (Nat.div_mul_le_self _ _)

/-- Where the larger quotient has the larger exponent, a power of two, or the infinity, separates the two roundings. -/
theorem roundMag_mono_of_exponent_lt {num den num' den' : Nat} (hd : 0 < den) (hd' : 0 < den')
    (hk : Nat.log2 (num / den) - 52 < Nat.log2 (num' / den') - 52) : roundMag num den ≤ roundMag num' den' := by
  obtain ⟨hlt, -⟩ := roundMag_exponent (num / den)
  obtain ⟨-, hge⟩ := roundMag_exponent (num' / den')
  have hge := hge.resolve_left (by omega)
  generalize Nat.log2 (num / den) - 52 = k at hlt hk
  have hpow : unitsOf ((k + 1 + 1) * 2 ^ 52) = 2 ^ (53 + k) := by
    rw [unitsOf_exponent, show 52 + (k + 1) = 53 + k by omega]
  have hbelow : num ≤ unitsOf ((k + 1 + 1) * 2 ^ 52) * den := by
    rw [hpow]
    exact ((Nat.div_lt_iff_lt_mul hd).1 hlt).le
  have habove : unitsOf ((k + 1 + 1) * 2 ^ 52) * den' ≤ num' := by
    rw [hpow]
    exact (Nat.le_div_iff_mul_le hd').1 ((Nat.pow_le_pow_right two_pos (by omega)).trans hge)
  calc roundMag num den ≤ min ((k + 1 + 1) * 2 ^ 52) infBits64 := le_min (roundMag_le hd hbelow) (roundMag_le_inf _ _)
    _ ≤ roundMag num' den' := le_roundMag hd' (min_le_right _ _)
        ((Nat.mul_le_mul_right _ (unitsOf_le_iff.2 (min_le_left _ _))).trans habove)

/-- Rounding a quotient to binary64 preserves order. -/
theorem roundMag_mono {num den num' den' : Nat} (hd : 0 < den) (hd' : 0 < den') (h : num * den' ≤ num' * den) :
    roundMag num den ≤ roundMag num' den' := by
  have hlog : Nat.log2 (num / den) ≤ Nat.log2 (num' / den') := by
    rw [Nat.log2_eq_log_two, Nat.log2_eq_log_two]
    exact Nat.log_mono_right (div_le_div_of_cross_mul hd hd' h)
  rcases (Nat.sub_le_sub_right hlog 52).eq_or_lt with hk | hk
  · unfold roundMag roundFormat
    simp only
    rw [hk]
    refine min_le_min_right _ (Nat.add_le_add_right (roundEven_mono (by positivity) (by positivity) ?_) _)
    rw [← Nat.mul_assoc, ← Nat.mul_assoc]
    exact Nat.mul_le_mul_right _ h
  · exact roundMag_mono_of_exponent_lt hd hd' hk

/-! ## Rounding an exact sum -/

/-- The value of the binary64 encoding that an exact integer of units is rounded to, in units: `fval_fadd` ties it to
`fadd`. -/
def roundedUnits (v : Int) : Int := v.sign * unitsOf (roundMag v.natAbs 1)

theorem roundedUnits_natCast (n : Nat) : roundedUnits n = unitsOf (roundMag n 1) := by
  rcases Nat.eq_zero_or_pos n with rfl | hn
  · rw [roundedUnits, roundMag_zero one_pos, unitsOf_eq_zero.2 rfl]
    rfl
  · rw [roundedUnits, Int.sign_eq_one_of_pos (by omega), Int.natAbs_natCast, Int.one_mul]

theorem roundedUnits_neg (v : Int) : roundedUnits (-v) = -roundedUnits v := by
  rw [roundedUnits, roundedUnits, Int.sign_neg, Int.natAbs_neg, Int.neg_mul]

theorem roundedUnits_natCast_le {m n : Nat} (h : m ≤ n) : roundedUnits m ≤ roundedUnits n := by
  rw [roundedUnits_natCast, roundedUnits_natCast, Nat.cast_le, unitsOf_le_iff]
  exact roundMag_mono one_pos one_pos (by omega)

theorem roundedUnits_natCast_nonneg (n : Nat) : 0 ≤ roundedUnits n := by
  rw [roundedUnits_natCast]
  exact Int.natCast_nonneg _

theorem roundedUnits_mono : Monotone roundedUnits := by
  intro v w h
  rcases Int.eq_nat_or_neg v with ⟨m, rfl | rfl⟩ <;> rcases Int.eq_nat_or_neg w with ⟨n, rfl | rfl⟩
  · exact roundedUnits_natCast_le (Int.ofNat_le.1 h)
  · rw [show m = 0 by omega, show n = 0 by omega]
    rfl
  · rw [roundedUnits_neg]
    exact (neg_nonpos.2 (roundedUnits_natCast_nonneg m)).trans (roundedUnits_natCast_nonneg n)
  · rw [roundedUnits_neg, roundedUnits_neg]
    exact neg_le_neg (roundedUnits_natCast_le (by omega))

/-- A sum of finite values is the exact sum, rounded. -/
theorem fval_fadd {x y : F64} (hx : fIsFinite x = true) (hy : fIsFinite y = true) :
    fval (fadd x y) = roundedUnits (fval x + fval y) := by
  rw [fadd_finite hx hy]
  split
  next h0 =>
    rw [h0, fval_fzero]
    rfl
  next h0 =>
    rw [fval_fpack _ (roundMag_lt _ _), roundedUnits]
    rcases lt_or_gt_of_ne h0 with h | h
    · rw [if_pos (decide_eq_true h), Int.sign_eq_neg_one_of_neg h, Int.neg_one_mul]
    · rw [if_neg (by simpa using h.le), Int.sign_eq_one_of_pos h, Int.one_mul]

theorem fval_fsub {x y : F64} (hx : fIsFinite x = true) (hy : fIsFinite y = true) :
    fval (fsub x y) = roundedUnits (fval x - fval y) := by
  rw [fsub, fval_fadd hx (by rw [fIsFinite_fneg, hy]), fval_fneg, Int.sub_eq_add_neg]

/-- A sum grows with its first operand. -/
theorem fval_fadd_le_fval_fadd {x x' y : F64} (hx : fIsFinite x = true) (hx' : fIsFinite x' = true)
    (hy : fIsFinite y = true) (h : fval x ≤ fval x') : fval (fadd x y) ≤ fval (fadd x' y) := by
  rw [fval_fadd hx hy, fval_fadd hx' hy]
  exact roundedUnits_mono (Int.add_le_add_right h _)

end Sys2Proof.Machine
end

section
/-! PROOFS. The delay line (42_edge_detector.md R65): an entry stands until the cursor comes round to it. -/

namespace Sys2Proof.Machine

theorem delayPush_dlPtr_toNat {dlen : BitVec 12} (h : 0 < dlen.toNat) (c : F64) (e : EdgeRegs) :
    (delayPush dlen c e).dlPtr.toNat = (e.dlPtr.toNat + 1) % dlen.toNat := by
  rw [delayPush_dlPtr, BitVec.toNat_ofNat, Nat.mod_eq_of_lt ((Nat.mod_lt _ h).trans dlen.isLt)]

/-- Entry `i` of the line is `c`, and the cursor stands `j` places after it, counting round the line. -/
structure EntryBehindCursor (dlen : BitVec 12) (i : Nat) (c : F64) (j : Nat) (e : EdgeRegs) : Prop where
  lt : i < dlen.toNat
  cursor : e.dlPtr.toNat = (i + j) % dlen.toNat
  entry : e.dl[i]'(lt.trans dlen.isLt) = c

theorem entryBehindCursor_delayPush {dlen : BitVec 12} {e : EdgeRegs} (h : e.dlPtr.toNat < dlen.toNat) (c : F64) :
    EntryBehindCursor dlen e.dlPtr.toNat c 1 (delayPush dlen c e) where
  lt := h
  cursor := delayPush_dlPtr_toNat (Nat.zero_lt_of_lt h) c e
  entry := Vector.getElem_set_self _

/-- A place from 1 up to the length is not the entry's own. -/
theorem add_mod_ne_self {i j n : Nat} (hi : i < n) (hj : 0 < j) (hjn : j < n) : (i + j) % n ≠ i := by
  rcases Nat.lt_or_ge (i + j) n with h | h
  · rw [Nat.mod_eq_of_lt h]
    omega
  · rw [Nat.mod_eq_sub_mod h, Nat.mod_eq_of_lt (by omega)]
    omega

/-- A later sample is written elsewhere, and moves the cursor one place further from the entry. -/
theorem EntryBehindCursor.delayPush {dlen : BitVec 12} {i j : Nat} {c : F64} {e : EdgeRegs}
    (h : EntryBehindCursor dlen i c j e) (hj : 0 < j) (hjlen : j < dlen.toNat) (x : F64) :
    EntryBehindCursor dlen i c (j + 1) (delayPush dlen x e) where
  lt := h.lt
  cursor := by
    rw [delayPush_dlPtr_toNat (Nat.zero_lt_of_lt h.lt), h.cursor, Nat.mod_add_mod, Nat.add_assoc]
  entry := by
    have hne : e.dlPtr.toNat ≠ i := h.cursor ▸ add_mod_ne_self h.lt hj hjlen
    exact (Vector.getElem_set_ne e.dlPtr.isLt _ hne).trans h.entry

/-- A whole line behind the cursor is the entry the cursor stands at. -/
theorem EntryBehindCursor.delayedSample {dlen : BitVec 12} {i : Nat} {c : F64} {e : EdgeRegs}
    (h : EntryBehindCursor dlen i c dlen.toNat e) : delayedSample e = c := by
  have hcursor : e.dlPtr.toNat = i := by rw [h.cursor, Nat.add_mod_right, Nat.mod_eq_of_lt h.lt]
  unfold Machine.delayedSample
  simp only [hcursor]
  exact h.entry

theorem EntryBehindCursor.delayedSample_foldl {dlen : BitVec 12} {i : Nat} {c : F64} (later : List F64) {j : Nat}
    {e : EdgeRegs} (h : EntryBehindCursor dlen i c j e) (hj : 0 < j) (hlen : later.length + j = dlen.toNat) :
    Machine.delayedSample (later.foldl (fun e x => Machine.delayPush dlen x e) e) = c := by
  induction later generalizing j e with
  | nil =>
    rw [List.length_nil, Nat.zero_add] at hlen
    exact (hlen ▸ h).delayedSample
  | cons x later ih =>
    rw [List.length_cons] at hlen
    exact ih (h.delayPush hj (by omega) x) j.succ_pos (by omega)

/-- Settles O26, by induction on the later samples: each moves the cursor one place on, until it is back. -/
theorem delayLineReturnsOldSample : Obligations.DelayLineReturnsOldSample := by
  intro dlen e c later h hlen
  exact (entryBehindCursor_delayPush h c).delayedSample_foldl later one_pos hlen

end Sys2Proof.Machine
end

section
/-! PROOFS. A SAMPLE by what the edge test and the overflow test find (42_edge_detector.md R64): one equation for an edge,
one for an overflow and one for neither. -/

namespace Sys2Proof.Machine

/-! ## The action, on the state after the AGC update and the delay line's write -/

/-- The conditioned sample of `SAMPLE c0, c1` (41_agc.md R59 to R61). -/
def conditionedSample (c0 c1 : F32) (s : State) : F64 :=
  agcCondition (agcPower s.k.alpha s.agcP (agcInput s.cfg.bal c0 c1)) (agcInput s.cfg.bal c0 c1)

/-- `s` after the AGC update and the delay line's write of `SAMPLE c0, c1`: the state the edge and the overflow test see. -/
def beforeAction (c0 c1 : F32) (s : State) : State :=
  edDelay (conditionedSample c0 c1 s) (agcUpdate (agcInput s.cfg.bal c0 c1) s)

/-- What the edge test of `SAMPLE c0, c1` finds. -/
def edgeFound (c0 c1 : F32) (s : State) : Bool :=
  edTest (delayedSample s.edge) (conditionedSample c0 c1 s) (idealLevel s.edge.lastSgn) s

section
variable (c0 c1 : F32) (s : State)

@[simp] theorem beforeAction_edge :
    (beforeAction c0 c1 s).edge = delayPush s.k.dlen (conditionedSample c0 c1 s) s.edge := rfl
@[simp] theorem beforeAction_k : (beforeAction c0 c1 s).k = s.k := rfl

theorem samplePipeline_eq_action :
    samplePipeline c0 c1 s = edDistortion (conditionedSample c0 c1 s) (edTick
      (edAction (delayedSample s.edge) (conditionedSample c0 c1 s) (beforeAction c0 c1 s))) := rfl

/-- What a SAMPLE can do on a configured SMDEC: an edge, an overflow, or neither (42_edge_detector.md R64). Neither the AGC
update nor the delay's write changes what the two tests read. -/
theorem samplePipeline_cases :
    (edgeFound c0 c1 s = true ∧ samplePipeline c0 c1 s = edDistortion (conditionedSample c0 c1 s) (edTick
        (edFlip (repeatChip (edgeChips s) s.edge.lastSgn (beforeAction c0 c1 s))))) ∨
      (edgeFound c0 c1 s = false ∧ flt s.k.ovfMin s.edge.lvk = true ∧
        samplePipeline c0 c1 s = edDistortion (conditionedSample c0 c1 s) (edTick
          (edTakeChip (chip s.edge.lastSgn (beforeAction c0 c1 s))))) ∨
      (edgeFound c0 c1 s = false ∧ flt s.k.ovfMin s.edge.lvk = false ∧
        samplePipeline c0 c1 s = edDistortion (conditionedSample c0 c1 s) (edTick (beforeAction c0 c1 s))) := by
  rw [samplePipeline_eq_action]
  rcases edAction_cases (delayedSample s.edge) (conditionedSample c0 c1 s) (beforeAction c0 c1 s) with
    ⟨hedge, h⟩ | ⟨hedge, hovf, h⟩ | ⟨hedge, hovf, h⟩ <;> rw [h]
  · exact Or.inl ⟨hedge, rfl⟩
  · exact Or.inr (Or.inl ⟨hedge, hovf, rfl⟩)
  · exact Or.inr (Or.inr ⟨hedge, hovf, rfl⟩)

variable {c0 c1 s}

theorem samplePipeline_of_edge (h : edgeFound c0 c1 s = true) :
    samplePipeline c0 c1 s = edDistortion (conditionedSample c0 c1 s) (edTick
      (edFlip (repeatChip (edgeChips s) s.edge.lastSgn (beforeAction c0 c1 s)))) := by
  simpa only [h, true_and, Bool.true_eq_false, false_and, or_false] using samplePipeline_cases c0 c1 s

theorem samplePipeline_of_overflow (h : edgeFound c0 c1 s = false) (hovf : flt s.k.ovfMin s.edge.lvk = true) :
    samplePipeline c0 c1 s = edDistortion (conditionedSample c0 c1 s) (edTick
      (edTakeChip (chip s.edge.lastSgn (beforeAction c0 c1 s)))) := by
  simpa only [h, hovf, true_and, Bool.true_eq_false, Bool.false_eq_true, false_and, or_false, false_or]
    using samplePipeline_cases c0 c1 s

theorem samplePipeline_of_quiet (h : edgeFound c0 c1 s = false) (hovf : flt s.k.ovfMin s.edge.lvk = false) :
    samplePipeline c0 c1 s = edDistortion (conditionedSample c0 c1 s) (edTick (beforeAction c0 c1 s)) := by
  simpa only [h, hovf, true_and, Bool.false_eq_true, false_and, false_or] using samplePipeline_cases c0 c1 s

end

/-! ## The obligations -/

/-- The tick of an edge's SAMPLE (42_edge_detector.md R69). -/
theorem fadd_fzeroPos_fone : fadd fzeroPos fone = fone := by decide +kernel

/-- Settles O27: no action comes between the delay's write and the tick. -/
theorem quietSampleTouchesOnlyTheSignalPath : Obligations.QuietSampleTouchesOnlyTheSignalPath := by
  intro c0 c1 s hc x p c hedge hovf
  rw [exec_sample_configured c0 c1 hc, samplePipeline_of_quiet hedge hovf]
  rfl

/-- Settles O28: the chips leave the EdgeDetector's registers, so the flip inverts the old `LAST_SGN`. -/
theorem edgeEmitsTheRunAndFlips : Obligations.EdgeEmitsTheRunAndFlips := by
  intro c0 c1 s hc x p c hedge n u
  have hpipeline : samplePipeline c0 c1 s = edDistortion c (edTick (edFlip u)) := samplePipeline_of_edge hedge
  have hchips : u.edge = (beforeAction c0 c1 s).edge := (repeatChip_frame n s.edge.lastSgn (beforeAction c0 c1 s)).edge
  clear_value u
  refine ⟨_, exec_sample_configured c0 c1 hc, ?_⟩
  rw [hpipeline]
  refine ⟨rfl, rfl, rfl, rfl, rfl, ?_, ?_⟩
  · rw [edDistortion_edge, edTick_edge, edFlip_edge, hchips, beforeAction_edge, delayPush_lastSgn]
  · rw [edDistortion_edge, edTick_edge, edFlip_edge, fadd_fzeroPos_fone]

/-- Settles O29: the chip leaves `LAST_SGN` and `LVK`, so the chip width comes off the old `LVK`. -/
theorem overflowEmitsOneChip : Obligations.OverflowEmitsOneChip := by
  intro c0 c1 s hc x p c hedge hovf u
  have hpipeline : samplePipeline c0 c1 s = edDistortion c (edTick (edTakeChip u)) :=
    samplePipeline_of_overflow hedge hovf
  have hchip : ChipFrame (beforeAction c0 c1 s) u := (chip_effect s.edge.lastSgn (beforeAction c0 c1 s)).1
  clear_value u
  refine ⟨_, exec_sample_configured c0 c1 hc, ?_⟩
  rw [hpipeline]
  refine ⟨rfl, rfl, rfl, rfl, rfl, ?_, ?_⟩
  · rw [edDistortion_edge, edTick_edge, edTakeChip_edge, hchip.edge, beforeAction_edge, delayPush_lastSgn]
  · rw [edDistortion_edge, edTick_edge, edTakeChip_edge, hchip.edge, hchip.k, beforeAction_edge, beforeAction_k,
      delayPush_lvk]

section
variable (alpha dist c : F64) (sgn : Bool) {run : Nat}

theorem distAfter_track (h : run < distTrackRun) :
    distAfter alpha dist c sgn run =
      fadd dist (fmul (fsub (fmul (fsub c (idealLevel sgn)) (fsub c (idealLevel sgn))) dist) alpha) := by
  rw [distAfter, if_pos h]

theorem distAfter_hold (hlo : distTrackRun ≤ run) (hhi : run ≤ distPinRun) : distAfter alpha dist c sgn run = dist := by
  rw [distAfter, if_neg (Nat.not_lt.2 hlo), if_neg (Nat.not_lt.2 hhi)]

theorem distAfter_pin (h : distPinRun < run) : distAfter alpha dist c sgn run = fone := by
  rw [distAfter, if_neg (Nat.not_lt.2 ((show distTrackRun ≤ distPinRun by decide).trans h.le)), if_pos h]

end

/-- The distortion comes last: it reads the run and the polarity that stand in its result. -/
theorem edDistortion_edTick_dist (c : F64) (t : State) :
    (edDistortion c (edTick t)).edge.dist = distAfter t.k.alpha t.edge.dist c
      (edDistortion c (edTick t)).edge.lastSgn (edDistortion c (edTick t)).fr.run.toNat := rfl

/-- The action leaves `DIST` and `K_ALPHA`, so the distortion starts from the old ones. -/
theorem samplePipeline_dist (c0 c1 : F32) (s : State) :
    (samplePipeline c0 c1 s).edge.dist = distAfter s.k.alpha s.edge.dist (conditionedSample c0 c1 s)
      (samplePipeline c0 c1 s).edge.lastSgn (samplePipeline c0 c1 s).fr.run.toNat := by
  have hk := samplePipeline_k c0 c1 s
  have hdist := ((eventsFollow_actionKeeps (beforeAction c0 c1 s)).edAction (delayedSample s.edge)
    (conditionedSample c0 c1 s) (EventsFollow.refl _)).dist
  rw [samplePipeline_eq_action, edDistortion_k, edTick_k] at hk
  rw [samplePipeline_eq_action, edDistortion_edTick_dist, hk, hdist, beforeAction_edge, delayPush_dist]

theorem samplePipeline_dl (c0 c1 : F32) (s : State) :
    (samplePipeline c0 c1 s).edge.dl =
      s.edge.dl.set s.edge.dlPtr.toNat (conditionedSample c0 c1 s) s.edge.dlPtr.isLt := by
  rw [samplePipeline_eq]
  exact (edgeStep_delayLine _ _).1

/-- Settles O31: `DL` holds the conditioned sample at the old cursor, and the three ranges are those of `distAfter`. -/
theorem distortionFollowsTheRun : Obligations.DistortionFollowsTheRun := by
  intro c0 c1 s hc
  refine ⟨_, exec_sample_configured c0 c1 hc, ?_⟩
  have hdl := samplePipeline_dl c0 c1 s
  have hdist := samplePipeline_dist c0 c1 s
  generalize samplePipeline c0 c1 s = t at hdl hdist
  simp only [hdl, hdist, Vector.getElem_set_self]
  exact ⟨distAfter_track _ _ _ _, distAfter_hold _ _ _ _, distAfter_pin _ _ _ _⟩

end Sys2Proof.Machine
end

section
/-! PROOFS. Edge condition A (42_edge_detector.md R66): its product is the rounding of the exact move away from the level, and
a move of at most seven tenths is not rounded above the threshold, the value seven tenths is itself rounded to. -/

namespace Sys2Proof.Machine

theorem fmag_fone : fmag fone = unitsPerOne := by rw [fone, fmag_fofRatio_int (by norm_num), Nat.one_mul]

theorem fval_fone : fval fone = unitsPerOne :=
  (fval_of_fsign_false (fsign_fofRatio 1 1)).trans (congrArg Nat.cast fmag_fone)

theorem fmag_idealLevel (sgn : Bool) : fmag (idealLevel sgn) = unitsPerOne := by
  cases sgn
  · exact (fmag_fneg fone).trans fmag_fone
  · exact fmag_fone

theorem fsign_idealLevel (sgn : Bool) : fsign (idealLevel sgn) = !sgn := by
  cases sgn
  · exact (fsign_fneg fone).trans (congrArg not (fsign_fofRatio 1 1))
  · exact fsign_fofRatio 1 1

/-- Multiplying by an ideal level changes the sign at most, of an infinity too. -/
theorem fmul_idealLevel {y : F64} (hy : fIsNaN y = false) (sgn : Bool) :
    fmul y (idealLevel sgn) = fpack (fsign y != !sgn) (flow y) := by
  have hlevel := (magLe_idealLevel sgn).finite
  rcases hinf : fIsInf y
  · have hfinite : fIsFinite y = true := by
      rw [Bool.eq_false_iff, ne_eq, fIsNaN_iff] at hy
      rw [Bool.eq_false_iff, ne_eq, fIsInf_iff] at hinf
      rw [fIsFinite_iff]
      omega
    rw [fmul_finite hfinite hlevel, fsign_idealLevel, fmag_idealLevel,
      roundMag_exact unitsPerOne_pos ((fIsFinite_iff y).1 hfinite).le (by rw [fmag_eq_unitsOf])]
  · have hlow := (fIsInf_iff y).1 hinf
    have hy0 : fmag y ≠ 0 := by
      rw [fmag_eq_unitsOf, hlow, ne_eq, unitsOf_eq_zero]
      norm_num [infBits64]
    have hlevel0 : fmag (idealLevel sgn) ≠ 0 := by
      rw [fmag_idealLevel]
      exact unitsPerOne_pos.ne'
    simp [fmul, hy, not_nan_of_finite hlevel, hinf, hy0, hlevel0, fsign_idealLevel, finf, hlow]

theorem fval_fmul_idealLevel {y : F64} (hy : fIsNaN y = false) (sgn : Bool) :
    fval (fmul y (idealLevel sgn)) = if sgn then fval y else -fval y := by
  rw [fmul_idealLevel hy, fval_fpack _ (flow_lt y), fval, fmag_eq_unitsOf]
  cases sgn <;> cases fsign y <;> simp

/-- How far the signal has moved over the delay away from the level of the polarity `sgn`, exactly, in units. -/
def moveAway (sgn : Bool) (d c : F64) : Int := if sgn then fval d - fval c else fval c - fval d

theorem fval_edTestA_product (sgn : Bool) {d c : F64} (hd : fIsFinite d = true) (hc : fIsFinite c = true) :
    fval (fmul (fsub d c) (idealLevel sgn)) = roundedUnits (moveAway sgn d c) := by
  rw [fval_fmul_idealLevel (fsub_not_nan hd hc), fval_fsub hd hc]
  cases sgn
  · rw [if_neg Bool.false_ne_true, ← roundedUnits_neg, moveAway, if_neg Bool.false_ne_true, Int.neg_sub]
  · rw [if_pos rfl, moveAway, if_pos rfl]

/-- An exact sum of at most `n / d` is not rounded above the binary64 value nearest to `n / d`. -/
theorem roundedUnits_le_fofRatio {v : Int} {n d : Nat} (hd : 0 < d) (h : d * v ≤ n * unitsPerOne) :
    roundedUnits v ≤ fval (fofRatio n d) := by
  rw [fval_of_fsign_false (fsign_fofRatio n d), fofRatio, fmag_fpack _ (roundMag_lt _ _)]
  rcases le_total v 0 with hv | hv
  · exact (roundedUnits_mono hv).trans (Int.natCast_nonneg _)
  · obtain ⟨m, rfl⟩ := Int.eq_ofNat_of_zero_le hv
    rw [roundedUnits_natCast, Nat.cast_le, unitsOf_le_iff]
    refine roundMag_mono one_pos hd ?_
    rw [Nat.mul_one, Nat.mul_comm]
    exact_mod_cast h

theorem unitsPerOne_cast : (unitsPerOne : Int) = 2 ^ 1074 := Nat.cast_pow 2 1074

/-- Settles O30: were the move at most seven tenths, its rounding would not exceed the threshold. -/
theorem edgeNeedsAMoveAwayFromTheLevel : Obligations.EdgeNeedsAMoveAwayFromTheLevel := by
  intro d c s hd hc hedge
  have htest : edTestA d c (idealLevel s.edge.lastSgn) = true := by
    simp only [edTest, Bool.and_eq_true] at hedge
    exact hedge.1.1
  obtain ⟨-, -, hlt⟩ := flt_iff.1 htest
  rw [fval_edTestA_product _ hd hc] at hlt
  have hmove : 7 * (unitsPerOne : Int) < 10 * moveAway s.edge.lastSgn d c := by
    by_contra hle
    exact absurd (roundedUnits_le_fofRatio (n := 7) (d := 10) (by norm_num) (not_lt.1 hle)) (not_le.2 hlt)
  rw [moveAway, unitsPerOne_cast] at hmove
  split at hmove
  next hsgn => rwa [if_pos hsgn]
  next hsgn => rwa [if_neg hsgn]

end Sys2Proof.Machine
end

section
/-! PROOFS. The range of `LVK` (42_edge_detector.md R70, 10_state.md R18). Before the tick it lies in [0, `K_OVF_MIN`], since
an overflow takes a chip width off a run of two to three; the tick adds 1.0, and rounding preserves order. `ChipWidthOk` holds
what this needs of the derived constants; the count of an edge's chips (R67) follows from it too. -/

namespace Sys2Proof.Machine

theorem fle_trans {x y z : F64} (h : fle x y) (g : fle y z) : fle x z := ⟨h.1, g.2.1, h.2.2.trans g.2.2⟩

/-! ## The derived constants -/

/-- What the range of `LVK` needs of the derived constants: `K_F` is at least 1.0, `K_OVF_MIN` is two chip widths,
`K_OVF_MIN + 1`, as rounded, is at most three, and `K_EDGE_MIN` is at least half of one. -/
structure ChipWidthOk (k : DerivedRegs) : Prop where
  finite_f : fIsFinite k.f = true
  finite_ovfMin : fIsFinite k.ovfMin = true
  finite_limit : fIsFinite (fadd k.ovfMin fone) = true
  one_le : fval fone ≤ fval k.f
  ovfMin_eq : fval k.ovfMin = 2 * fval k.f
  limit_le : fval (fadd k.ovfMin fone) ≤ 3 * fval k.f
  le_edgeMin : fval k.f ≤ 2 * fval k.edgeMin

theorem unitsPerOne_eq_mul : unitsPerOne = 8192 * 2 ^ 1061 := by
  rw [unitsPerOne, show (8192 : Nat) = 2 ^ 13 by norm_num, ← pow_add]

theorem two_pow_le_unitsPerOne {n : Nat} (h : n ≤ 1074) : 2 ^ n ≤ unitsPerOne := by
  unfold unitsPerOne
  gcongr
  norm_num

theorem two_pow_add_1074 (n : Nat) : 2 ^ (n + 1074) = 2 ^ n * unitsPerOne := pow_add 2 n 1074

/-- A value of at least `2^53` units has a binary64 half: only the exponent changes. -/
theorem exists_half {x : F64} (hx : fIsFinite x = true) (h : 2 ^ 53 ≤ fmag x) :
    ∃ m, m ≤ infBits64 ∧ fmag x = 2 * unitsOf m := by
  have hlow : 2 ^ 53 ≤ flow x := by
    rw [← unitsOf_le_iff, unitsOf_small le_rfl, ← fmag_eq_unitsOf]
    exact h
  have hhigh := (fIsFinite_iff x).1 hx
  refine ⟨flow x - 2 ^ 52, by omega, ?_⟩
  rw [← unitsOf_double, if_neg (by omega), Nat.sub_add_cancel (by omega), fmag_eq_unitsOf]

/-- The binary64 value 8193/8192. -/
theorem exists_unitsOf_8193 : ∃ m, m ≤ infBits64 ∧ unitsOf m = 8193 * 2 ^ 1061 := by
  obtain ⟨m, hm⟩ := exists_unitsOf (a := 8193) (by norm_num) 1061
  obtain ⟨two, htwo_lt, htwo⟩ := exists_unitsOf_int (n := 2) (by norm_num)
  have hle : m ≤ two := by
    rw [← unitsOf_le_iff, hm, htwo, unitsPerOne_eq_mul]
    omega
  exact ⟨m, hle.trans htwo_lt.le, hm⟩

theorem half_le_edgeMinFactor : unitsPerOne ≤ 2 * fmag edgeMinFactor := by decide +kernel

theorem finite_edgeMinFactor : fIsFinite edgeMinFactor = true := by decide +kernel

section
variable (v : Variant) {rate : BitVec 24} (hr : 8000 ≤ rate.toNat)
include hr

/-- `K_F` is 1.0, at the rate 8000 of FAST, or at least 8193/8192: the least rate above it has `K_F = 8001/8000`. -/
theorem fmag_sampleRateFactor_eq_or_ge :
    fmag (sampleRateFactor v rate) = unitsPerOne ∨ 8193 * 2 ^ 1061 ≤ fmag (sampleRateFactor v rate) := by
  obtain ⟨hlo, hhi⟩ := refRate_bounds v
  have hr53 : rate.toNat ≤ 2 ^ 53 := rate.isLt.le.trans (by norm_num)
  have hv53 : refRate v ≤ 2 ^ 53 := hhi.trans (by norm_num)
  have hx := finite_fofRatio_int hr53
  have hy := finite_fofRatio_int hv53
  have h0 := fmag_fofRatio_int_ne_zero (by omega) hv53
  by_cases heq : rate.toNat = refRate v
  · refine Or.inl (le_antisymm ?_ (fmag_sampleRateFactor_bounds v hr).1)
    rw [← fmag_fone]
    refine fmag_fdiv_le_fmag hx hy h0 ?_
    rw [heq, fmag_fone, Nat.mul_comm]
  · obtain ⟨m, hm_le, hm⟩ := exists_unitsOf_8193
    have hratio : 8193 * refRate v ≤ 8192 * rate.toNat := by omega
    refine Or.inr (hm ▸ le_fmag_fdiv hx hy h0 hm_le ?_)
    rw [hm, fmag_fofRatio_int hr53, fmag_fofRatio_int hv53, unitsPerOne_eq_mul]
    generalize 2 ^ 1061 = q
    calc 8193 * q * (refRate v * (8192 * q)) = 8193 * refRate v * (q * (8192 * q)) := by ring
      _ ≤ 8192 * rate.toNat * (q * (8192 * q)) := Nat.mul_le_mul_right _ hratio
      _ = rate.toNat * (8192 * q) * (8192 * q) := by ring

/-- Two chip widths and 1.0 round to at most three chip widths: to 3.0 where `K_F` is 1.0, and elsewhere the third width
exceeds 1.0 by more than the rounding. -/
theorem unitsOf_roundMag_limit_le :
    unitsOf (roundMag (2 * fmag (sampleRateFactor v rate) + unitsPerOne) 1) ≤ 3 * fmag (sampleRateFactor v rate) := by
  rcases fmag_sampleRateFactor_eq_or_ge v hr with hone | hge
  · obtain ⟨m, -, hm⟩ := exists_unitsOf_int (n := 3) (by norm_num)
    rw [hone, ← hm]
    refine unitsOf_le_iff.2 (roundMag_le one_pos ?_)
    rw [hm]
    omega
  · have hnormal : 2 ^ 52 * 1 ≤ 2 * fmag (sampleRateFactor v rate) + unitsPerOne :=
      (two_pow_le_unitsPerOne (n := 52) (by norm_num)).trans (Nat.le_add_left _ _)
    have herror := unitsOf_roundMag_le one_pos hnormal
    rw [unitsPerOne_eq_mul] at herror ⊢
    generalize 2 ^ 1061 = q at *
    omega

/-- The factor of `K_EDGE_MIN` is above one half. -/
theorem fval_sampleRateFactor_le_edgeMin :
    fval (sampleRateFactor v rate) ≤ 2 * fval (fmul (sampleRateFactor v rate) edgeMinFactor) := by
  have hf := finite_sampleRateFactor v hr
  have hsign := fsign_sampleRateFactor v rate
  obtain ⟨m, hm, hhalf⟩ := exists_half hf
    ((two_pow_le_unitsPerOne (by norm_num)).trans (fmag_sampleRateFactor_bounds v hr).1)
  have hle : unitsOf m ≤ fmag (fmul (sampleRateFactor v rate) edgeMinFactor) := by
    refine le_fmag_fmul hf finite_edgeMinFactor hm ?_
    calc unitsOf m * unitsPerOne ≤ unitsOf m * (2 * fmag edgeMinFactor) := Nat.mul_le_mul_left _ half_le_edgeMinFactor
      _ = fmag (sampleRateFactor v rate) * fmag edgeMinFactor := by rw [hhalf]; ring
  rw [fval_of_fsign_false hsign,
    fval_of_fsign_false (by rw [fsign_fmul hf finite_edgeMinFactor, hsign, edgeMinFactor, fsign_fofRatio]; rfl)]
  omega

/-- `K_OVF_MIN` is far below overflow. -/
theorem magLe_ovfMin : MagLe 15 (derivedConstants v rate).ovfMin := by
  have hle := (fmag_sampleRateFactor_bounds v hr).2
  have hovf := overflowLimitIsExactlyTwoChips v rate hr
  rw [derivedConstants_f, fval_of_fsign_false (fsign_sampleRateFactor v rate)] at hovf
  refine magLe_of_fmag_le (by norm_num) ?_
  rw [← natAbs_fval, hovf, two_pow_add_1074]
  omega

theorem fval_limit_le : fval (fadd (derivedConstants v rate).ovfMin fone) ≤ 3 * fval (sampleRateFactor v rate) := by
  have hovf := overflowLimitIsExactlyTwoChips v rate hr
  have hcast : (2 * fmag (sampleRateFactor v rate) + unitsPerOne : Int) =
      ((2 * fmag (sampleRateFactor v rate) + unitsPerOne : Nat) : Int) := by
    rw [Nat.cast_add, Nat.cast_mul, Nat.cast_ofNat]
  rw [derivedConstants_f, fval_of_fsign_false (fsign_sampleRateFactor v rate)] at hovf
  rw [fval_fadd (magLe_ovfMin v hr).finite magLe_fone.finite, hovf, fval_fone, hcast, roundedUnits_natCast,
    fval_of_fsign_false (fsign_sampleRateFactor v rate)]
  exact_mod_cast unitsOf_roundMag_limit_le v hr

theorem chipWidthOk_derivedConstants : ChipWidthOk (derivedConstants v rate) where
  finite_f := derivedConstants_f v rate ▸ finite_sampleRateFactor v hr
  finite_ovfMin := (magLe_ovfMin v hr).finite
  finite_limit := (magLe_fadd (magLe_ovfMin v hr) (magLe_fone.mono (by norm_num)) (by norm_num)).finite
  one_le := derivedConstants_f v rate ▸ (fone_le_sampleRateFactor v hr).2.2
  ovfMin_eq := overflowLimitIsExactlyTwoChips v rate hr
  limit_le := derivedConstants_f v rate ▸ fval_limit_le v hr
  le_edgeMin := by
    rw [derivedConstants_f, derivedConstants_edgeMin]
    exact fval_sampleRateFactor_le_edgeMin v hr

end

theorem chipWidthOk_of_configOk {s : State} (hc : s.cfg.configured = true) (h : ConfigOk s) : ChipWidthOk s.k := by
  obtain ⟨bal, hlegal, -, hk⟩ := h hc
  rw [hk]
  exact chipWidthOk_derivedConstants _ (rate_ge_of_legalConfig hlegal)

/-! ## The tick -/

/-- The range of `LVK` between an EdgeDetector step's action and its tick. -/
def LvkBeforeTick (k : DerivedRegs) (x : F64) : Prop := 0 ≤ fval x ∧ fval x ≤ fval k.ovfMin

section
variable {k : DerivedRegs} (hk : ChipWidthOk k) {x : F64}
include hk

theorem ChipWidthOk.f_pos : 0 < fval k.f := by
  have hone : 0 < fval fone := by
    rw [fval_fone]
    exact_mod_cast unitsPerOne_pos
  exact hone.trans_le hk.one_le

theorem finite_of_lvkRange (h0 : fle fzeroPos x) (h : fle x (fadd k.ovfMin fone)) : fIsFinite x = true :=
  finite_of_fval_between magLe_fzeroPos.finite hk.finite_limit h0.2.2 h.2.2

/-- The tick brings `LVK` into [1, `K_OVF_MIN + 1`] (42_edge_detector.md R69, R70). -/
theorem LvkBeforeTick.tick (h : LvkBeforeTick k x) :
    fle fone (fadd x fone) ∧ fle (fadd x fone) (fadd k.ovfMin fone) := by
  obtain ⟨h0, hle⟩ := h
  have hone := magLe_fone.finite
  have hx : fIsFinite x = true :=
    finite_of_fval_between magLe_fzeroPos.finite hk.finite_ovfMin (by rw [fval_fzeroPos]; exact h0) hle
  have hsum := fadd_not_nan hx hone
  exact ⟨⟨not_nan_of_finite hone, hsum, le_fadd hx hone (not_nan_of_finite hone) (by omega)⟩,
    ⟨hsum, not_nan_of_finite hk.finite_limit, fval_fadd_le_fval_fadd hx hk.finite_ovfMin hone hle⟩⟩

/-- An edge clears `LVK` (42_edge_detector.md R67). -/
theorem lvkBeforeTick_edge : LvkBeforeTick k fzeroPos := by
  have hpos := hk.f_pos
  rw [LvkBeforeTick, fval_fzeroPos, hk.ovfMin_eq]
  omega

/-- An overflow takes one chip width off more than two and at most three (42_edge_detector.md R68). -/
theorem lvkBeforeTick_overflow (h0 : fle fzeroPos x) (h : fle x (fadd k.ovfMin fone))
    (hovf : flt k.ovfMin x = true) : LvkBeforeTick k (fsub x k.f) := by
  obtain ⟨-, -, hlt⟩ := flt_iff.1 hovf
  have hx := finite_of_lvkRange hk h0 h
  have hpos := hk.f_pos
  have hovfMin := hk.ovfMin_eq
  have hthree := h.2.2.trans hk.limit_le
  constructor
  · rw [← fval_fzeroPos]
    exact le_fsub hx hk.finite_f (not_nan_fzero false) (by rw [fval_fzeroPos]; omega)
  · exact fsub_le hx hk.finite_f (not_nan_of_finite hk.finite_ovfMin) (by omega)

/-- Without an overflow `LVK` is at most `K_OVF_MIN`. -/
theorem lvkBeforeTick_quiet (h0 : fle fzeroPos x) (hovf : flt k.ovfMin x = false) : LvkBeforeTick k x := by
  obtain ⟨-, hnan, hle⟩ := h0
  refine ⟨fval_fzeroPos ▸ hle, not_lt.1 fun hlt => ?_⟩
  rw [flt_iff.2 ⟨not_nan_of_finite hk.finite_ovfMin, hnan, hlt⟩] at hovf
  exact absurd hovf (by decide)

end

/-- Whatever the action, the tick adds 1.0 to an `LVK` of at most `K_OVF_MIN`. -/
theorem samplePipeline_lvk {s : State} (hk : ChipWidthOk s.k) (h0 : fle fzeroPos s.edge.lvk)
    (h : fle s.edge.lvk (fadd s.k.ovfMin fone)) (c0 c1 : F32) :
    ∃ x, (samplePipeline c0 c1 s).edge.lvk = fadd x fone ∧ LvkBeforeTick s.k x := by
  rcases samplePipeline_cases c0 c1 s with ⟨-, he⟩ | ⟨-, hovf, he⟩ | ⟨-, hovf, he⟩ <;>
    rw [he, edDistortion_edge, edTick_edge]
  · exact ⟨fzeroPos, by rw [edFlip_edge], lvkBeforeTick_edge hk⟩
  · have hchip := (chip_effect s.edge.lastSgn (beforeAction c0 c1 s)).1
    refine ⟨fsub s.edge.lvk s.k.f, ?_, lvkBeforeTick_overflow hk h0 h hovf⟩
    rw [edTakeChip_edge, hchip.edge, hchip.k, beforeAction_edge, beforeAction_k, delayPush_lvk]
  · exact ⟨s.edge.lvk, by rw [beforeAction_edge, delayPush_lvk], lvkBeforeTick_quiet hk h0 hovf⟩

theorem samplePipeline_lvk_bounds {s : State} (hc : s.cfg.configured = true) (hconfig : ConfigOk s) (hlvk : LvkOk s)
    (c0 c1 : F32) :
    fle fone (samplePipeline c0 c1 s).edge.lvk ∧
      fle (samplePipeline c0 c1 s).edge.lvk (fadd (samplePipeline c0 c1 s).k.ovfMin fone) := by
  have hk := chipWidthOk_of_configOk hc hconfig
  obtain ⟨h0, hle⟩ := hlvk hc
  obtain ⟨x, hx, hrange⟩ := samplePipeline_lvk hk h0 hle c0 c1
  rw [hx, samplePipeline_k]
  exact hrange.tick hk

/-! ## The count of an edge's chips -/

/-- `round` of a quotient from one half to three is 1, 2 or 3. -/
theorem fround_bounds {x : F64} (hx : fIsFinite x = true) (hlo : (unitsPerOne : Int) ≤ 2 * fval x)
    (hhi : fval x ≤ 3 * unitsPerOne) : 1 ≤ (fround x).toNat ∧ (fround x).toNat ≤ 3 := by
  have hpos : (0 : Int) < unitsPerOne := by exact_mod_cast unitsPerOne_pos
  have hround : fround x = (2 * fval x + unitsPerOne) / (2 * unitsPerOne) := if_pos hx
  have hge : 1 ≤ fround x := by
    rw [hround, Int.le_ediv_iff_mul_le (by omega)]
    omega
  have hle : fround x < 4 := by
    rw [hround, Int.ediv_lt_iff_lt_mul (by omega)]
    omega
  omega

theorem fsign_of_fval_pos {x : F64} (h : 0 < fval x) : fsign x = false := by
  rw [fval] at h
  split at h
  · omega
  next hsign => exact Bool.eq_false_iff.2 hsign

section
variable {x y : F64} (hx : fIsFinite x = true) (hy : fIsFinite y = true) (h0 : fmag y ≠ 0)
include hx hy h0

theorem fmag_fdiv_le_three (h : fmag x ≤ 3 * fmag y) : fmag (fdiv x y) ≤ fmag (fofRatio 3 1) := by
  refine fmag_fdiv_le_fmag hx hy h0 ?_
  rw [fmag_fofRatio_int (by norm_num), Nat.mul_right_comm]
  exact Nat.mul_le_mul_right _ h

theorem half_le_fmag_fdiv (h : fmag y ≤ 2 * fmag x) : unitsPerOne ≤ 2 * fmag (fdiv x y) := by
  obtain ⟨m, hm, hhalf⟩ := exists_half magLe_fone.finite (fmag_fone ▸ two_pow_le_unitsPerOne (by norm_num))
  rw [fmag_fone] at hhalf
  have hle : unitsOf m ≤ fmag (fdiv x y) := by
    refine le_fmag_fdiv hx hy h0 hm ?_
    calc unitsOf m * fmag y ≤ unitsOf m * (2 * fmag x) := Nat.mul_le_mul_left _ h
      _ = fmag x * unitsPerOne := by rw [hhalf]; ring
  omega

end

/-- A run of half a chip width to three, divided by the width and rounded, lies from one half to three. -/
theorem fdiv_bounds {x y : F64} (hx : fIsFinite x = true) (hy : fIsFinite y = true) (hpos : 0 < fval y)
    (hlo : fval y ≤ 2 * fval x) (hhi : fval x ≤ 3 * fval y) :
    fIsFinite (fdiv x y) = true ∧ (unitsPerOne : Int) ≤ 2 * fval (fdiv x y) ∧ fval (fdiv x y) ≤ 3 * unitsPerOne := by
  have hsy := fsign_of_fval_pos hpos
  have hsx : fsign x = false := fsign_of_fval_pos (by omega)
  rw [fval_of_fsign_false hsy] at hpos hlo hhi
  rw [fval_of_fsign_false hsx] at hlo hhi
  have h0 : fmag y ≠ 0 := by omega
  have hge := half_le_fmag_fdiv hx hy h0 (by omega)
  have hle := fmag_fdiv_le_three hx hy h0 (by omega)
  have hfinite := finite_of_fmag_le (finite_fofRatio_int (by norm_num)) hle
  rw [fmag_fofRatio_int (by norm_num)] at hle
  rw [fval_of_fsign_false (by rw [fsign_fdiv hx hy h0, hsx, hsy]; rfl)]
  exact ⟨hfinite, by omega, by omega⟩

/-! ## The obligations -/

/-- Settles O33: a run above `K_EDGE_MIN` is more than half a chip width long and at most three. -/
theorem edgeEmitsOneToThreeChips : Obligations.EdgeEmitsOneToThreeChips := by
  intro s hc hconfig hlvk hedge
  have hk := chipWidthOk_of_configOk hc hconfig
  obtain ⟨h0, hle⟩ := hlvk hc
  obtain ⟨-, -, hlt⟩ := flt_iff.1 hedge
  have hmin := hk.le_edgeMin
  obtain ⟨hfinite, hlo, hhi⟩ := fdiv_bounds (finite_of_lvkRange hk h0 hle) hk.finite_f hk.f_pos
    (by omega) (hle.2.2.trans hk.limit_le)
  exact fround_bounds hfinite hlo hhi

/-- Settles O56: whatever the action, `LVK` is in [0, `K_OVF_MIN`] before the tick. -/
theorem lvkAtLeastOneAfterSample : Obligations.LvkAtLeastOneAfterSample := by
  intro c0 c1 s hc hconfig hlvk
  exact ⟨_, exec_sample_configured c0 c1 hc, samplePipeline_lvk_bounds hc hconfig hlvk c0 c1⟩

/-- `ConfigOk` and `LvkOk` after a SAMPLE: `LvkOk`'s lower bound is below the 1.0 that a SAMPLE leaves. -/
theorem samplePipeline_lvkOk (c0 c1 : F32) {s : State} (hc : s.cfg.configured = true) (h : ConfigOk s ∧ LvkOk s) :
    ConfigOk (samplePipeline c0 c1 s) ∧ LvkOk (samplePipeline c0 c1 s) := by
  obtain ⟨hconfig, hlvk⟩ := h
  obtain ⟨hlo, hhi⟩ := samplePipeline_lvk_bounds hc hconfig hlvk c0 c1
  refine ⟨?_, fun _ => ⟨fle_trans fone_inSmoothRange.1 hlo, hhi⟩⟩
  rw [ConfigOk, samplePipeline_cfg, samplePipeline_k]
  exact hconfig

/-- A RESET clears `LVK`. -/
theorem reset_lvkOk (v : Variant) (rate : BitVec 24) (bal : F32) (s : State) :
    LvkOk (clearDecoder v (latchConfig v rate bal s)) := by
  intro hc
  have hk := chipWidthOk_of_configOk hc (reset_configOk v rate bal s)
  have hzero : fle fzeroPos resetEdge.lvk ∧ fle resetEdge.lvk fone := by decide +kernel
  have hone := ((lvkBeforeTick_edge hk).tick hk).2
  rw [fadd_fzeroPos_fone] at hone
  exact ⟨hzero.1, fle_trans hzero.2 hone⟩

/-- Settles O32: a RESET clears `LVK`, and a SAMPLE leaves it in [1, `K_OVF_MIN + 1`]. -/
theorem lvkStaysInRange : Obligations.LvkStaysInRange := by
  intro s t hconfig hlvk hstep
  exact (step_keeps (p := fun s => ConfigOk s ∧ LvkOk s) (fun _ _ h => h)
    (fun c0 c1 _ hc h => samplePipeline_lvkOk c0 c1 hc h)
    (fun v rate bal u _ => ⟨reset_configOk v rate bal u, reset_lvkOk v rate bal u⟩) ⟨hconfig, hlvk⟩ hstep).2

end Sys2Proof.Machine
end

section
/-! PROOFS. The standard framer chip by chip (43_framer_standard.md R74 to R81), and the idle run of both variants (R86 of
44_framer_fast.md). An idle chip runs the off and keep-alive tests on the state with the idle level recorded; a steady idle
stream is then quiet until one of the two tests holds. The variants differ only in four numbers and in what they record. -/

namespace Sys2Proof.Machine

/-! ## The run bookkeeping (43_framer_standard.md R75) -/

theorem frRun_run_of_eq {b : Chip} {f : FramerRegs} (h : b = f.lastBit) :
    (frRun b f).run.toNat = min (f.run.toNat + 1) (2 ^ 32 - 1) := by
  rw [frRun_run, if_pos h, satInc_toNat]

/-- Settles O34: `RUN` by its two cases, `NSL` by the saturating increment. -/
theorem runBookkeeping : Obligations.RunBookkeeping := by
  intro b f
  refine ⟨frRun_lastBit b f, fun hne => ?_, frRun_run_of_eq, ?_, frRun_idleVal b f⟩
  · rw [frRun_run, if_neg hne]
  · rw [frRun_nsl, satInc_toNat]

/-! ## A window that fails the frame check (43_framer_standard.md R79 to R81) -/

theorem chip_slides {b : Chip} {s : State} (hv : s.cfg.variant = .std) (hrun : (frRun b s.fr).run.toNat ≤ 10)
    (hcnt : s.std.chipCnt = 9) (hcheck : frFrameCheck s.fr.idleVal (frAppend b s.std).chipAcc = false) :
    chip b s = setStd (frSlide (frAppend b s.std)) (setFr (frRun b s.fr) s) := by
  have hfull : (s.std.chipCnt + 1).toNat = stdFrameChips := by rw [hcnt]; rfl
  have hfails : ¬ frFrameCheck s.fr.idleVal (frAppend b s.std).chipAcc = true := Bool.eq_false_iff.1 hcheck
  exact (chip_of_short_run hv hrun).trans ((if_pos hfull).trans (if_neg hfails))

theorem frFrameCheck_eq_false_iff {idle : Chip} {acc : Vector Chip 10} :
    frFrameCheck idle acc = false ↔ acc[0] = idle ∨ acc[9] ≠ idle := by
  simp [frFrameCheck, or_iff_not_imp_left]

/-- The tenth chip stands behind the nine before it. -/
theorem getElem_frAppend_chipAcc {r : StdRegs} (hcnt : r.chipCnt = 9) (b : Chip) {i : Nat} (hi : i < 10) :
    (frAppend b r).chipAcc[i] = if i = 9 then b else r.chipAcc[i] := by
  simp only [frAppend_chipAcc, hcnt, Vector.getElem_setIfInBounds, BitVec.reduceToNat, eq_comm (a := 9)]

theorem getElem_frSlide_chipAcc (r : StdRegs) {i : Nat} (hi : i + 1 < 10) :
    (frSlide r).chipAcc[i] = r.chipAcc[i + 1] := by
  simp [frSlide, hi]

theorem getElem_nine_frSlide_chipAcc (r : StdRegs) : (frSlide r).chipAcc[9] = r.chipAcc[9] := by
  simp [frSlide]

/-- Settles O58: the check fails on the completed window, so it slides. -/
theorem badWindowSlides : Obligations.BadWindowSlides := by
  intro b s hv hrun hcnt hbad
  have hcheck : frFrameCheck s.fr.idleVal (frAppend b s.std).chipAcc = false := by
    rw [frFrameCheck_eq_false_iff, getElem_frAppend_chipAcc hcnt, getElem_frAppend_chipAcc hcnt]
    exact hbad
  intro t
  have ht : t = setStd (frSlide (frAppend b s.std)) (setFr (frRun b s.fr) s) := chip_slides hv hrun hcnt hcheck
  clear_value t
  subst ht
  refine ⟨?_, fun i hi => ?_, ?_, ?_⟩
  · simp only [setStd, setFr, frSlide, frAppend, hcnt]
  · rw [setStd_std, getElem_frSlide_chipAcc _ (by omega), getElem_frAppend_chipAcc hcnt, if_neg (by omega)]
  · rw [setStd_std, getElem_frSlide_chipAcc _ (by omega), getElem_frAppend_chipAcc hcnt, if_pos rfl]
  · rw [setStd_std, getElem_nine_frSlide_chipAcc, getElem_frAppend_chipAcc hcnt, if_pos rfl]

/-! ## An idle chip (43_framer_standard.md R74, 44_framer_fast.md R86) -/

/-- `STD_IDLE_RUN` or `FAST_IDLE_RUN`. -/
def idleRunOf (v : Variant) : Nat := if v = .std then stdIdleRun else fastIdleRun

/-- `STD_OFF_RUN` or `FAST_OFF_RUN`. -/
def offRunOf (v : Variant) : Nat := if v = .std then stdOffRun else fastOffRun

/-- `STD_KA_NSL` or `FAST_KA_NSL`. -/
def kaNslOf (v : Variant) : Nat := if v = .std then stdKaNsl else fastKaNsl

/-- `STD_KA_CLAMP` or `FAST_KA_CLAMP`. -/
def kaClampOf (v : Variant) : BitVec 32 := if v = .std then stdKaClamp else fastKaClamp

/-- The state in which an idle chip's off and keep-alive tests run. -/
def idleRecorded (b : Chip) (s : State) : State :=
  if s.cfg.variant = .std then frIdle b (setFr (frRun b s.fr) s) else ffArm b (setFr (frRun b s.fr) s)

theorem idleRecorded_fr (b : Chip) (s : State) : (idleRecorded b s).fr = { frRun b s.fr with idleVal := b } := by
  unfold idleRecorded
  split <;> rfl

theorem idleRecorded_frame (b : Chip) (s : State) : ChipFrame s (idleRecorded b s) := by
  unfold idleRecorded
  split <;> exact ⟨rfl, rfl, rfl, rfl, rfl, rfl⟩

theorem idleRecorded_noEvent (b : Chip) (s : State) : NoEvent s (idleRecorded b s) := by
  unfold idleRecorded
  split <;> exact ⟨rfl, rfl⟩

theorem chip_of_idle {b : Chip} {s : State} (h : idleRunOf s.cfg.variant < (frRun b s.fr).run.toNat) :
    chip b s = idleTests (offRunOf s.cfg.variant) (kaNslOf s.cfg.variant) (kaClampOf s.cfg.variant)
      (idleRecorded b s) := by
  unfold idleRecorded
  cases hv : s.cfg.variant with
  | std =>
    rw [hv] at h
    exact (chip_of_std hv b).trans (if_pos h)
  | fast =>
    rw [hv] at h
    exact (chip_of_fast hv b).trans (if_pos h)

/-- Settles O57: the tests' branches, on the state with the idle level recorded. -/
theorem idleChipEffects : Obligations.IdleChipEffects := by
  intro b s
  refine ⟨fun hv hrun => ?_, fun hv hrun => ?_⟩
  · rw [chip_of_idle (by rw [hv]; exact hrun), idleRecorded, hv]
    rfl
  · rw [chip_of_idle (by rw [hv]; exact hrun), idleRecorded, hv]
    rfl

/-! ## A steady idle stream -/

/-- The latest chip is `b`, and one more `b` is an idle chip. -/
structure IdleStream (b : Chip) (s : State) : Prop where
  lastBit : s.fr.lastBit = b
  idleRun_le : idleRunOf s.cfg.variant ≤ s.fr.run.toNat

/-- The off test of the next chip of an idle stream, which adds one to `RUN` (43_framer_standard.md R77). -/
abbrev TurnsOff (s : State) : Prop := offRunOf s.cfg.variant < s.fr.run.toNat + 1 ∧ s.st.on = true

theorem idleRunOf_le (v : Variant) : idleRunOf v ≤ 100 := by cases v <;> decide

theorem offRunOf_le (v : Variant) : offRunOf v ≤ 1000 := by cases v <;> decide

theorem kaNslOf_le (v : Variant) : kaNslOf v ≤ 4000 := by cases v <;> decide

theorem repeatChip_succ_last (n : Nat) (b : Chip) (s : State) : repeatChip (n + 1) b s = chip b (repeatChip n b s) := by
  induction n generalizing s with
  | zero => rfl
  | succ n ih => exact ih (chip b s)

theorem offSnapshot_congr {s t : State} (hf : ChipFrame s t) (hst : t.st = s.st) : offSnapshot t = offSnapshot s := by
  rw [offSnapshot, offSnapshot, hst, hf.edge, hf.agcP]

theorem keepaliveSnapshot_congr {s t : State} (hf : ChipFrame s t) (hst : t.st = s.st) :
    keepaliveSnapshot t = keepaliveSnapshot s := by
  rw [keepaliveSnapshot, keepaliveSnapshot, hst, hf.edge, hf.agcP]

section
variable {b : Chip} {s : State}

theorem IdleStream.frRun_run (h : IdleStream b s) :
    (frRun b s.fr).run.toNat = min (s.fr.run.toNat + 1) (2 ^ 32 - 1) := frRun_run_of_eq h.lastBit.symm

theorem IdleStream.run_chip (h : IdleStream b s) :
    (chip b s).fr.run.toNat = min (s.fr.run.toNat + 1) (2 ^ 32 - 1) := by
  rw [(chip_run b s).2, h.frRun_run]

theorem IdleStream.after_chip (h : IdleStream b s) : IdleStream b (chip b s) where
  lastBit := (chip_run b s).1
  idleRun_le := by
    have hle := h.idleRun_le
    have hsmall := idleRunOf_le s.cfg.variant
    rw [(chip_effect b s).1.cfg, h.run_chip]
    omega

theorem IdleStream.after_repeatChip (h : IdleStream b s) (n : Nat) : IdleStream b (repeatChip n b s) :=
  repeatChip_keeps (p := IdleStream b) b (fun _ => IdleStream.after_chip) n s h

/-- The two tests of the next `b`, read off the state before it. -/
theorem IdleStream.chip_eq (h : IdleStream b s) :
    chip b s =
      if TurnsOff s then sdOff (idleRecorded b s)
      else if kaNslOf s.cfg.variant < s.fr.nsl.toNat + 1 then
        sdKeepalive (setFr { (idleRecorded b s).fr with nsl := kaClampOf s.cfg.variant } (idleRecorded b s))
      else idleRecorded b s := by
  have hidle := h.idleRun_le
  have hidleSmall := idleRunOf_le s.cfg.variant
  have hoffSmall := offRunOf_le s.cfg.variant
  have hkaSmall := kaNslOf_le s.cfg.variant
  have hrun := h.frRun_run
  have hoff : offRunOf s.cfg.variant < (frRun b s.fr).run.toNat ↔ offRunOf s.cfg.variant < s.fr.run.toNat + 1 := by
    omega
  have hka : kaNslOf s.cfg.variant < (frRun b s.fr).nsl.toNat ↔ kaNslOf s.cfg.variant < s.fr.nsl.toNat + 1 := by
    rw [frRun_nsl, satInc_toNat]
    omega
  obtain ⟨-, hst⟩ := idleRecorded_noEvent b s
  rw [chip_of_idle (by omega)]
  simp only [idleTests, idleRecorded_fr, hst, hoff, hka]

theorem idleRecorded_nsl (h : s.fr.nsl.toNat + 1 ≤ kaNslOf s.cfg.variant) :
    (idleRecorded b s).fr.nsl.toNat = s.fr.nsl.toNat + 1 := by
  have hkaSmall := kaNslOf_le s.cfg.variant
  rw [idleRecorded_fr, frRun_nsl, satInc_toNat]
  omega

/-- Neither test holds: the chip is only counted. -/
theorem IdleStream.chip_quiet (h : IdleStream b s) (hon : ¬ TurnsOff s)
    (hnsl : s.fr.nsl.toNat + 1 ≤ kaNslOf s.cfg.variant) :
    NoEvent s (chip b s) ∧ (chip b s).fr.nsl.toNat = s.fr.nsl.toNat + 1 := by
  rw [h.chip_eq, if_neg hon, if_neg (Nat.not_lt.2 hnsl)]
  exact ⟨idleRecorded_noEvent b s, idleRecorded_nsl hnsl⟩

/-- The off test holds (43_framer_standard.md R77). -/
theorem IdleStream.chip_off (h : IdleStream b s) (hoff : TurnsOff s)
    (hnsl : s.fr.nsl.toNat + 1 ≤ kaNslOf s.cfg.variant) :
    (chip b s).evq = s.evq ++ [offSnapshot s] ∧ (chip b s).st = offSnapshot s ∧
      (chip b s).fr.nsl.toNat = s.fr.nsl.toNat + 1 := by
  obtain ⟨hevq, hst⟩ := idleRecorded_noEvent b s
  rw [h.chip_eq, if_pos hoff, sdOff_evq, sdOff_st, sdOff_fr, offSnapshot_congr (idleRecorded_frame b s) hst, hevq]
  exact ⟨rfl, rfl, idleRecorded_nsl hnsl⟩

/-- The keep-alive test holds, the off test does not (43_framer_standard.md R78). -/
theorem IdleStream.chip_keepalive (h : IdleStream b s) (hon : ¬ TurnsOff s)
    (hnsl : kaNslOf s.cfg.variant < s.fr.nsl.toNat + 1) :
    (chip b s).evq = s.evq ++ [keepaliveSnapshot s] ∧
      (chip b s).fr.nsl = kaClampOf s.cfg.variant := by
  obtain ⟨hevq, hst⟩ := idleRecorded_noEvent b s
  have hsnap : keepaliveSnapshot (idleRecorded b s) = keepaliveSnapshot s :=
    keepaliveSnapshot_congr (idleRecorded_frame b s) hst
  rw [h.chip_eq, if_neg hon, if_pos hnsl, ← hsnap, ← hevq]
  exact ⟨rfl, rfl⟩

/-- In the off state chips are only counted while the keep-alive count is not passed. -/
theorem IdleStream.repeatChip_quiet (h : IdleStream b s) (hon : s.st.on = false) {n : Nat}
    (hnsl : s.fr.nsl.toNat + n ≤ kaNslOf s.cfg.variant) :
    NoEvent s (repeatChip n b s) ∧ (repeatChip n b s).fr.nsl.toNat = s.fr.nsl.toNat + n := by
  induction n generalizing s with
  | zero => exact ⟨⟨rfl, rfl⟩, rfl⟩
  | succ n ih =>
    have hnotOff : ¬ TurnsOff s := by simp [TurnsOff, hon]
    obtain ⟨hquiet, hcount⟩ := h.chip_quiet hnotOff (by omega)
    obtain ⟨hrest, hcountRest⟩ := ih h.after_chip (by rw [hquiet.2, hon]) (by
      rw [hcount, (chip_effect b s).1.cfg]
      omega)
    exact ⟨hquiet.trans hrest, by rw [repeatChip_succ, hcountRest, hcount]; omega⟩

/-- The chip that passes the off threshold emits the off snapshot; the chips before it and after it emit nothing. -/
theorem IdleStream.repeatChip_off (h : IdleStream b s) (hon : s.st.on = true)
    (hrun : s.fr.run.toNat ≤ offRunOf s.cfg.variant) {n : Nat} (hpast : offRunOf s.cfg.variant < s.fr.run.toNat + n)
    (hnsl : s.fr.nsl.toNat + n ≤ kaNslOf s.cfg.variant) :
    (repeatChip n b s).evq = s.evq ++ [offSnapshot s] ∧ (repeatChip n b s).st = offSnapshot s := by
  induction n generalizing s with
  | zero => omega
  | succ n ih =>
    have hframe := (chip_effect b s).1
    rw [repeatChip_succ]
    by_cases hoff : TurnsOff s
    · obtain ⟨hevq, hst, hcount⟩ := h.chip_off hoff (by omega)
      obtain ⟨⟨hevqRest, hstRest⟩, -⟩ := h.after_chip.repeatChip_quiet (n := n) (by rw [hst]; rfl) (by
        rw [hcount, hframe.cfg]
        omega)
      exact ⟨hevqRest.trans hevq, hstRest.trans hst⟩
    · obtain ⟨⟨hevq, hst⟩, hcount⟩ := h.chip_quiet hoff (by omega)
      have hbelow : s.fr.run.toNat + 1 ≤ offRunOf s.cfg.variant := Nat.not_lt.1 fun hlt => hoff ⟨hlt, hon⟩
      have hoffSmall := offRunOf_le s.cfg.variant
      have hrunChip : (chip b s).fr.run.toNat = s.fr.run.toNat + 1 := by
        rw [h.run_chip]
        omega
      rw [← hevq, ← offSnapshot_congr hframe hst]
      exact ih h.after_chip (by rw [hst, hon]) (by rw [hrunChip, hframe.cfg]; exact hbelow)
        (by rw [hrunChip, hframe.cfg]; omega) (by rw [hcount, hframe.cfg]; omega)

/-- In the off state the chip after a full keep-alive count emits the keep-alive snapshot and clamps `NSL`. -/
theorem IdleStream.repeatChip_keepalive (h : IdleStream b s) (hon : s.st.on = false) {n : Nat}
    (hnsl : s.fr.nsl.toNat + n = kaNslOf s.cfg.variant) :
    (repeatChip (n + 1) b s).evq = s.evq ++ [keepaliveSnapshot s] ∧
      (repeatChip (n + 1) b s).fr.nsl = kaClampOf s.cfg.variant := by
  have hframe := repeatChip_frame n b s
  obtain ⟨⟨hevq, hst⟩, hcount⟩ := h.repeatChip_quiet hon hnsl.le
  have hnotOff : ¬ TurnsOff (repeatChip n b s) := by simp [TurnsOff, hst, hon]
  rw [repeatChip_succ_last, ← hevq, ← keepaliveSnapshot_congr hframe hst, ← hframe.cfg]
  exact (h.after_repeatChip n).chip_keepalive hnotOff (by rw [hcount, hframe.cfg]; omega)

end

/-- Settles O40: by induction on the chips of the idle stream (`IdleStream.repeatChip_off`), for both variants at once. -/
theorem idleRunTurnsOffOnce : Obligations.IdleRunTurnsOffOnce := by
  intro n b s _ _ _ hlast hidle hrun hon hpast hnsl
  exact IdleStream.repeatChip_off ⟨hlast, hidle⟩ hon hrun hpast hnsl

theorem kaClampOf_toNat (v : Variant) : (kaClampOf v).toNat = if v = .std then 100 else 1000 := by cases v <;> rfl

/-- A period starts at the clamp and ends with the first count past `STD_KA_NSL` or `FAST_KA_NSL`. -/
theorem kaNslOf_succ_eq_clamp_add_period (v : Variant) :
    kaNslOf v + 1 = (if v = .std then 100 else 1000) + if v = .std then 601 else 3001 := by cases v <;> rfl

/-- Settles O41: quiet up to the keep-alive count, and the keep-alive chip is the period's last. -/
theorem keepalivePeriod : Obligations.KeepalivePeriod := by
  intro n b s _ clamp period hlast hidle hon hnsl
  have hstream : IdleStream b s := ⟨hlast, hidle⟩
  have hperiod : kaNslOf s.cfg.variant + 1 = clamp + period := kaNslOf_succ_eq_clamp_add_period s.cfg.variant
  have hclampNat : (kaClampOf s.cfg.variant).toNat = clamp := kaClampOf_toNat s.cfg.variant
  have hpos : 0 < period := by
    unfold period
    split <;> decide
  clear_value clamp period
  refine ⟨fun hlt => (hstream.repeatChip_quiet hon (n := n) (by omega)).1, fun heq => ?_⟩
  obtain ⟨m, rfl⟩ : ∃ m, n = m + 1 := ⟨n - 1, by omega⟩
  obtain ⟨hevq, hclamp⟩ := hstream.repeatChip_keepalive hon (n := m) (by omega)
  exact ⟨hevq, by rw [hclamp, hclampNat]⟩

end Sys2Proof.Machine
end

section
/-! PROOFS. Inverted fast frames (44_framer_fast.md R89, R90), and the chips that the start detector ignores or takes
outside a frame (44_framer_fast.md R85, R87). -/

namespace Sys2Proof.Machine

/-! ## Inverted chips -/

theorem getD_add_getD_map_not {chips : Vector Chip 24} {i : Nat} (hi : i < 24) :
    (chips.getD i false).toNat + ((chips.map fun b => !b).getD i false).toNat = 1 := by
  rw [getD_eq_getElem _ hi, getD_eq_getElem _ hi, Vector.getElem_map]
  cases chips[i] <;> rfl

/-- The weights 1, 2, 4 and 8 add up to 15 (44_framer_fast.md R90). -/
theorem fastDigit_add_map_not (chips : Vector Chip 24) {g : Nat} (hg : g < 6) :
    fastDigit chips g + fastDigit (chips.map fun b => !b) g = 15 := by
  have hbit {j : Nat} (hj : j < 4) := getD_add_getD_map_not (chips := chips) (i := 4 * g + j) (by omega)
  have h0 := hbit (j := 0) (by decide)
  have h1 := hbit (j := 1) (by decide)
  have h2 := hbit (j := 2) (by decide)
  have h3 := hbit (j := 3) (by decide)
  simp only [fastDigit, List.range, List.range.loop, List.map_cons, List.map_nil, List.sum_cons, List.sum_nil,
    Nat.shiftLeft_eq]
  omega

/-- Settles O43: every digit and its inverse add up to 15, and the times are the digits in decimal (`fastTime_eq`). -/
theorem invertedFastFrameTimes : Obligations.InvertedFastFrameTimes := by
  intro chips
  have hdigit {g : Nat} (hg : g < 6) := fastDigit_add_map_not chips hg
  have h0 := hdigit (g := 0) (by decide)
  have h1 := hdigit (g := 1) (by decide)
  have h2 := hdigit (g := 2) (by decide)
  have h3 := hdigit (g := 3) (by decide)
  have h4 := hdigit (g := 4) (by decide)
  have h5 := hdigit (g := 5) (by decide)
  rw [fastTime_eq, fastTime_eq]
  omega

/-! ## The start detector -/

/-- Outside a frame only a start chip does more than count (44_framer_fast.md R87). -/
theorem chip_of_no_start {b : Chip} {s : State} (hv : s.cfg.variant = .fast) (hin : s.fast.inframe = false)
    (hrun : (frRun b s.fr).run.toNat ≤ 100) (hstart : ¬ (s.fast.armed = true ∧ b ≠ s.fr.idleVal)) :
    chip b s = setFr (frRun b s.fr) s := by
  rw [chip_of_fast hv]
  rcases fastChip_cases b s with ⟨hidle, -⟩ | ⟨-, hframe, -⟩ | ⟨-, -, harmed, hb, -⟩ | ⟨-, -, -, h⟩
  · exact absurd hidle (Nat.not_lt.2 hrun)
  · exact absurd (hin.symm.trans hframe) Bool.false_ne_true
  · exact absurd ⟨harmed, hb⟩ hstart
  · exact h

/-- Settles O44: a disarmed detector takes no start chip. -/
theorem disarmedDetectorIgnoresChips : Obligations.DisarmedDetectorIgnoresChips := by
  intro b s hv harmed hin hrun
  exact chip_of_no_start hv hin hrun fun h => Bool.false_ne_true (harmed.symm.trans h.1)

/-- Settles O59: the chip's level decides between `chip_of_no_start` and `chip_starts_frame`. -/
theorem armedDetectorWaitsForAStartChip : Obligations.ArmedDetectorWaitsForAStartChip := by
  intro b s hv harmed hin hrun
  exact ⟨fun hb => chip_of_no_start hv hin hrun fun h => h.2 hb, chip_starts_frame hv harmed hin hrun⟩

end Sys2Proof.Machine
end

section
/-! PROOFS. State derivation (46_state_derivation.md R101 to R111): the computed fields of a frame snapshot, the off and the
keep-alive snapshots, and the clamp of the noise. -/

namespace Sys2Proof.Machine

/-! ## The noise -/

theorem sdNoise_of_nan {dist : F64} (h : fIsNaN dist = true) : sdNoise dist = fzeroPos := if_pos h

theorem sdNoise_of_not_nan {dist : F64} (h : fIsNaN dist = false) : sdNoise dist = fmin fone dist :=
  if_neg (Bool.eq_false_iff.1 h)

theorem not_nan_fone : fIsNaN fone = false := fofRatio_not_nan 1 1

/-- Settles O47: a NaN is replaced before the comparison, so `fmin` compares two values that are none (`fmin_spec`). -/
theorem noiseIsClamped : Obligations.NoiseIsClamped := by
  intro d
  refine ⟨sdNoise_of_nan, fun hd => ?_⟩
  rw [sdNoise_of_not_nan hd]
  exact fmin_spec not_nan_fone hd

/-! ## The computed fields of a frame snapshot -/

theorem timeIncreasing_iff (prev : Snapshot) (t : Nat) (u : BitVec 4) :
    timeIncreasing prev t u = true ↔
      if u = prev.unit then prev.time.toNat < t else prev.time.toNat / 10 < t / 10 := by
  unfold timeIncreasing
  split <;> exact decide_eq_true_iff

theorem runningFlag_iff (prev : Snapshot) (h : Byte) (inc : Bool) :
    runningFlag prev h inc = true ↔ (h ≠ chS ∨ prev.header = chS) ∧ (h = chSpace ∨ inc = true) := by
  simp [runningFlag]

theorem greenFlag_iff (h : Byte) : greenFlag h = true ↔ h = chA := by simp [greenFlag]

theorem leftFlag_iff (h : Byte) : leftFlag h = true ↔ h = chL ∨ h = chA ∨ h = chC := by simp [leftFlag, or_assoc]

theorem rightFlag_iff (h : Byte) : rightFlag h = true ↔ h = chR ∨ h = chA ∨ h = chC := by simp [rightFlag, or_assoc]

theorem frameSnapshot_time_toNat (h : Byte) {t : Nat} (u : BitVec 4) (s : State) (ht : t < 2 ^ 32) :
    (frameSnapshot h t u s).time.toNat = t := by
  rw [frameSnapshot, BitVec.toNat_ofNat, Nat.mod_eq_of_lt ht]

theorem frameSnapshot_running_iff (h : Byte) (t : Nat) (u : BitVec 4) (s : State) :
    (frameSnapshot h t u s).running = true ↔
      (h ≠ chS ∨ s.st.header = chS) ∧
        (h = chSpace ∨ if u = s.st.unit then s.st.time.toNat < t else s.st.time.toNat / 10 < t / 10) := by
  rw [← timeIncreasing_iff]
  exact runningFlag_iff _ _ _

/-- Settles O45: the flags by the lemma of each; the other fields and the registers are copied or written as they stand. -/
theorem derivedSnapshotFields : Obligations.DerivedSnapshotFields := by
  intro h t u s ht x inc
  have htime : x.time.toNat = t := frameSnapshot_time_toNat h u s ht
  have hrunning := frameSnapshot_running_iff h t u s
  exact ⟨htime, rfl, rfl, rfl, hrunning, greenFlag_iff h, leftFlag_iff h, rightFlag_iff h, rfl, rfl, rfl, rfl⟩

/-! ## The off and the keep-alive snapshots -/

/-- Settles O46: each operation is one `emit`, which writes `ST` and `EVQ` only, of the held state with the fields replaced. -/
theorem offAndKeepaliveSnapshots : Obligations.OffAndKeepaliveSnapshots := by
  intro s
  constructor
  · rw [sdOff, emit, offSnapshot]
  · rw [sdKeepalive, emit, keepaliveSnapshot]

end Sys2Proof.Machine
end

section
/-! PROOFS. What no command can do (60_exceptions.md): stop the machine (R115), or append three events in one SAMPLE (R121).
A SAMPLE's chips carry one value. As long as they are idle chips, an event budget pays for at most one off and one keep-alive
snapshot; a chip that ends a frame leaves the framers in a state in which the next chip emits nothing. -/

namespace Sys2Proof.Machine

/-! ## Every command completes (60_exceptions.md R115) -/

theorem exec_completes (i : Instr) (s : State) : ∃ t, exec i s = .next t := by
  cases i with
  | nop o => exact ⟨s, exec_nop o s⟩
  | sample c0 c1 =>
    rcases hc : s.cfg.configured
    · exact ⟨s, sampleIgnoredWhileUnconfigured c0 c1 s hc⟩
    · exact ⟨_, exec_sample_configured c0 c1 hc⟩
  | reset v ig rate bal => exact ⟨_, exec_reset v ig rate bal s⟩
  | reserved o => exact ⟨s, rfl⟩

/-- Settles O8: a step keeps the state or runs a command, and each command completes. -/
theorem nothingStopsTheMachine : Obligations.NothingStopsTheMachine := by
  refine ⟨exec_completes, fun s => ?_⟩
  rcases step_cases s with ⟨-, hstep⟩ | ⟨w, rest, -, hstep⟩
  · exact ⟨s, hstep⟩
  · rw [hstep]
    exact exec_completes _ _

/-! ## One event per chip -/

theorem chip_evq_length_le (b : Chip) (s : State) : (chip b s).evq.length ≤ s.evq.length + 1 := by
  rcases (chip_effect b s).2 with ⟨hevq, -⟩ | ⟨x, hevq, -⟩ <;> rw [hevq]
  · exact Nat.le_succ _
  · rw [List.length_append, List.length_singleton]

theorem repeatChip_evq_length_le (n : Nat) (b : Chip) (s : State) :
    (repeatChip n b s).evq.length ≤ s.evq.length + n := by
  induction n generalizing s with
  | zero => exact le_rfl
  | succ n ih =>
    have hchip := chip_evq_length_le b s
    have hrest := ih (chip b s)
    rw [repeatChip_succ]
    omega

/-! ## Idle chips: one off and one keep-alive at most -/

/-- The chip before an idle chip has its value. -/
theorem idleStream_of_idle_chip {b : Chip} {s : State} (h : idleRunOf s.cfg.variant < (frRun b s.fr).run.toNat) :
    IdleStream b s := by
  have hrun := frRun_run_le b s.fr
  refine ⟨?_, by omega⟩
  by_contra hne
  have hone : (frRun b s.fr).run.toNat = 1 := frRun_run_of_ne (Ne.symm hne)
  have hpos : 10 ≤ idleRunOf s.cfg.variant := by cases s.cfg.variant <;> decide
  omega

/-- The events that `n` chips of an idle stream can still emit: an off while the held state is on, and a keep-alive while
`NSL` can pass its threshold. -/
def idleEventBudget (n : Nat) (s : State) : Nat :=
  (if s.st.on = true then 1 else 0) + if kaNslOf s.cfg.variant < s.fr.nsl.toNat + n then 1 else 0

theorem idleEventBudget_le_two (n : Nat) (s : State) : idleEventBudget n s ≤ 2 := by
  unfold idleEventBudget
  split <;> split <;> omega

section
variable {b : Chip} {s : State}

/-- Unlike `IdleStream.chip_off` this asks nothing of `NSL`, whose threshold may be passed as well. -/
theorem IdleStream.on_nsl_chip_off (h : IdleStream b s) (hoff : TurnsOff s) :
    (chip b s).st.on = false ∧ (chip b s).fr.nsl.toNat ≤ s.fr.nsl.toNat + 1 := by
  rw [h.chip_eq, if_pos hoff, sdOff_st, sdOff_fr, idleRecorded_fr]
  refine ⟨rfl, ?_⟩
  rw [frRun_nsl, satInc_toNat]
  exact Nat.min_le_left _ _

theorem IdleStream.on_chip_keepalive (h : IdleStream b s) (hon : ¬ TurnsOff s)
    (hnsl : kaNslOf s.cfg.variant < s.fr.nsl.toNat + 1) : (chip b s).st.on = s.st.on := by
  obtain ⟨-, hst⟩ := idleRecorded_noEvent b s
  rw [h.chip_eq, if_neg hon, if_pos hnsl, ← hst]
  rfl

/-- The clamp leaves `NSL` at least 600 chips below the threshold (43_framer_standard.md R78, 44_framer_fast.md R86). -/
theorem kaClampOf_add_le (v : Variant) : (kaClampOf v).toNat + 600 ≤ kaNslOf v := by cases v <;> decide

/-- An event of an idle chip is paid for: an off leaves the held state off, and a keep-alive clamps `NSL`. -/
theorem IdleStream.chip_budget (h : IdleStream b s) {n : Nat} (hn : n ≤ 600) :
    (chip b s).evq.length + idleEventBudget n (chip b s) ≤ s.evq.length + idleEventBudget (n + 1) s := by
  have hlen := chip_evq_length_le b s
  rw [idleEventBudget, idleEventBudget, (chip_effect b s).1.cfg]
  by_cases hoff : TurnsOff s
  · obtain ⟨hon, hnsl⟩ := h.on_nsl_chip_off hoff
    rw [hon, if_pos hoff.2, if_neg Bool.false_ne_true]
    split <;> split <;> omega
  · by_cases hka : kaNslOf s.cfg.variant < s.fr.nsl.toNat + 1
    · obtain ⟨-, hclamp⟩ := h.chip_keepalive hoff hka
      have hbelow := kaClampOf_add_le s.cfg.variant
      have hspent : ¬ kaNslOf s.cfg.variant < (kaClampOf s.cfg.variant).toNat + n := by omega
      have hdue : kaNslOf s.cfg.variant < s.fr.nsl.toNat + (n + 1) := by omega
      rw [h.on_chip_keepalive hoff hka, hclamp, if_neg hspent, if_pos hdue]
      omega
    · obtain ⟨⟨hevq, hst⟩, hnsl⟩ := h.chip_quiet hoff (Nat.not_lt.1 hka)
      rw [hevq, hst, hnsl, Nat.add_assoc, Nat.add_comm 1 n]

theorem IdleStream.repeatChip_budget (h : IdleStream b s) {n : Nat} (hn : n ≤ 600) :
    (repeatChip n b s).evq.length ≤ s.evq.length + idleEventBudget n s := by
  induction n generalizing s with
  | zero => exact Nat.le_add_right _ _
  | succ n ih =>
    rw [repeatChip_succ]
    exact (ih h.after_chip (by omega)).trans (h.chip_budget (by omega))

end

/-! ## A frame, and silence after it -/

/-- The framers right after a frame: `NSL` is cleared (46_state_derivation.md R109), the run is no idle run, and the
accumulator is empty or no frame is being collected (43_framer_standard.md R82, 44_framer_fast.md R88). -/
structure FrameEnded (s : State) : Prop where
  nsl : s.fr.nsl = 0
  run_le : s.fr.run.toNat ≤ idleRunOf s.cfg.variant
  chipCnt : s.cfg.variant = .std → s.std.chipCnt = 0
  inframe : s.cfg.variant = .fast → s.fast.inframe = false

section
variable {b : Chip} {s : State}

theorem fdDecode_noEvent_or_clears_nsl (s : State) : NoEvent s (fdDecode s) ∨ (fdDecode s).fr = { s.fr with nsl := 0 } := by
  rcases fdDecode_cases s with h | ⟨n, -, -, -, h⟩ <;> rw [h]
  · exact Or.inl ⟨rfl, rfl⟩
  · exact Or.inr rfl

/-- The standard framer emits outside an idle run only where a byte completes a message. -/
theorem stdChip_noEvent_or_frameEnded (hv : s.cfg.variant = .std) (hrun : (frRun b s.fr).run.toNat ≤ 10) :
    NoEvent s (chip b s) ∨ FrameEnded (chip b s) := by
  have hcfg := (chip_effect b s).1.cfg
  have hchip := chip_of_short_run hv hrun
  rcases frAccumulate_cases b (setFr (frRun b s.fr) s) with ⟨-, h⟩ | ⟨-, -, h⟩ | ⟨-, -, h⟩
  · exact Or.inl (by rw [hchip, h]; exact ⟨rfl, rfl⟩)
  · rw [h, frByte] at hchip
    rcases fdDecode_noEvent_or_clears_nsl (setStd _ (setStd (frAppend b s.std) (setFr (frRun b s.fr) s))) with hquiet | hfr
    · exact Or.inl (by rw [hchip]; exact hquiet)
    · refine Or.inr ⟨?_, ?_, fun _ => ?_, fun hfast => ?_⟩
      · rw [hchip, frClearAcc_fr]
        exact congrArg FramerRegs.nsl hfr
      · rw [(chip_run b s).2, hcfg, hv]
        exact hrun
      · rw [hchip]
        rfl
      · rw [hcfg, hv] at hfast
        cases hfast
  · exact Or.inl (by rw [hchip, h]; exact ⟨rfl, rfl⟩)

/-- Outside a frame the fast framer emits on idle chips only. -/
theorem noEvent_fast_chip_outside_frame (hv : s.cfg.variant = .fast) (hin : s.fast.inframe = false)
    (hrun : (frRun b s.fr).run.toNat ≤ 100) : NoEvent s (chip b s) := by
  by_cases hstart : s.fast.armed = true ∧ b ≠ s.fr.idleVal
  · obtain ⟨harmed, hb⟩ := hstart
    rw [chip_starts_frame hv harmed hin hrun hb]
    exact ⟨rfl, rfl⟩
  · rw [chip_of_no_start hv hin hrun hstart]
    exact ⟨rfl, rfl⟩

/-- The fast framer emits outside an idle run only where a frame is complete. -/
theorem fastChip_noEvent_or_frameEnded (hv : s.cfg.variant = .fast) (hrun : (frRun b s.fr).run.toNat ≤ 100) :
    NoEvent s (chip b s) ∨ FrameEnded (chip b s) := by
  rcases hin : s.fast.inframe
  · exact Or.inl (noEvent_fast_chip_outside_frame hv hin hrun)
  · have hcfg := (chip_effect b s).1.cfg
    have hchip := chip_in_frame hv hin hrun
    rcases ffCollect_cases b (setFr (frRun b s.fr) s) with ⟨-, h⟩ | ⟨-, h⟩ <;> rw [h] at hchip
    · refine Or.inr ⟨by rw [hchip]; rfl, ?_, fun hstd => ?_, fun _ => by rw [hchip]; rfl⟩
      · rw [(chip_run b s).2, hcfg, hv]
        exact hrun
      · rw [hcfg, hv] at hstd
        cases hstd
    · exact Or.inl (by rw [hchip]; exact ⟨rfl, rfl⟩)

/-- Outside an idle run the only event is a frame (60_exceptions.md R121). -/
theorem chip_noEvent_or_frameEnded (hrun : (frRun b s.fr).run.toNat ≤ idleRunOf s.cfg.variant) :
    NoEvent s (chip b s) ∨ FrameEnded (chip b s) := by
  cases hv : s.cfg.variant with
  | std =>
    rw [hv] at hrun
    exact stdChip_noEvent_or_frameEnded hv hrun
  | fast =>
    rw [hv] at hrun
    exact fastChip_noEvent_or_frameEnded hv hrun

/-- Right after a frame an idle chip is too early for an off and for a keep-alive, and any other chip completes no
frame. -/
theorem FrameEnded.noEvent_chip (h : FrameEnded s) (b : Chip) : NoEvent s (chip b s) := by
  obtain ⟨hnsl, hrun, hchipCnt, hinframe⟩ := h
  by_cases hidle : idleRunOf s.cfg.variant < (frRun b s.fr).run.toNat
  · have hgap : idleRunOf s.cfg.variant + 1 ≤ offRunOf s.cfg.variant ∧ 1 ≤ kaNslOf s.cfg.variant := by
      cases s.cfg.variant <;> decide
    have hnotOff : ¬ TurnsOff s := fun ⟨hpast, _⟩ => by omega
    have hzero : s.fr.nsl.toNat = 0 := by rw [hnsl]; rfl
    exact ((idleStream_of_idle_chip hidle).chip_quiet hnotOff (by omega)).1
  · cases hv : s.cfg.variant with
    | std =>
      have hempty : s.std.chipCnt.toNat = 0 := by rw [hchipCnt hv]; rfl
      rw [hv] at hidle
      rw [chip_appends hv (Nat.not_lt.1 hidle) (by omega)]
      exact ⟨rfl, rfl⟩
    | fast =>
      rw [hv] at hidle
      exact noEvent_fast_chip_outside_frame hv (hinframe hv) (Nat.not_lt.1 hidle)

end

/-! ## The events of a SAMPLE (60_exceptions.md R121) -/

/-- Three chips of one value: an idle stream's budget is two, and otherwise the first chip or the second emits nothing. -/
theorem repeatChip_three_evq_length_le (b : Chip) (s : State) : (repeatChip 3 b s).evq.length ≤ s.evq.length + 2 := by
  by_cases hidle : idleRunOf s.cfg.variant < (frRun b s.fr).run.toNat
  · have hbudget := (idleStream_of_idle_chip hidle).repeatChip_budget (n := 3) (by decide)
    have htwo := idleEventBudget_le_two 3 s
    omega
  · rcases chip_noEvent_or_frameEnded (Nat.not_lt.1 hidle) with ⟨hevq, -⟩ | hframe
    · have hrest := repeatChip_evq_length_le 2 b (chip b s)
      rw [hevq] at hrest
      exact hrest
    · have hfirst := chip_evq_length_le b s
      have hthird := chip_evq_length_le b (chip b (chip b s))
      obtain ⟨hsecond, -⟩ := hframe.noEvent_chip b
      rw [hsecond] at hthird
      exact hthird.trans (Nat.add_le_add_right hfirst 1)

theorem repeatChip_evq_length_le_two {n : Nat} (hn : n ≤ 3) (b : Chip) (s : State) :
    (repeatChip n b s).evq.length ≤ s.evq.length + 2 := by
  rcases hn.lt_or_eq with hlt | rfl
  · have hle := repeatChip_evq_length_le n b s
    omega
  · exact repeatChip_three_evq_length_le b s

/-- An edge hands over at most three chips, an overflow one. -/
theorem samplePipeline_evq_length_le {s : State} (hc : s.cfg.configured = true) (hconfig : ConfigOk s) (hlvk : LvkOk s)
    (c0 c1 : F32) : (samplePipeline c0 c1 s).evq.length ≤ s.evq.length + 2 := by
  rcases samplePipeline_cases c0 c1 s with ⟨hedge, he⟩ | ⟨-, -, he⟩ | ⟨-, -, he⟩ <;>
    rw [he, edDistortion_evq, edTick_evq]
  · rw [edgeFound, edTest, Bool.and_eq_true] at hedge
    obtain ⟨-, hlong⟩ := hedge
    obtain ⟨-, hthree⟩ := edgeEmitsOneToThreeChips s hc hconfig hlvk hlong
    exact repeatChip_evq_length_le_two hthree s.edge.lastSgn (beforeAction c0 c1 s)
  · exact (chip_evq_length_le s.edge.lastSgn (beforeAction c0 c1 s)).trans (Nat.le_succ _)
  · exact Nat.le_add_right _ 2

/-- Settles O49: an unconfigured SMDEC appends nothing, and of the three chips of an edge one emits nothing. -/
theorem atMostTwoEventsPerSample : Obligations.AtMostTwoEventsPerSample := by
  intro c0 c1 s hconfig hlvk
  rcases hc : s.cfg.configured
  · exact ⟨s, [], sampleIgnoredWhileUnconfigured c0 c1 s hc, (List.append_nil _).symm, Nat.zero_le 2⟩
  · obtain ⟨t, new, hexec, hevq, -⟩ := sampleEventsCarryPowerAndOldNoise c0 c1 s
    have ht : samplePipeline c0 c1 s = t := Host.Outcome.next.inj ((exec_sample_configured c0 c1 hc).symm.trans hexec)
    have hlen := samplePipeline_evq_length_le hc hconfig hlvk c0 c1
    rw [ht, hevq, List.length_append] at hlen
    exact ⟨t, new, hexec, hevq, by omega⟩

end Sys2Proof.Machine
end

section
/-! PROOFS. Power-on and RESET (70_reset_and_hazards.md): the registers at power-on and the invariants that hold of them
(R128), and what of the past a RESET lets through (R129, R132). Power-on leaves SMDEC unconfigured, so the configuration's
invariants say nothing there; the other registers have the values a RESET gives them. -/

namespace Sys2Proof.Machine

/-! ## RESET and the past (R129, R132) -/

/-- `clearDecoder` overwrites the decoder registers, and so depends only on the fields it keeps. -/
theorem clearDecoder_congr (v : Variant) {s t : State} (hcfg : s.cfg = t.cfg) (hk : s.k = t.k) (hevq : s.evq = t.evq)
    (hcmdIn : s.cmdIn = t.cmdIn) (hctr : s.freeCtr = t.freeCtr) : clearDecoder v s = clearDecoder v t := by
  rw [clearDecoder, clearDecoder, hcfg, hk, hevq, hcmdIn, hctr]

/-- The constants a RESET latches are computed from its operand or drawn by the counter, never taken from the old ones. -/
theorem latchConfig_constants_congr (v : Variant) (rate : BitVec 24) (bal : F32) {s t : State}
    (hctr : s.freeCtr = t.freeCtr) :
    (latchConfig v rate bal s).k = (latchConfig v rate bal t).k ∧
      (latchConfig v rate bal s).freeCtr = (latchConfig v rate bal t).freeCtr := by
  cases hlegal : legalConfig rate bal with
  | true =>
    obtain ⟨hk, hs⟩ := latchConfig_legal (v := v) hlegal s
    obtain ⟨hk', ht⟩ := latchConfig_legal (v := v) hlegal t
    exact ⟨hk.trans hk'.symm, by rw [hs, ht, hctr]⟩
  | false =>
    obtain ⟨hk, hs⟩ := latchConfig_illegal (v := v) hlegal s
    obtain ⟨hk', ht⟩ := latchConfig_illegal (v := v) hlegal t
    exact ⟨by rw [hk, hk', hctr], by rw [hs, ht, hctr]⟩

/-- Settles O14: the decoder registers are overwritten, and the configuration and its constants do not depend on them. -/
theorem resetErasesHistory : Obligations.ResetErasesHistory := by
  intro v ig rate bal s s' hevq hcmdIn hctr
  obtain ⟨hk, hctr'⟩ := latchConfig_constants_congr v rate bal hctr
  rw [exec_reset, exec_reset]
  refine congrArg _ (clearDecoder_congr v ?cfg hk ?evq ?cmdIn hctr')
  case cfg => rw [latchConfig_cfg, latchConfig_cfg]
  case evq => rw [latchConfig_evq, latchConfig_evq, hevq]
  case cmdIn => rw [latchConfig_cmdIn, latchConfig_cmdIn, hcmdIn]

/-! ## Power-on (R128) -/

/-- Settles O9: each register is written as its value in `State.reset`, the binary64 ones as patterns. -/
theorem powerOnRegisters : Obligations.PowerOnRegisters := by
  refine ⟨rfl, rfl, rfl, oneBits_eq_fone, oneBits_eq_fone, resetEdge_dl_getElem, rfl, rfl, zero_eq_fzeroPos,
    zero_eq_fzeroPos, rfl, rfl, rfl, rfl, ?chipAcc, rfl, ?byteBuf, rfl, rfl, rfl, rfl, ?chips, ?snapshot, rfl⟩
  case chipAcc | byteBuf | chips => exact fun _ h => Vector.getElem_replicate h
  case snapshot =>
    rw [← zero_eq_fzeroPos, ← oneBits_eq_fone]
    rfl

/-- `ConfigOk`, `CursorOk` and `LvkOk` bind a configured SMDEC only. -/
theorem configuredOnly_of_unconfigured {s : State} {p : Prop} (h : s.cfg.configured = false) :
    s.cfg.configured = true → p :=
  fun hc => absurd hc (Bool.eq_false_iff.1 h)

theorem powerOn_configOk : ConfigOk State.reset := configuredOnly_of_unconfigured rfl

theorem powerOn_configInv : ConfigInv State.reset := ⟨powerOn_configOk, configuredOnly_of_unconfigured rfl⟩

/-- Nothing has been emitted at power-on: the held state is the only snapshot. -/
theorem everySnapshot_powerOn {p : Snapshot → Prop} (h : p (resetSnapshot .std)) : EverySnapshot p State.reset :=
  ⟨h, fun _ hx => absurd hx List.not_mem_nil⟩

theorem powerOn_registerInv : RegisterInv State.reset := by
  have hcounters : CountersOk State.reset := by decide
  exact ⟨hcounters, (unselectedAtReset_std rfl).2 rfl, everySnapshot_powerOn (resetSnapshot_fieldsOk .std)⟩

theorem powerOn_signalInv : SignalInv State.reset := by
  obtain ⟨hpower, hnoise⟩ := resetSnapshot_signalOk .std
  have hagc : PowerOk State.reset := by decide +kernel
  have hdist : DistOk State.reset := by decide +kernel
  exact ⟨powerOn_configOk, hagc, hdist, everySnapshot_powerOn hpower, everySnapshot_powerOn hnoise⟩

/-- Settles O52: the registers are at their reset values, no event has been emitted, and SMDEC is unconfigured. -/
theorem invariantsAtPowerOn : Obligations.InvariantsAtPowerOn :=
  ⟨powerOn_registerInv, powerOn_configInv, powerOn_signalInv, configuredOnly_of_unconfigured rfl⟩

end Sys2Proof.Machine
end
